-- ==== Sys2Proof/Word.lean ====
section
/-! DEFINITION. The words of OBXD-CORE: 32-bit command words, bytes of a transport, and binary32 values
(00_scope.md R7, R8). Arithmetic on binary32 is in Machine/Float.lean. -/

namespace Sys2Proof

/-- One 32-bit word of the command port or of `RDATA` (20_memory.md R83). -/
abbrev Word := BitVec 32

/-- One byte of a host transport (20_memory.md R83). -/
abbrev Byte := BitVec 8

/-- A binary32 value, given by its encoding (00_scope.md R8): bit 31 sign, bits 30:23 biased exponent,
bits 22:0 fraction. A structure, so that integer operations on words are never applied to it by accident. -/
structure F32 where
  /-- `bits32(x)` of R8. -/
  bits : Word
  deriving DecidableEq, Repr, Inhabited

end Sys2Proof
end

