-- ==== Sys2Proof/Config.lean ====
section
/-! DEFINITION. What an implementation of OBXD-CORE fixes (00_scope.md R6), and the values the spec leaves free:
uninterpreted constants without a body, so that nothing can be proved of them. -/

namespace Sys2Proof

/-- Output sample format, construction parameter `OUT_FMT` (00_scope.md R6). -/
inductive OutFmt
  /-- 16-bit two's complement (45_render_mixer.md R316). -/
  | s16
  /-- binary32 (45_render_mixer.md R317). -/
  | f32
  deriving DecidableEq, Repr

/-- Which library supplies the construction functions `exp2f`, `tanf`, `sinf` (00_scope.md R6, R10).
A name, so that State stays plain data; the functions are chosen by `TransLib.exp2` and its fellows in
Machine/Transcendental.lean (log entries 6 and 7). -/
inductive TransLib
  /-- The reference definition of R10: correctly rounded. -/
  | correctlyRounded
  /-- Any other implementation of the three functions, numbered only to tell several apart. -/
  | other (n : Nat)
  deriving DecidableEq, Repr

/-- The construction parameters of one instance (00_scope.md R6), fixed for its life (70_reset_and_hazards.md R390). -/
structure Construction where
  /-- `P`, the voice pool size, 1..32. -/
  poolSize : Nat
  /-- `FS0`, the sample rate at reset. -/
  fs0 : F32
  /-- `OUT_FMT`. -/
  outFmt : OutFmt
  /-- `SEED0`, the noise generator state at reset. -/
  seed0 : Word
  /-- `exp2f`, `tanf`, `sinf`. -/
  lib : TransLib
  deriving DecidableEq, Repr

/-- The reference construction every test vector assumes (00_scope.md R6). -/
def Construction.reference : Construction where
  poolSize := 8
  fs0 := ⟨0x472C4400#32⟩
  outFmt := .s16
  seed0 := 0x00000001#32
  lib := .correctlyRounded

/-- `exp2f` of library `n`: uninterpreted (00_scope.md R10, log entry 7). -/
opaque Config.otherExp2 : Nat → F32 → F32

/-- `tanf` of library `n`: uninterpreted (00_scope.md R10, log entry 7). -/
opaque Config.otherTan : Nat → F32 → F32

/-- `sinf` of library `n`: uninterpreted (00_scope.md R10, log entry 7). -/
opaque Config.otherSin : Nat → F32 → F32

/-- Sign (bit 22) and payload (bits 21:0) of the quiet NaN an operation on these operands gives: IEEE 754 leaves
them open and the spec never produces a NaN (45_render_mixer.md R320): a FREE VALUE (log entry 8). -/
opaque Config.freeNaN : F32 → F32 → BitVec 23

end Sys2Proof
end

