-- ==== Sys2Proof/Machine/Constants.lean ====
section
/-! DEFINITION. The fixed binary32 constants of 00_scope.md R11, each by the encoding the rule gives, and the plain
literals of the pseudocode. -/

namespace Sys2Proof.Machine

/-- `LOG2_20`. -/
def cLog2_20 : F32 := ⟨0x408A4D3C#32⟩
/-- `LOG2_1000`. -/
def cLog2_1000 : F32 := ⟨0x411F73DA#32⟩
/-- `LOG2_1E4`. -/
def cLog2_1E4 : F32 := ⟨0x41549A78#32⟩
/-- `LOG2_3`. -/
def cLog2_3 : F32 := ⟨0x3FCAE00D#32⟩
/-- `LOG2_400`. -/
def cLog2_400 : F32 := ⟨0x410A4D3C#32⟩
/-- `PI`. -/
def cPi : F32 := ⟨0x40490FDB#32⟩
/-- `TWO_PI`. -/
def cTwoPi : F32 := ⟨0x40C90FDB#32⟩
/-- `K_NORM`. -/
def cKNorm : F32 := ⟨0x3FFAE148#32⟩
/-- `K_SELF`. -/
def cKSelf : F32 := ⟨0x40028F5C#32⟩
/-- `FILT_LIM`. -/
def cFiltLim : F32 := ⟨0x3F99999A#32⟩
/-- `EPS_ENV`. -/
def cEpsEnv : F32 := ⟨0x38D1B717#32⟩
/-- `ATT_TARGET`. -/
def cAttTarget : F32 := ⟨0x3FC00000#32⟩
/-- `DT_MIN`. -/
def cDtMin : F32 := ⟨0x35800000#32⟩
/-- `DT_MAX`. -/
def cDtMax : F32 := ⟨0x3EE66666#32⟩
/-- `NYQ_FRAC`. -/
def cNyqFrac : F32 := ⟨0x3EE66666#32⟩
/-- `FC_MIN`. -/
def cFcMin : F32 := ⟨0x41200000#32⟩
/-- `PW_MIN`. -/
def cPwMin : F32 := ⟨0x3D4CCCCD#32⟩
/-- `PW_MAX`. -/
def cPwMax : F32 := ⟨0x3F733333#32⟩
/-- `T_MIN`. -/
def cTMin : F32 := ⟨0x3A83126F#32⟩
/-- `LFO_RATE_MIN`. -/
def cLfoRateMin : F32 := ⟨0x3D4CCCCD#32⟩
/-- `LFO_PW_DEPTH`. -/
def cLfoPwDepth : F32 := ⟨0x3ECCCCCD#32⟩
/-- `S16_SCALE`. -/
def cS16Scale : F32 := ⟨0x46FFFE00#32⟩

/-- 0.0 -/
def c0 : F32 := ⟨0x00000000#32⟩
/-- 0.25 -/
def cQuarter : F32 := ⟨0x3E800000#32⟩
/-- 0.5 -/
def cHalf : F32 := ⟨0x3F000000#32⟩
/-- 1.0 -/
def c1 : F32 := ⟨0x3F800000#32⟩
/-- -1.0 -/
def cNeg1 : F32 := ⟨0xBF800000#32⟩
/-- 2.0 -/
def c2 : F32 := ⟨0x40000000#32⟩
/-- -2.0 -/
def cNeg2 : F32 := ⟨0xC0000000#32⟩
/-- 4.0 -/
def c4 : F32 := ⟨0x40800000#32⟩
/-- 5.0 -/
def c5 : F32 := ⟨0x40A00000#32⟩
/-- 8.0 -/
def c8 : F32 := ⟨0x41000000#32⟩
/-- 10.0 -/
def c10 : F32 := ⟨0x41200000#32⟩
/-- 12.0 -/
def c12 : F32 := ⟨0x41400000#32⟩
/-- 20.0 -/
def c20 : F32 := ⟨0x41A00000#32⟩
/-- 24.0 -/
def c24 : F32 := ⟨0x41C00000#32⟩
/-- -24.0 -/
def cNeg24 : F32 := ⟨0xC1C00000#32⟩
/-- 60.0 -/
def c60 : F32 := ⟨0x42700000#32⟩
/-- 69.0 -/
def c69 : F32 := ⟨0x428A0000#32⟩
/-- 120.0 -/
def c120 : F32 := ⟨0x42F00000#32⟩
/-- 300.0 -/
def c300 : F32 := ⟨0x43960000#32⟩
/-- 440.0 -/
def c440 : F32 := ⟨0x43DC0000#32⟩
/-- 8000.0 -/
def c8000 : F32 := ⟨0x45FA0000#32⟩
/-- 192000.0 -/
def c192000 : F32 := ⟨0x483B8000#32⟩
/-- 2^-23, the noise scale of 45_render_mixer.md R313. -/
def cTwoPowNeg23 : F32 := ⟨0x34000000#32⟩
/-- 0.7, the reset value of `CUTOFF` and the sustain levels (10_state.md R40). -/
def cReset0_7 : F32 := ⟨0x3F333333#32⟩
/-- 0.2, the reset value of `RESONANCE` (10_state.md R40). -/
def cReset0_2 : F32 := ⟨0x3E4CCCCD#32⟩

end Sys2Proof.Machine
end

