-- ==== Sys2Proof/Machine/Float.lean ====
section
/-! DEFINITION. IEEE 754 binary32 arithmetic as the rules use it (00_scope.md R8, R9, R12): exact integer arithmetic on
values measured in units of 2^-149 (the smallest subnormal, of which every finite binary32 is a multiple), then one
rounding to nearest, ties to even. Subnormals are kept; there is no fused multiply-add. -/

namespace Sys2Proof

/-- The number of units 2^-149 in 1.0: 2^149. -/
def F32.one149 : Nat := 2 ^ 149

/-- The encoding of infinity without its sign: exponent field 255, fraction 0. -/
def F32.infMag : Nat := 0x7F800000

/-- The sign bit (R8). -/
def F32.sign (x : F32) : Bool := x.bits.msb

/-- The encoding without its sign bit. -/
def F32.mag (x : F32) : Nat := x.bits.toNat % 2 ^ 31

/-- NaN: exponent field 255 and a nonzero fraction, any sign and payload. -/
def F32.isNaN (x : F32) : Bool := decide (F32.infMag < x.mag)

/-- Plus or minus infinity. -/
def F32.isInf (x : F32) : Bool := decide (x.mag = F32.infMag)

/-- Neither NaN nor infinity. -/
def F32.isFinite (x : F32) : Bool := decide (x.mag < F32.infMag)

/-- Plus or minus zero. -/
def F32.isZero (x : F32) : Bool := decide (x.mag = 0)

/-- The magnitude whose encoding (without sign) is `m`, in units of 2^-149: the fraction alone when the exponent field
is 0 (subnormal), else the 24-bit significand scaled by the exponent. Infinity reads as 2^277, above every finite
magnitude, so that comparisons of magnitudes order it rightly. -/
def F32.unitsOfMag (m : Nat) : Nat :=
  if m / 2 ^ 23 = 0 then m % 2 ^ 23 else (2 ^ 23 + m % 2 ^ 23) * 2 ^ (m / 2 ^ 23 - 1)

/-- The value of a binary32 that is not a NaN, in units of 2^-149. -/
def F32.units (x : F32) : Int :=
  if x.sign then -(F32.unitsOfMag x.mag : Int) else (F32.unitsOfMag x.mag : Int)

/-- The binary32 with this sign and this encoding without sign. -/
def F32.ofSignMag (s : Bool) (m : Nat) : F32 := ⟨BitVec.ofNat 32 ((if s then 2 ^ 31 else 0) + m)⟩

/-- The encoding (without sign) of the nearest binary32 to `num / den` units of 2^-149, ties to even, infinity on
overflow (R9). `q` is the whole number of units; when it has more than 24 bits the result keeps the upper 24, `sh`
is the number of bits dropped and `den * 2 ^ sh` the new quantum. Encodings are contiguous: `sh * 2 ^ 23 + m` is the
encoding of `m * 2 ^ sh` units, also when `m` is rounded up to 2^24 and, with `sh = 0`, for subnormals. -/
def F32.roundMag (num den : Nat) : Nat :=
  let q := num / den
  let sh := q.log2 + 1 - 24
  let quantum := den * 2 ^ sh
  let m := num / quantum
  let r := num % quantum
  let up := decide (quantum < 2 * r) || (decide (2 * r = quantum) && decide (m % 2 = 1))
  min (sh * 2 ^ 23 + (if up then m + 1 else m)) F32.infMag

/-- `num / den` units of 2^-149 with a sign, rounded to nearest, ties to even. -/
def F32.round (s : Bool) (num den : Nat) : F32 := F32.ofSignMag s (F32.roundMag num den)

/-- The quiet NaN an operation on `x` and `y` gives; sign and payload are free (log entry 8). -/
def F32.nanOf (x y : F32) : F32 :=
  let free := Config.freeNaN x y
  ⟨(free.extractLsb' 22 1) ++ (0x1FF : BitVec 9) ++ (free.extractLsb' 0 22)⟩

/-- `0.0` with a sign. -/
def F32.zero (s : Bool) : F32 := F32.ofSignMag s 0

/-- Infinity with a sign. -/
def F32.inf (s : Bool) : F32 := F32.ofSignMag s F32.infMag

/-- Sign change (a bit operation). -/
def F32.neg (x : F32) : F32 := ⟨x.bits ^^^ 0x80000000#32⟩

/-- `abs(x)` clears the sign bit (R9). -/
def F32.fabs (x : F32) : F32 := ⟨x.bits &&& 0x7FFFFFFF#32⟩

/-- An exact sum of finite values, rounded once. An exact zero sum is +0.0 unless both operands are -0.0
(IEEE 754, round to nearest). -/
def F32.addFinite (x y : F32) : F32 :=
  let z := x.units + y.units
  if z = 0 then F32.zero (x.sign && y.sign)
  else F32.round (decide (z < 0)) z.natAbs 1

/-- Binary32 addition (R9). -/
def F32.add (x y : F32) : F32 :=
  if x.isNaN || y.isNaN then F32.nanOf x y
  else if x.isInf then (if y.isInf && (x.sign != y.sign) then F32.nanOf x y else x)
  else if y.isInf then y
  else F32.addFinite x y

/-- Binary32 subtraction (R9): `x + (-y)`. -/
def F32.sub (x y : F32) : F32 := F32.add x y.neg

/-- Binary32 multiplication (R9). -/
def F32.mul (x y : F32) : F32 :=
  let s := x.sign != y.sign
  if x.isNaN || y.isNaN then F32.nanOf x y
  else if x.isInf then (if y.isZero then F32.nanOf x y else F32.inf s)
  else if y.isInf then (if x.isZero then F32.nanOf x y else F32.inf s)
  else F32.round s (x.units.natAbs * y.units.natAbs) F32.one149

/-- Binary32 division (R9). -/
def F32.div (x y : F32) : F32 :=
  let s := x.sign != y.sign
  if x.isNaN || y.isNaN then F32.nanOf x y
  else if x.isInf then (if y.isInf then F32.nanOf x y else F32.inf s)
  else if y.isInf then F32.zero s
  else if y.isZero then (if x.isZero then F32.nanOf x y else F32.inf s)
  else F32.round s (x.units.natAbs * F32.one149) y.units.natAbs

/-- IEEE `x < y`: false when an operand is a NaN; zeros of either sign are equal (R8). -/
def F32.lt (x y : F32) : Bool := !x.isNaN && !y.isNaN && decide (x.units < y.units)

/-- IEEE `x <= y` (R8). -/
def F32.le (x y : F32) : Bool := !x.isNaN && !y.isNaN && decide (x.units ≤ y.units)

/-- IEEE `x = y` (R8). -/
def F32.eq (x y : F32) : Bool := !x.isNaN && !y.isNaN && decide (x.units = y.units)

/-- `min(a, b) = if b < a then b else a` (R12). -/
def F32.fmin (a b : F32) : F32 := if F32.lt b a then b else a

/-- `max(a, b) = if b > a then b else a` (R12). -/
def F32.fmax (a b : F32) : F32 := if F32.lt a b then b else a

/-- `clamp(x, lo, hi)` (R12). -/
def F32.clamp (x lo hi : F32) : F32 := if F32.lt x lo then lo else if F32.lt hi x then hi else x

/-- `floor(x)`: the greatest integer at or below a finite `x` (R12; on NaN and infinity see log entry 13). -/
def F32.floor (x : F32) : Int := x.units / (F32.one149 : Int)

/-- `rne(x)`: a finite `x` rounded to the nearest integer, ties to the even integer (R12; log entry 13). -/
def F32.rne (x : F32) : Int :=
  let q := x.units / (F32.one149 : Int)
  let r := x.units % (F32.one149 : Int)
  if (F32.one149 : Int) < 2 * r then q + 1
  else if 2 * r = (F32.one149 : Int) then (if q % 2 = 0 then q else q + 1)
  else q

/-- `i2f(n)`: the binary32 equal to `n`, exact for `|n| < 2^24` (R12); beyond that the nearest (log entry 13). -/
def F32.ofInt (n : Int) : F32 := F32.round (decide (n < 0)) (n.natAbs * F32.one149) 1

/-- The binary32 equal to 2^e for -149 <= e <= 127. -/
def F32.pow2 (e : Int) : F32 := F32.round false (2 ^ (e + 149).toNat) 1

end Sys2Proof
end

