-- ==== Sys2Proof/Machine/Params.lean ====
section
/-! DEFINITION. The parameter register file: which ids are defined, with their kind, clamp bounds and reset value
(10_state.md R40, R41; 20_memory.md R81). The table of R40 has 48 rows (log entry 10). -/

namespace Sys2Proof.Machine

/-- The defined parameter registers (10_state.md R40), in id order. -/
inductive Param
  /-- 0x00 `MASTER_VOLUME` -/
  | masterVolume
  /-- 0x01 `MASTER_TUNE` -/
  | masterTune
  /-- 0x02 `TRANSPOSE` -/
  | transpose
  /-- 0x03 `VOICE_COUNT` -/
  | voiceCount
  /-- 0x04 `UNISON_COUNT` -/
  | unisonCount
  /-- 0x05 `UNISON_DETUNE` -/
  | unisonDetune
  /-- 0x06 `PORTAMENTO` -/
  | portamento
  /-- 0x07 `LEGATO` -/
  | legato
  /-- 0x08 `BEND_RANGE` -/
  | bendRange
  /-- 0x09 `TEMPO` -/
  | tempo
  /-- 0x0A `OSC_RESET` -/
  | oscReset
  /-- 0x10 `OSC1_WAVE` -/
  | osc1Wave
  /-- 0x11 `OSC2_WAVE` -/
  | osc2Wave
  /-- 0x12 `OSC1_PW` -/
  | osc1Pw
  /-- 0x13 `OSC2_PW` -/
  | osc2Pw
  /-- 0x14 `OSC1_LEVEL` -/
  | osc1Level
  /-- 0x15 `OSC2_LEVEL` -/
  | osc2Level
  /-- 0x16 `NOISE_LEVEL` -/
  | noiseLevel
  /-- 0x17 `OSC1_PITCH` -/
  | osc1Pitch
  /-- 0x18 `OSC2_PITCH` -/
  | osc2Pitch
  /-- 0x19 `OSC2_DETUNE` -/
  | osc2Detune
  /-- 0x1A `OSC2_KEYTRACK` -/
  | osc2Keytrack
  /-- 0x1B `OSC_SYNC` -/
  | oscSync
  /-- 0x1C `ENV_PITCH_AMT` -/
  | envPitchAmt
  /-- 0x20 `CUTOFF` -/
  | cutoff
  /-- 0x21 `RESONANCE` -/
  | resonance
  /-- 0x22 `FILTER_ENV_AMT` -/
  | filterEnvAmt
  /-- 0x23 `KEY_FOLLOW` -/
  | keyFollow
  /-- 0x24 `FILTER_MODE` -/
  | filterMode
  /-- 0x25 `SELF_OSC` -/
  | selfOsc
  /-- 0x30 `AMP_ATTACK` -/
  | ampAttack
  /-- 0x31 `AMP_DECAY` -/
  | ampDecay
  /-- 0x32 `AMP_SUSTAIN` -/
  | ampSustain
  /-- 0x33 `AMP_RELEASE` -/
  | ampRelease
  /-- 0x34 `AMP_VEL_AMT` -/
  | ampVelAmt
  /-- 0x38 `FLT_ATTACK` -/
  | fltAttack
  /-- 0x39 `FLT_DECAY` -/
  | fltDecay
  /-- 0x3A `FLT_SUSTAIN` -/
  | fltSustain
  /-- 0x3B `FLT_RELEASE` -/
  | fltRelease
  /-- 0x3C `FLT_VEL_AMT` -/
  | fltVelAmt
  /-- 0x40 `LFO_RATE` -/
  | lfoRate
  /-- 0x41 `LFO_WAVE` -/
  | lfoWave
  /-- 0x42 `LFO_SYNC` -/
  | lfoSync
  /-- 0x43 `LFO_DEPTH` -/
  | lfoDepth
  /-- 0x44 `LFO_DEST_OSC1` -/
  | lfoDestOsc1
  /-- 0x45 `LFO_DEST_OSC2` -/
  | lfoDestOsc2
  /-- 0x46 `LFO_DEST_FILTER` -/
  | lfoDestFilter
  /-- 0x47 `LFO_DEST_PW` -/
  | lfoDestPw
  deriving DecidableEq, Repr

/-- Kind `C` (continuous) or `D` (discrete) of a parameter (R40). -/
inductive ParamKind
  | continuous
  | discrete
  deriving DecidableEq, Repr

/-- One row of the table of R40. -/
structure ParamRow where
  /-- The id `SET_PARAM` and `GET_PARAM` name it by. -/
  id : Nat
  /-- Continuous or discrete. -/
  kind : ParamKind
  /-- Lower clamp bound. -/
  lo : F32
  /-- Upper clamp bound. -/
  hi : F32
  /-- Value after reset. -/
  reset : F32
  deriving DecidableEq, Repr

/-- The table of R40, for a pool of `P` voices. -/
def paramRow (P : Nat) : Param → ParamRow
  | .masterVolume => ⟨0x00, .continuous, c0, c1, cHalf⟩
  | .masterTune => ⟨0x01, .continuous, cNeg1, c1, c0⟩
  | .transpose => ⟨0x02, .discrete, cNeg24, c24, c0⟩
  | .voiceCount => ⟨0x03, .discrete, c1, (F32.ofInt P), (F32.ofInt P)⟩
  | .unisonCount => ⟨0x04, .discrete, c1, (F32.ofInt P), c1⟩
  | .unisonDetune => ⟨0x05, .continuous, c0, c1, c0⟩
  | .portamento => ⟨0x06, .continuous, c0, c1, c0⟩
  | .legato => ⟨0x07, .discrete, c0, c1, c0⟩
  | .bendRange => ⟨0x08, .discrete, c0, c24, c2⟩
  | .tempo => ⟨0x09, .continuous, c20, c300, c120⟩
  | .oscReset => ⟨0x0A, .discrete, c0, c1, c0⟩
  | .osc1Wave => ⟨0x10, .discrete, c0, c2, c0⟩
  | .osc2Wave => ⟨0x11, .discrete, c0, c2, c0⟩
  | .osc1Pw => ⟨0x12, .continuous, cPwMin, cPwMax, cHalf⟩
  | .osc2Pw => ⟨0x13, .continuous, cPwMin, cPwMax, cHalf⟩
  | .osc1Level => ⟨0x14, .continuous, c0, c1, c1⟩
  | .osc2Level => ⟨0x15, .continuous, c0, c1, c1⟩
  | .noiseLevel => ⟨0x16, .continuous, c0, c1, c0⟩
  | .osc1Pitch => ⟨0x17, .continuous, cNeg24, c24, c0⟩
  | .osc2Pitch => ⟨0x18, .continuous, cNeg24, c24, c0⟩
  | .osc2Detune => ⟨0x19, .continuous, cNeg1, c1, c0⟩
  | .osc2Keytrack => ⟨0x1A, .discrete, c0, c1, c1⟩
  | .oscSync => ⟨0x1B, .discrete, c0, c1, c0⟩
  | .envPitchAmt => ⟨0x1C, .continuous, c0, c1, c0⟩
  | .cutoff => ⟨0x20, .continuous, c0, c1, cReset0_7⟩
  | .resonance => ⟨0x21, .continuous, c0, c1, cReset0_2⟩
  | .filterEnvAmt => ⟨0x22, .continuous, cNeg1, c1, c0⟩
  | .keyFollow => ⟨0x23, .continuous, c0, c1, c0⟩
  | .filterMode => ⟨0x24, .discrete, c0, c5, c0⟩
  | .selfOsc => ⟨0x25, .discrete, c0, c1, c0⟩
  | .ampAttack => ⟨0x30, .continuous, c0, c1, cQuarter⟩
  | .ampDecay => ⟨0x31, .continuous, c0, c1, cHalf⟩
  | .ampSustain => ⟨0x32, .continuous, c0, c1, cReset0_7⟩
  | .ampRelease => ⟨0x33, .continuous, c0, c1, cHalf⟩
  | .ampVelAmt => ⟨0x34, .continuous, c0, c1, c0⟩
  | .fltAttack => ⟨0x38, .continuous, c0, c1, cQuarter⟩
  | .fltDecay => ⟨0x39, .continuous, c0, c1, cHalf⟩
  | .fltSustain => ⟨0x3A, .continuous, c0, c1, cReset0_7⟩
  | .fltRelease => ⟨0x3B, .continuous, c0, c1, cHalf⟩
  | .fltVelAmt => ⟨0x3C, .continuous, c0, c1, c0⟩
  | .lfoRate => ⟨0x40, .continuous, c0, c1, cHalf⟩
  | .lfoWave => ⟨0x41, .discrete, c0, c2, c0⟩
  | .lfoSync => ⟨0x42, .discrete, c0, c1, c0⟩
  | .lfoDepth => ⟨0x43, .continuous, c0, c1, c0⟩
  | .lfoDestOsc1 => ⟨0x44, .discrete, c0, c1, c0⟩
  | .lfoDestOsc2 => ⟨0x45, .discrete, c0, c1, c0⟩
  | .lfoDestFilter => ⟨0x46, .discrete, c0, c1, c0⟩
  | .lfoDestPw => ⟨0x47, .discrete, c0, c1, c0⟩


/-- The place of a parameter in the register file. -/
def Param.idx : Param → Fin 48
  | .masterVolume => 0
  | .masterTune => 1
  | .transpose => 2
  | .voiceCount => 3
  | .unisonCount => 4
  | .unisonDetune => 5
  | .portamento => 6
  | .legato => 7
  | .bendRange => 8
  | .tempo => 9
  | .oscReset => 10
  | .osc1Wave => 11
  | .osc2Wave => 12
  | .osc1Pw => 13
  | .osc2Pw => 14
  | .osc1Level => 15
  | .osc2Level => 16
  | .noiseLevel => 17
  | .osc1Pitch => 18
  | .osc2Pitch => 19
  | .osc2Detune => 20
  | .osc2Keytrack => 21
  | .oscSync => 22
  | .envPitchAmt => 23
  | .cutoff => 24
  | .resonance => 25
  | .filterEnvAmt => 26
  | .keyFollow => 27
  | .filterMode => 28
  | .selfOsc => 29
  | .ampAttack => 30
  | .ampDecay => 31
  | .ampSustain => 32
  | .ampRelease => 33
  | .ampVelAmt => 34
  | .fltAttack => 35
  | .fltDecay => 36
  | .fltSustain => 37
  | .fltRelease => 38
  | .fltVelAmt => 39
  | .lfoRate => 40
  | .lfoWave => 41
  | .lfoSync => 42
  | .lfoDepth => 43
  | .lfoDestOsc1 => 44
  | .lfoDestOsc2 => 45
  | .lfoDestFilter => 46
  | .lfoDestPw => 47

/-- The parameter register an id names, if it is defined (R40, R41). -/
def paramOfId (id : Nat) : Option Param :=
  match id with
  | 0x00 => some .masterVolume
  | 0x01 => some .masterTune
  | 0x02 => some .transpose
  | 0x03 => some .voiceCount
  | 0x04 => some .unisonCount
  | 0x05 => some .unisonDetune
  | 0x06 => some .portamento
  | 0x07 => some .legato
  | 0x08 => some .bendRange
  | 0x09 => some .tempo
  | 0x0A => some .oscReset
  | 0x10 => some .osc1Wave
  | 0x11 => some .osc2Wave
  | 0x12 => some .osc1Pw
  | 0x13 => some .osc2Pw
  | 0x14 => some .osc1Level
  | 0x15 => some .osc2Level
  | 0x16 => some .noiseLevel
  | 0x17 => some .osc1Pitch
  | 0x18 => some .osc2Pitch
  | 0x19 => some .osc2Detune
  | 0x1A => some .osc2Keytrack
  | 0x1B => some .oscSync
  | 0x1C => some .envPitchAmt
  | 0x20 => some .cutoff
  | 0x21 => some .resonance
  | 0x22 => some .filterEnvAmt
  | 0x23 => some .keyFollow
  | 0x24 => some .filterMode
  | 0x25 => some .selfOsc
  | 0x30 => some .ampAttack
  | 0x31 => some .ampDecay
  | 0x32 => some .ampSustain
  | 0x33 => some .ampRelease
  | 0x34 => some .ampVelAmt
  | 0x38 => some .fltAttack
  | 0x39 => some .fltDecay
  | 0x3A => some .fltSustain
  | 0x3B => some .fltRelease
  | 0x3C => some .fltVelAmt
  | 0x40 => some .lfoRate
  | 0x41 => some .lfoWave
  | 0x42 => some .lfoSync
  | 0x43 => some .lfoDepth
  | 0x44 => some .lfoDestOsc1
  | 0x45 => some .lfoDestOsc2
  | 0x46 => some .lfoDestFilter
  | 0x47 => some .lfoDestPw
  | _ => none

/-- Every parameter, in id order. -/
def allParams : List Param :=
  [.masterVolume, .masterTune, .transpose, .voiceCount, .unisonCount, .unisonDetune,
   .portamento, .legato, .bendRange, .tempo, .oscReset, .osc1Wave,
   .osc2Wave, .osc1Pw, .osc2Pw, .osc1Level, .osc2Level, .noiseLevel,
   .osc1Pitch, .osc2Pitch, .osc2Detune, .osc2Keytrack, .oscSync, .envPitchAmt,
   .cutoff, .resonance, .filterEnvAmt, .keyFollow, .filterMode, .selfOsc,
   .ampAttack, .ampDecay, .ampSustain, .ampRelease, .ampVelAmt, .fltAttack,
   .fltDecay, .fltSustain, .fltRelease, .fltVelAmt, .lfoRate, .lfoWave,
   .lfoSync, .lfoDepth, .lfoDestOsc1, .lfoDestOsc2, .lfoDestFilter, .lfoDestPw]

/-- The register file after reset (70_reset_and_hazards.md R392). -/
def resetParams (P : Nat) : Vector F32 48 :=
  Vector.ofFn fun k => ((allParams.map fun p => (paramRow P p).reset).getD k.val c0)

end Sys2Proof.Machine
end

