-- ==== Sys2Proof/Syntax.lean ====
section
/-! DEFINITION. The commands of OBXD-CORE: one constructor per row of spec/opcode_table.json
(30_encoding.md R104). Operands are the decoded fields of R101 to R103. -/

namespace Sys2Proof

/-- A decoded command (30_encoding.md R100 to R104). Integer operands are plain integers, as the rules read them;
`Instr.wellFormed` says which values the fields of a command can hold. -/
inductive Instr
  /-- 0x00 `NOP` (46_control.md R340). -/
  | nop
  /-- 0x01 `NOTE_ON key, vel` (44_voice_manager.md R270). -/
  | noteOn (key : Int) (x : F32)
  /-- 0x02 `NOTE_OFF key` (44_voice_manager.md R276). -/
  | noteOff (key : Int)
  /-- 0x03 `ALL_NOTES_OFF` (44_voice_manager.md R278). -/
  | allNotesOff
  /-- 0x04 `ALL_SOUND_OFF` (44_voice_manager.md R279). -/
  | allSoundOff
  /-- 0x05 `SUSTAIN down` (44_voice_manager.md R277). -/
  | sustain (down : Bool)
  /-- 0x06 `PITCH_BEND x` (46_control.md R345). -/
  | pitchBend (x : F32)
  /-- 0x07 `MOD_WHEEL x` (46_control.md R346). -/
  | modWheel (x : F32)
  /-- 0x08 `SET_PARAM id, x` (46_control.md R342). -/
  | setParam (id : Nat) (x : F32)
  /-- 0x09 `GET_PARAM id` (46_control.md R344). -/
  | getParam (id : Nat)
  /-- 0x0A `SET_SAMPLE_RATE x` (46_control.md R347). -/
  | setSampleRate (x : F32)
  /-- 0x0B `RENDER frames` (45_render_mixer.md R310). -/
  | render (frames : Nat)
  /-- `RESERVED` row 0x0C/0xFC: opcodes 0x0C..0x0F (46_control.md R348). -/
  | reserved0C (op : Nat)
  /-- `RESERVED` row 0x10/0xF0: opcodes 0x10..0x1F. -/
  | reserved10 (op : Nat)
  /-- `RESERVED` row 0x20/0xE0: opcodes 0x20..0x3F. -/
  | reserved20 (op : Nat)
  /-- `RESERVED` row 0x40/0xC0: opcodes 0x40..0x7F. -/
  | reserved40 (op : Nat)
  /-- `RESERVED` row 0x80/0x80: opcodes 0x80..0xFF. -/
  | reserved80 (op : Nat)
  deriving DecidableEq, Repr

end Sys2Proof
end

