-- ==== Sys2Proof/Machine/State.lean ====
section
/-! DEFINITION. The architectural state of one OBXD-CORE instance (10_state.md), as plain data, with its reset value
(70_reset_and_hazards.md R390 to R392). -/

namespace Sys2Proof.Machine

/-- Envelope stages (41_envelope.md R170, 10_state.md R54). -/
inductive Stage
  | idle
  | attack
  | decay
  | sustain
  | release
  deriving DecidableEq, Repr

/-- Key state of a voice (10_state.md R50, R54). -/
inductive Gate
  | released
  | held
  | sustained
  deriving DecidableEq, Repr

/-- One envelope generator: `e.stage`, `e.level` (10_state.md R50). -/
structure EnvState where
  stage : Stage
  level : F32
  deriving DecidableEq, Repr

/-- One oscillator: phase accumulator and the pending sample of the BLEP ring buffer (10_state.md R50,
40_oscillator.md R137). -/
structure OscState where
  phase : F32
  pend : F32
  deriving DecidableEq, Repr

/-- One LFO: phase and sample-and-hold value (10_state.md R35, R50). -/
structure LfoState where
  phase : F32
  sh : F32
  deriving DecidableEq, Repr

/-- One state-variable stage: its two integrator states (10_state.md R50, 42_filter.md R206). -/
structure SvfState where
  ic1 : F32
  ic2 : F32
  deriving DecidableEq, Repr

/-- A voice's filter: two stages (10_state.md R50). -/
structure FilterState where
  s1 : SvfState
  s2 : SvfState
  deriving DecidableEq, Repr

/-- One voice of the pool (10_state.md R50). -/
structure Voice where
  /-- Triggered since reset or ALL_SOUND_OFF. -/
  assigned : Bool
  /-- Raw key of the last trigger. -/
  key : Int
  /-- Effective note of the last trigger. -/
  note : Int
  /-- Velocity of the last trigger. -/
  vel : F32
  gate : Gate
  /-- `AGE` at the last trigger. -/
  age : Word
  /-- Unison copy index of the last trigger. -/
  copy : Nat
  /-- Unison copy count of the last trigger. -/
  uniN : Nat
  /-- Current glide pitch, in semitones. -/
  gp : F32
  /-- Glide start pitch. -/
  gfrom : F32
  /-- Glide target pitch. -/
  gto : F32
  /-- Ticks of the current glide run so far. -/
  gn : Nat
  /-- `gp` holds a pitch. -/
  gvalid : Bool
  /-- Amplitude envelope. -/
  amp : EnvState
  /-- Filter envelope. -/
  flt : EnvState
  osc1 : OscState
  osc2 : OscState
  lfo : LfoState
  filt : FilterState
  deriving DecidableEq, Repr

/-- Voice reset: every field at its reset value (10_state.md R50, R52). -/
def Voice.reset : Voice where
  assigned := false
  key := 0
  note := 0
  vel := c0
  gate := .released
  age := 0#32
  copy := 0
  uniN := 1
  gp := c0
  gfrom := c0
  gto := c0
  gn := 0
  gvalid := false
  amp := ⟨.idle, c0⟩
  flt := ⟨.idle, c0⟩
  osc1 := ⟨c0, c0⟩
  osc2 := ⟨c0, c0⟩
  lfo := ⟨c0, c0⟩
  filt := ⟨⟨c0, c0⟩, ⟨c0, c0⟩⟩

/-- One sample of the output stream (10_state.md R33). -/
inductive Sample
  /-- 16-bit two's complement (`OUT_FMT = S16`). -/
  | s16 (v : BitVec 16)
  /-- binary32 (`OUT_FMT = F32`). -/
  | f32 (x : F32)
  deriving DecidableEq, Repr

/-- What the host does at the block's interfaces, in its order (10_state.md R30, R31; log entries 1 to 3). Not state of the
block: the host's side, as data. -/
inductive HostEvent
  /-- One 64-bit transfer on `CMD`. -/
  | command (w0 w1 : Word)
  /-- `RESET` asserted. -/
  | reset
  /-- From now on the host will consume `n` more frames (`some n`), or every frame it is offered (`none`). -/
  | takes (n : Option Nat)
  deriving DecidableEq, Repr

/-- The state of one instance. Its name, width, rule and reset value stand for every field in INVENTORY.md. -/
structure State where
  /-- Construction parameters (00_scope.md R6). -/
  cfg : Construction
  /-- Sample rate, Hz. -/
  fs : F32
  /-- Sustain pedal down. -/
  pedal : Bool
  /-- Pitch bend. -/
  bend : F32
  /-- Mod wheel. -/
  wheel : F32
  /-- Noise generator. -/
  rng : Word
  /-- NOTE_ON counter. -/
  age : Word
  /-- Result of GET_PARAM. -/
  rdata : Word
  /-- Global LFO `GLFO`. -/
  glfo : LfoState
  /-- Ticks still to run in the current RENDER. -/
  remain : BitVec 16
  /-- Parameter register file, by `Param.idx`. -/
  params : Vector F32 48
  /-- Voice pool, by voice index. -/
  voices : List Voice
  /-- Output stream `OUT`, oldest sample first. -/
  out : List Sample
  /-- Samples appended before the last RESET, which stay for the host (70_reset_and_hazards.md R390; log entry 4). -/
  outKept : List Sample
  /-- MODEL's own: what the host will do next (log entry 1). -/
  host : List HostEvent
  /-- MODEL's own: how many more frames the host will consume; `none` is no limit (log entry 2). -/
  hostTakes : Option Nat
  deriving DecidableEq, Repr

/-- Faults: none. The block raises no exception, takes no trap and reports no error (60_exceptions.md R370), so no
constructor exists and no step can end in a fault. -/
inductive Fault
  deriving DecidableEq, Repr

/-- Refusals. Every 64-bit pattern decodes and executes to completion (60_exceptions.md R370). -/
inductive Refusal
  /-- An instruction without a meaning, by its mnemonic; raised by no arm of `exec`. Safe: the machine would stop. -/
  | notModelled (mnemonic : String)
  deriving DecidableEq, Repr

/-- A newly constructed instance (70_reset_and_hazards.md R390 to R392), with the host's side given. -/
def State.construct (c : Construction) (host : List HostEvent) (hostTakes : Option Nat) : State where
  cfg := c
  fs := c.fs0
  pedal := false
  bend := c0
  wheel := c0
  rng := c.seed0
  age := 0#32
  rdata := 0#32
  glfo := ⟨c0, c0⟩
  remain := 0#16
  params := resetParams c.poolSize
  voices := List.replicate c.poolSize Voice.reset
  out := []
  outKept := []
  host := host
  hostTakes := hostTakes

/-- The machine right after reset, for the reference construction parameters (R391; log entry 5); no command is waiting
(70_reset_and_hazards.md R393) and the host consumes every sample it is offered (R400). -/
def State.reset : State := State.construct Construction.reference [] none

end Sys2Proof.Machine
end

