-- ==== Sys2Proof/Machine/Transcendental.lean ====
section
/-! DEFINITION. The transcendental primitives `exp2f`, `tanf`, `sinf` (00_scope.md R10): the reference definition, "the
exact real value rounded to the nearest binary32, ties to even", by enclosing the real value between two rationals and
rounding both; and the choice of a library by `TransLib` (00_scope.md R6). All arithmetic is on natural numbers in fixed
point with `p` fraction bits, rounded outwards (log entry 6). -/

namespace Sys2Proof

/-- `ln 2` in units of 2^-544, rounded down. -/
def F32.ln2Units : Nat :=
  0xb17217f7d1cf79abc9e3b39803f2f6af40f343267298b62d8a0d175b8baafa2be7b876206debac98559552fb4afa1b10ed2eae35c138214427573b291169b8253e96ca16

/-- `pi / 2` in units of 2^-544, rounded down. -/
def F32.halfPiUnits : Nat :=
  0x1921fb54442d18469898cc51701b839a252049c1114cf98e804177d4c76273644a29410f31c6809bbdf2a33679a748636605614dbe4be286e9fc26adadaa3848bc90b6aec

/-- Fraction bits of the constants above. -/
def F32.constBits : Nat := 544

/-- A lower bound of `1 + y/1 (1 + y/2 (... (1 + y/k acc)))`, `y` and `acc` with `p` fraction bits. -/
def F32.expSeriesLo (p y : Nat) : Nat → Nat → Nat
  | 0, acc => acc
  | k + 1, acc => F32.expSeriesLo p y k (2 ^ p + y * acc / ((k + 1) * 2 ^ p))

/-- An upper bound of the same expression. -/
def F32.expSeriesHi (p y : Nat) : Nat → Nat → Nat
  | 0, acc => acc
  | k + 1, acc => F32.expSeriesHi p y k (2 ^ p + (y * acc / ((k + 1) * 2 ^ p) + 1))

/-- Bounds of `2 ^ f`, with `p` fraction bits, for the fraction `f = fr * 2^-149` in [0, 1): the exponential series of
`f * ln 2` to `terms` terms, its tail taken between 1 and 2. -/
def F32.exp2Bounds (p terms fr : Nat) : Nat × Nat :=
  let yLo := fr * F32.ln2Units / 2 ^ (149 + F32.constBits - p)
  let yHi := fr * (F32.ln2Units + 1) / 2 ^ (149 + F32.constBits - p) + 1
  (min (F32.expSeriesLo p yLo terms (2 ^ p)) (2 ^ (p + 1)), min (F32.expSeriesHi p yHi terms (2 ^ (p + 1))) (2 ^ (p + 1)))

/-- The two ends of an enclosure of `2 ^ (n + f)`, each rounded to the nearest binary32 (`e = n + 150`). -/
def F32.exp2Ends (p terms e fr : Nat) : F32 × F32 :=
  let b := F32.exp2Bounds p terms fr
  (F32.round false (b.1 * 2 ^ e) (2 ^ (p + 1)), F32.round false (b.2 * 2 ^ e) (2 ^ (p + 1)))

/-- The common value of the two ends where they agree, else what a finer enclosure gives. -/
def F32.agreeOr (ends : F32 × F32) (finer : F32) : F32 := if ends.1 = ends.2 then ends.1 else finer

/-- Reference `exp2f` (R10). At or below -150 the value is at most half the smallest subnormal, so it rounds to +0.0; at
or above 128 it overflows; integers are exact; else the enclosures decide (log entry 6). -/
def F32.exp2Ref (x : F32) : F32 :=
  if x.isNaN then F32.nanOf x x
  else if x.units ≤ -150 * (F32.one149 : Int) then F32.zero false
  else if 128 * (F32.one149 : Int) ≤ x.units then F32.inf false
  else
    let e := (x.floor + 150).toNat
    let fr := (x.units % (F32.one149 : Int)).toNat
    if fr = 0 then F32.round false (2 ^ e) 2
    else F32.agreeOr (F32.exp2Ends 128 34 e fr) (F32.exp2Ends 400 84 e fr).1

/-- Bounds, with `p` fraction bits, of the alternating series `1 - y²/(2·(2+o)) (1 - y²/(4·(4+o)) (...))` for `y²` between
`y2Lo` and `y2Hi` (2p fraction bits), started from `acc` at depth `k`. `odd = true` is the series of `sin y / y` (`o = 1`),
`odd = false` that of `cos y` (`o = -1`). -/
def F32.altSeries (p y2Lo y2Hi : Nat) (odd : Bool) : Nat → Nat × Nat → Nat × Nat
  | 0, acc => acc
  | k + 1, acc =>
    let d := (2 * k + 2) * (if odd then 2 * k + 3 else 2 * k + 1) * 2 ^ (2 * p)
    F32.altSeries p y2Lo y2Hi odd k (2 ^ p - (y2Hi * acc.2 / d + 1), 2 ^ p - y2Lo * acc.1 / d)

/-- An argument `|x|` (in units of 2^-149) reduced by multiples of pi/2: the quadrant, and bounds of the remainder in
[0, pi/2) with `p` fraction bits. -/
def F32.reduceHalfPi (p u : Nat) : Nat × Nat × Nat :=
  let v := u * 2 ^ (F32.constBits - 149)
  let k := v / (F32.halfPiUnits + 1)
  (k % 4, (v - k * (F32.halfPiUnits + 1)) / 2 ^ (F32.constBits - p),
    (v - k * F32.halfPiUnits) / 2 ^ (F32.constBits - p) + 1)

/-- Bounds of `sin y` for `y` in [0, pi/2) between `yLo` and `yHi`, `p` fraction bits. -/
def F32.sinBounds (p terms yLo yHi : Nat) : Nat × Nat :=
  let s := F32.altSeries p (yLo * yLo) (yHi * yHi) true terms (0, 2 ^ p)
  (min (yLo * s.1 / 2 ^ p) (2 ^ p), min (yHi * s.2 / 2 ^ p + 1) (2 ^ p))

/-- Bounds of `cos y` for `y` in [0, pi/2) between `yLo` and `yHi`, `p` fraction bits. -/
def F32.cosBounds (p terms yLo yHi : Nat) : Nat × Nat :=
  F32.altSeries p (yLo * yLo) (yHi * yHi) false terms (0, 2 ^ p)

/-- The two ends of an enclosure of `sin x` for `x > 0` given in units of 2^-149, each rounded; `neg` flips the sign. -/
def F32.sinEnds (p terms u : Nat) (neg : Bool) : F32 × F32 :=
  let r := F32.reduceHalfPi p u
  let b := if r.1 % 2 = 0 then F32.sinBounds p terms r.2.1 r.2.2 else F32.cosBounds p terms r.2.1 r.2.2
  let s := neg != decide (2 ≤ r.1)
  (F32.round s (b.1 * F32.one149) (2 ^ p), F32.round s (b.2 * F32.one149) (2 ^ p))

/-- The two ends of an enclosure of `tan x` for `x > 0` given in units of 2^-149, each rounded; `neg` flips the sign. -/
def F32.tanEnds (p terms u : Nat) (neg : Bool) : F32 × F32 :=
  let r := F32.reduceHalfPi p u
  let sb := F32.sinBounds p terms r.2.1 r.2.2
  let cb := F32.cosBounds p terms r.2.1 r.2.2
  if r.1 % 2 = 0 then
    (F32.round neg (sb.1 * F32.one149) cb.2, F32.round neg (sb.2 * F32.one149) cb.1)
  else
    (F32.round (!neg) (cb.1 * F32.one149) sb.2, F32.round (!neg) (cb.2 * F32.one149) sb.1)

/-- 2^-13 in units of 2^-149: below it `x` itself is the binary32 nearest to `sin x` and to `tan x`, since the relative
distance is below x²/2, less than a quarter unit in the last place. -/
def F32.tinyAngle : Nat := 2 ^ 136

/-- Reference `sinf` (R10). The exact value at a zero is 0, which has two encodings and R10 names neither: the argument is
returned, so -0.0 gives -0.0 (PRESUMED, log entry 6). -/
def F32.sinRef (x : F32) : F32 :=
  if x.isNaN || x.isInf then F32.nanOf x x
  else
    let u := x.units.natAbs
    if u < F32.tinyAngle then x
    else F32.agreeOr (F32.sinEnds 128 22 u x.sign) (F32.sinEnds 400 48 u x.sign).1

/-- Reference `tanf` (R10). At a zero the argument is returned, so -0.0 gives -0.0, as for `sinRef` (PRESUMED, log
entry 6). -/
def F32.tanRef (x : F32) : F32 :=
  if x.isNaN || x.isInf then F32.nanOf x x
  else
    let u := x.units.natAbs
    if u < F32.tinyAngle then x
    else F32.agreeOr (F32.tanEnds 128 22 u x.sign) (F32.tanEnds 400 48 u x.sign).1

/-- `exp2f` of the instance's library (00_scope.md R6). -/
def TransLib.exp2 : TransLib → F32 → F32
  | .correctlyRounded, x => F32.exp2Ref x
  | .other n, x => Config.otherExp2 n x

/-- `tanf` of the instance's library (00_scope.md R6). -/
def TransLib.tan : TransLib → F32 → F32
  | .correctlyRounded, x => F32.tanRef x
  | .other n, x => Config.otherTan n x

/-- `sinf` of the instance's library (00_scope.md R6). -/
def TransLib.sin : TransLib → F32 → F32
  | .correctlyRounded, x => F32.sinRef x
  | .other n, x => Config.otherSin n x

end Sys2Proof
end

