-- ==== Sys2Proof/Machine/Ops.lean ====
section
/-! DEFINITION. The named operations over the register files: reading and writing a parameter register, the voice pool, the
output stream, and reset (10_state.md, 70_reset_and_hazards.md). There is no exception entry and no exception return: the
block has neither (60_exceptions.md R370, R373). -/

namespace Sys2Proof.Machine

/-- `P[id]` (00_scope.md R8, 10_state.md R40). -/
def State.param (s : State) (p : Param) : F32 := s.params[p.idx]

/-- `P[id] <- v`. -/
def State.setParamReg (s : State) (p : Param) (v : F32) : State := { s with params := s.params.set p.idx v }

/-- `int(P[id])` of a kind-`D` register: the integer it holds (10_state.md R42; log entry 11). -/
def State.paramInt (s : State) (p : Param) : Int := (s.param p).floor

/-- `P[id] = 1` of a two-valued kind-`D` register. -/
def State.switch (s : State) (p : Param) : Bool := decide (s.paramInt p = 1)

/-- `P[id]` by id, if the id is defined (10_state.md R41). -/
def State.paramById (s : State) (id : Nat) : Option F32 := (paramOfId id).map s.param

/-- The row of the parameter table for this instance's pool size (10_state.md R40). -/
def State.row (s : State) (p : Param) : ParamRow := paramRow s.cfg.poolSize p

/-- The pool with every voice replaced by its image. -/
def State.mapVoices (s : State) (f : Voice → Voice) : State := { s with voices := s.voices.map f }

/-- The pool with voice `i` replaced. -/
def State.setVoice (s : State) (i : Nat) (v : Voice) : State := { s with voices := s.voices.set i v }

/-- `emit` of the two samples of a frame: left, then right, both equal (00_scope.md R8, 45_render_mixer.md R318). -/
def State.emitFrame (s : State) (x : Sample) : State := { s with out := s.out ++ [x, x] }

/-- `RESET` at a command boundary: every piece of state takes its reset value; construction parameters stay; samples
appended before stay for the host, and the stream restarts (70_reset_and_hazards.md R390, R391; log entry 4). The host's
side is not the block's state. -/
def State.applyReset (s : State) : State :=
  { State.construct s.cfg s.host s.hostTakes with outKept := s.outKept ++ s.out }

end Sys2Proof.Machine
end

