-- ==== Sys2Proof/Machine/Operands.lean ====
section
/-! DEFINITION. The operand rules common to the commands: NaN, clamping, canonical zero, quantization (46_control.md R341
to R343) and note mapping (44_voice_manager.md R271). Fields are cut out of the words in Decode.lean. -/

namespace Sys2Proof.Machine

/-- `CANON0(v) = if v = 0.0 then +0.0 else v` (46_control.md R341). -/
def canon0 (v : F32) : F32 := if F32.eq v c0 then c0 else v

/-- The value a register takes from a binary32 operand that is not a NaN: clamped, a zero of either sign stored as +0.0
(46_control.md R341). -/
def clampCanon (x lo hi : F32) : F32 := canon0 (F32.clamp x lo hi)

/-- `QUANT(v, hi) = min(i2f(floor(v + 0.5)), hi)`, the addition in binary32 (46_control.md R343). -/
def quant (v hi : F32) : F32 := F32.fmin (F32.ofInt (F32.floor (F32.add v cHalf))) hi

/-- The value `SET_PARAM` stores in a register of this row (46_control.md R342). -/
def paramValue (r : ParamRow) (x : F32) : F32 :=
  let v := F32.clamp x r.lo r.hi
  canon0 (match r.kind with
    | .continuous => v
    | .discrete => quant v r.hi)

/-- `clamp` on integers (00_scope.md R12). -/
def clampInt (x lo hi : Int) : Int := if x < lo then lo else if hi < x then hi else x

/-- `NOTE_MAP(key) = clamp(key + int(P[TRANSPOSE]), 0, 127)` (44_voice_manager.md R271). -/
def noteMap (s : State) (key : Int) : Int := clampInt (key + s.paramInt .transpose) 0 127

end Sys2Proof.Machine
end

