-- ==== Sys2Proof/Machine/Control.lean ====
section
/-! DEFINITION. NOP, SET_PARAM, GET_PARAM, PITCH_BEND, MOD_WHEEL, SET_SAMPLE_RATE and the reserved opcodes
(46_control.md R340 to R348). -/

namespace Sys2Proof.Machine

/-- `NOP` changes no state (46_control.md R340). -/
def execNop (s : State) : Host.Outcome State Fault Refusal := .next s

/-- `SET_PARAM id, x` (R342): no effect for a NaN, then for an undefined id (60_exceptions.md R372). -/
def execSetParam (id : Nat) (x : F32) (s : State) : Host.Outcome State Fault Refusal :=
  if x.isNaN then .next s
  else
    match paramOfId id with
    | none => .next s
    | some p => .next (s.setParamReg p (paramValue (s.row p) x))

/-- `GET_PARAM id` (R344): an undefined id gives 0. -/
def execGetParam (id : Nat) (s : State) : Host.Outcome State Fault Refusal :=
  .next { s with rdata := match s.paramById id with
                          | some v => v.bits
                          | none => 0#32 }

/-- `PITCH_BEND x` (R345). -/
def execPitchBend (x : F32) (s : State) : Host.Outcome State Fault Refusal :=
  if x.isNaN then .next s else .next { s with bend := clampCanon x cNeg1 c1 }

/-- `MOD_WHEEL x` (R346). -/
def execModWheel (x : F32) (s : State) : Host.Outcome State Fault Refusal :=
  if x.isNaN then .next s else .next { s with wheel := clampCanon x c0 c1 }

/-- `SET_SAMPLE_RATE x` (R347): no other state changes. -/
def execSetSampleRate (x : F32) (s : State) : Host.Outcome State Fault Refusal :=
  if x.isNaN then .next s else .next { s with fs := F32.clamp x c8000 c192000 }

/-- Reserved opcodes 0x0C..0x0F execute as NOP, whatever the opcode (R348). -/
def execReserved0C (_op : Nat) (s : State) : Host.Outcome State Fault Refusal := .next s

/-- Reserved opcodes 0x10..0x1F execute as NOP (R348). -/
def execReserved10 (_op : Nat) (s : State) : Host.Outcome State Fault Refusal := .next s

/-- Reserved opcodes 0x20..0x3F execute as NOP (R348). -/
def execReserved20 (_op : Nat) (s : State) : Host.Outcome State Fault Refusal := .next s

/-- Reserved opcodes 0x40..0x7F execute as NOP (R348). -/
def execReserved40 (_op : Nat) (s : State) : Host.Outcome State Fault Refusal := .next s

/-- Reserved opcodes 0x80..0xFF execute as NOP (R348). -/
def execReserved80 (_op : Nat) (s : State) : Host.Outcome State Fault Refusal := .next s

end Sys2Proof.Machine
end

