-- ==== Sys2Proof/Machine/Envelope.lean ====
section
/-! DEFINITION. The ADSR envelope generator (41_envelope.md R170 to R181). -/

namespace Sys2Proof.Machine

/-- `ENV_TIME(p)`, seconds (41_envelope.md R171). -/
def envTime (lib : TransLib) (p : F32) : F32 := cTMin.mul (lib.exp2 (p.mul cLog2_1E4))

/-- `1.0 - exp2f(0.0 - (l / (ENV_TIME(p) * FS)))`, the form of both coefficients of R172. -/
def envCoef (lib : TransLib) (fs l p : F32) : F32 :=
  c1.sub (lib.exp2 (c0.sub (l.div ((envTime lib p).mul fs))))

/-- `COEF_ATT(p)` (R172). -/
def coefAtt (lib : TransLib) (fs p : F32) : F32 := envCoef lib fs cLog2_3 p

/-- `COEF_DR(p)` (R172). -/
def coefDr (lib : TransLib) (fs p : F32) : F32 := envCoef lib fs cLog2_1E4 p

/-- One tick in `ATTACK` with coefficient `c` (R173, R174). -/
def envAttackTick (level c : F32) : EnvState :=
  let l := level.add ((cAttTarget.sub level).mul c)
  if F32.le c1 l then ⟨.decay, c1⟩ else ⟨.attack, l⟩

/-- One tick in `DECAY` with coefficient `c` toward `S` (R173, R175). -/
def envDecayTick (level c S : F32) : EnvState :=
  let l := level.add ((S.sub level).mul c)
  if F32.le (l.sub S) cEpsEnv || F32.eq l level then ⟨.sustain, S⟩ else ⟨.decay, l⟩

/-- One tick in `RELEASE` with coefficient `c` (R173, R177). -/
def envReleaseTick (level c : F32) : EnvState :=
  let l := level.sub (level.mul c)
  if F32.le l cEpsEnv then ⟨.idle, c0⟩ else ⟨.release, l⟩

/-- `ENV_ADVANCE(e, A, D, S, R)` (R173 to R178). In `SUSTAIN` the level is the sustain register, which can be subnormal
(46_control.md R342): R176 is followed where 70_reset_and_hazards.md R402 says that no level can be (DEDUCED, log
entry 19). -/
def envAdvance (lib : TransLib) (fs : F32) (e : EnvState) (A D S R : F32) : EnvState :=
  match e.stage with
  | .idle => ⟨.idle, c0⟩
  | .attack => envAttackTick e.level (coefAtt lib fs A)
  | .decay => envDecayTick e.level (coefDr lib fs D) S
  | .sustain => ⟨.sustain, S⟩
  | .release => envReleaseTick e.level (coefDr lib fs R)

/-- `ENV_TRIGGER(e)` (R179): to `ATTACK` from any stage, level kept. -/
def envTrigger (e : EnvState) : EnvState := { e with stage := .attack }

/-- `ENV_RELEASE(e)` (R181): to `RELEASE` from any stage but `IDLE`, level kept. -/
def envRelease (e : EnvState) : EnvState := if e.stage = .idle then e else { e with stage := .release }

/-- `ENV_OUT(e, va, vel)` (R180). -/
def envOut (e : EnvState) (va vel : F32) : F32 := e.level.mul ((c1.sub va).add (va.mul vel))

end Sys2Proof.Machine
end

