-- ==== Sys2Proof/Machine/Filter.lean ====
section
/-! DEFINITION. The multimode resonant filter (42_filter.md R200 to R208). -/

namespace Sys2Proof.Machine

/-- The three outputs of a state-variable stage (42_filter.md R206). -/
structure Taps where
  lp : F32
  bp : F32
  hp : F32
  deriving DecidableEq, Repr

/-- Clamp to `[-FILT_LIM, FILT_LIM]` (R206). -/
def clampFilt (x : F32) : F32 := F32.clamp x (c0.sub cFiltLim) cFiltLim

/-- `SVF(s, v0, g, kk)`: one trapezoidal state-variable stage (R206). -/
def svf (s : SvfState) (v0 g kk : F32) : SvfState × Taps :=
  let a1 := c1.div (c1.add (g.mul (g.add kk)))
  let a2 := g.mul a1
  let a3 := g.mul a2
  let v3 := v0.sub s.ic2
  let v1 := clampFilt ((a1.mul s.ic1).add (a2.mul v3))
  let v2 := clampFilt ((s.ic2.add (a2.mul s.ic1)).add (a3.mul v3))
  (⟨clampFilt ((c2.mul v1).sub s.ic1), clampFilt ((c2.mul v2).sub s.ic2)⟩,
    ⟨v2, v1, clampFilt ((v0.sub (kk.mul v1)).sub v2)⟩)

/-- The tap of a mode: `mode mod 3` is 0 low-pass, 1 band-pass, 2 high-pass (R202, R207). -/
def pickTap (mode : Int) (t : Taps) : F32 := if mode % 3 = 0 then t.lp else if mode % 3 = 1 then t.bp else t.hp

/-- `FILTER_PROCESS(f, x, g, k, mode)` (R207): one stage in modes 0 to 2, two in modes 3 to 5, the first with damping 2.0. -/
def filterProcess (f : FilterState) (x g k : F32) (mode : Int) : FilterState × F32 :=
  if mode < 3 then
    let r := svf f.s1 x g k
    ({ f with s1 := r.1 }, pickTap mode r.2)
  else
    let r1 := svf f.s1 x g c2
    let r2 := svf f.s2 (pickTap mode r1.2) g k
    (⟨r1.1, r2.1⟩, pickTap mode r2.2)

/-- The cutoff frequency in Hz of a tick (R203): `fenv` the filter envelope output, `gp` the glide pitch, `lm` the scaled
LFO value. -/
def cutoffHz (s : State) (fenv gp lm : F32) : F32 :=
  let lfoF := if s.switch .lfoDestFilter then lm.mul c4 else c0
  let log2fc :=
    (((cLog2_20.add ((s.param .cutoff).mul cLog2_1000)).add
      (((s.param .filterEnvAmt).mul c10).mul fenv)).add
      (((s.param .keyFollow).mul (gp.sub c60)).div c12)).add lfoF
  F32.fmin (F32.fmax (s.cfg.lib.exp2 log2fc) cFcMin) (cNyqFrac.mul s.fs)

/-- The frequency coefficient `g` (R204). -/
def filterG (s : State) (fc : F32) : F32 := s.cfg.lib.tan (cPi.mul (fc.div s.fs))

/-- The damping coefficient `k` (R205). -/
def filterK (s : State) : F32 :=
  c2.sub ((if s.switch .selfOsc then cKSelf else cKNorm).mul (s.param .resonance))

end Sys2Proof.Machine
end

