-- ==== Sys2Proof/Machine/Oscillator.lean ====
section
/-! DEFINITION. The band-limited oscillator, `OSC_ADVANCE` (40_oscillator.md R130 to R140). -/

namespace Sys2Proof.Machine

/-- Oscillator waveforms (10_state.md R54). -/
inductive Waveform
  | saw
  | pulse
  | mix
  deriving DecidableEq, Repr

/-- The waveform of a code 0, 1 or 2 (10_state.md R54; no other code occurs by R42, log entry 11). -/
def waveformOfInt (n : Int) : Waveform := if n = 0 then .saw else if n = 1 then .pulse else .mix

/-- `SAWV(x)` (40_oscillator.md R132). -/
def sawValue (x : F32) : F32 := (c2.mul x).sub c1

/-- `PULSEV(x, pw)` (R132). -/
def pulseValue (x pw : F32) : F32 := if F32.lt x pw then c1 else cNeg1

/-- `WAVE(w, x, pw)`: the naive waveform (R132). -/
def waveValue (w : Waveform) (x pw : F32) : F32 :=
  match w with
  | .saw => sawValue x
  | .pulse => pulseValue x pw
  | .mix => ((sawValue x).add (pulseValue x pw)).mul cHalf

/-- `HWRAP(w)`: the step height at the wrap (R133). -/
def stepAtWrap : Waveform → F32
  | .saw => cNeg2
  | .pulse => c2
  | .mix => c0

/-- `HPW(w)`: the step height at phase `pw`, or no event (R133). -/
def stepAtWidth : Waveform → Option F32
  | .saw => none
  | .pulse => some cNeg2
  | .mix => some cNeg1

/-- An event: its distance `d` before the current sample instant and its height `h` (R134). -/
structure StepEvent where
  d : F32
  h : F32
  deriving DecidableEq, Repr

/-- What the phase path of one tick gives: the events in time order, the master wrap position `md`, the new phase
(R134, R135). -/
structure PhasePath where
  events : List StepEvent
  md : Option F32
  newPhase : F32
  deriving DecidableEq, Repr

/-- The event at phase `pw` if the waveform jumps there and the path crosses it (R133, R134). -/
def widthEvent (w : Waveform) (crossed : Bool) (d : F32) : List StepEvent :=
  match stepAtWidth w with
  | none => []
  | some h => if crossed then [⟨F32.fmin d c1, h⟩] else []

/-- The path of a tick without sync (R131, R134). -/
def freePath (o : OscState) (dt : F32) (w : Waveform) (pw : F32) : PhasePath :=
  let q := o.phase.add dt
  if F32.le c1 q then
    let q1 := q.sub c1
    let dw := F32.fmin (q1.div dt) c1
    { events :=
        widthEvent w (F32.lt o.phase pw) ((q.sub pw).div dt) ++
        [⟨dw, stepAtWrap w⟩] ++
        widthEvent w (F32.le pw q1) ((q1.sub pw).div dt)
      md := some dw
      newPhase := q1 }
  else
    { events := widthEvent w (F32.lt o.phase pw && F32.le pw q) ((q.sub pw).div dt)
      md := none
      newPhase := q }

/-- The path of a tick of a slave whose phase is reset `sd` samples before the current instant (R135). -/
def syncPath (o : OscState) (dt : F32) (w : Waveform) (pw sd : F32) : PhasePath :=
  let pre := o.phase.add (dt.mul (c1.sub sd))
  let wraps := F32.le c1 pre
  let preW := pre.sub c1
  let fph := if wraps then preW else pre
  let before : List StepEvent :=
    if wraps then
      widthEvent w (F32.lt o.phase pw) (sd.add ((pre.sub pw).div dt)) ++
      [⟨F32.fmin (sd.add (preW.div dt)) c1, stepAtWrap w⟩] ++
      widthEvent w (F32.le pw preW) (sd.add ((preW.sub pw).div dt))
    else
      widthEvent w (F32.lt o.phase pw && F32.le pw pre) (sd.add ((pre.sub pw).div dt))
  let q1 := dt.mul sd
  { events :=
      before ++
      [⟨sd, (waveValue w c0 pw).sub (waveValue w fph pw)⟩] ++
      widthEvent w (F32.le pw q1) ((q1.sub pw).div dt)
    md := none
    newPhase := q1 }

/-- The residual sums `(prevC, curC)` over the events, in list order (R136). -/
def blepSums (ev : List StepEvent) : F32 × F32 :=
  ev.foldl (fun acc x =>
    let a := x.h.mul cHalf
    let e := c1.sub x.d
    (acc.1.add (a.mul (x.d.mul x.d)), acc.2.add ((c0.sub a).mul (e.mul e)))) (c0, c0)

/-- What `OSC_ADVANCE` gives: the new oscillator state, the output sample `out`, the wrap position `md` (R130). -/
structure OscResult where
  osc : OscState
  out : F32
  md : Option F32
  deriving DecidableEq, Repr

/-- `OSC_ADVANCE(o, dt, w, pw, sd)` (R130 to R139): the pending sample, corrected and clamped, is output; the naive value
at the new phase, corrected, becomes pending. -/
def oscAdvance (o : OscState) (dt : F32) (w : Waveform) (pw : F32) (sd : Option F32) : OscResult :=
  let path := match sd with
    | none => freePath o dt w pw
    | some d => syncPath o dt w pw d
  let c := blepSums path.events
  { osc := { phase := path.newPhase, pend := (waveValue w path.newPhase pw).add c.2 }
    out := F32.clamp (o.pend.add c.1) cNeg1 c1
    md := path.md }

/-- `OSC_PHASE_RESET(o)`: phase to 0.0, pending sample kept (R140). -/
def oscPhaseReset (o : OscState) : OscState := { o with phase := c0 }

end Sys2Proof.Machine
end

