-- ==== Sys2Proof/Machine/Voice.lean ====
section
/-! DEFINITION. The voice: glide, LFO, pitch, mixer, render and lifecycle (43_voice.md R230 to R249). -/

namespace Sys2Proof.Machine

/-- `PORTA_TIME()`, seconds (43_voice.md R232). -/
def portaTime (s : State) : F32 :=
  if F32.eq (s.param .portamento) c0 then c0 else envTime s.cfg.lib (s.param .portamento)

/-- The glide step (R231). -/
def glideStep (s : State) (v : Voice) : Voice :=
  if F32.eq v.gp v.gto then v
  else
    let T := portaTime s
    if F32.eq T c0 then { v with gp := v.gto }
    else
      let n := v.gn + 1
      let r := (F32.ofInt n).div (T.mul s.fs)
      if F32.le c1 r then { v with gn := n, gp := v.gto }
      else
        let x := v.gfrom.add ((v.gto.sub v.gfrom).mul r)
        { v with gn := n, gp := if F32.lt v.gfrom v.gto then F32.fmin x v.gto else F32.fmax x v.gto }

/-- Both envelopes advance, amplitude first (R233). -/
def advanceEnvelopes (s : State) (v : Voice) : Voice :=
  { v with
    amp := envAdvance s.cfg.lib s.fs v.amp (s.param .ampAttack) (s.param .ampDecay) (s.param .ampSustain)
      (s.param .ampRelease)
    flt := envAdvance s.cfg.lib s.fs v.flt (s.param .fltAttack) (s.param .fltDecay) (s.param .fltSustain)
      (s.param .fltRelease) }

/-- `LFO_HZ()` (R240). -/
def lfoHz (s : State) : F32 :=
  if s.switch .lfoSync then
    let m := F32.floor (((s.param .lfoRate).mul c8).add cHalf)
    ((s.param .tempo).div c60).mul (F32.pow2 (m - 4))
  else cLfoRateMin.mul (s.cfg.lib.exp2 ((s.param .lfoRate).mul cLog2_400))

/-- `LFO_ADVANCE(l, noise)` with `LFO_VALUE` (R241, R242): the new LFO state and the value at the new phase. -/
def lfoAdvance (s : State) (l : LfoState) (noise : F32) : LfoState × F32 :=
  let inc := (lfoHz s).div s.fs
  let q0 := l.phase.add inc
  let wrapped := F32.le c1 q0
  let q := if wrapped then q0.sub c1 else q0
  let wave := s.paramInt .lfoWave
  if wave = 0 then (⟨q, l.sh⟩, s.cfg.lib.sin (cTwoPi.mul q))
  else if wave = 1 then (⟨q, l.sh⟩, if F32.lt q cHalf then c1 else cNeg1)
  else
    let sh := if wrapped then noise else l.sh
    (⟨q, sh⟩, sh)

/-- The voice's LFO value of the tick (R234): the global value with `LFO_SYNC = 1`, else its own LFO advances. -/
def voiceLfo (s : State) (v : Voice) (noise : F32) (glv : Option F32) : Voice × F32 :=
  match glv with
  | some x => (v, x)
  | none =>
    let r := lfoAdvance s v.lfo noise
    ({ v with lfo := r.1 }, r.2)

/-- The scaled LFO `lm` (R243). -/
def scaledLfo (s : State) (lv : F32) : F32 := lv.mul (F32.fmin ((s.param .lfoDepth).add s.wheel) c1)

/-- `UNISON_OFFSET(v)`, semitones (R246). -/
def unisonOffset (s : State) (v : Voice) : F32 :=
  if v.uniN = 1 then c0
  else ((s.param .unisonDetune).mul cHalf).mul
    (((F32.ofInt (2 * (v.copy : Int))).div (F32.ofInt ((v.uniN : Int) - 1))).sub c1)

/-- The pitch of oscillator 1, semitones (R235). -/
def pitch1 (s : State) (v : Voice) (fenv lm : F32) : F32 :=
  let bendS := s.bend.mul (s.param .bendRange)
  let envP := ((s.param .envPitchAmt).mul c24).mul fenv
  let l1 := if s.switch .lfoDestOsc1 then lm.mul c12 else c0
  ((((v.gp.add bendS).add l1).add envP).add (unisonOffset s v)).add (s.param .osc1Pitch)

/-- The pitch of oscillator 2, semitones (R235). -/
def pitch2 (s : State) (v : Voice) (fenv lm : F32) : F32 :=
  let bendS := s.bend.mul (s.param .bendRange)
  let envP := ((s.param .envPitchAmt).mul c24).mul fenv
  let l2 := if s.switch .lfoDestOsc2 then lm.mul c12 else c0
  let base2 := if s.switch .osc2Keytrack then v.gp else c60.add (s.param .masterTune)
  (((((base2.add bendS).add l2).add envP).add (unisonOffset s v)).add (s.param .osc2Pitch)).add
    ((s.param .osc2Detune).mul cHalf)

/-- `PITCH_DT(p)`: the phase increment (R236). -/
def pitchDt (s : State) (p : F32) : F32 :=
  F32.clamp ((c440.mul (s.cfg.lib.exp2 ((p.sub c69).div c12))).div s.fs) cDtMin cDtMax

/-- A pulse width with its LFO modulation, clamped (R237). -/
def pulseWidth (s : State) (p : Param) (lm : F32) : F32 :=
  let pwm := if s.switch .lfoDestPw then lm.mul cLfoPwDepth else c0
  F32.clamp ((s.param p).add pwm) cPwMin cPwMax

/-- The mixer (R239). -/
def mixSources (s : State) (o1 o2 noise : F32) : F32 :=
  let m1 := s.param .osc1Level
  let m2 := s.param .osc2Level
  let mn := s.param .noiseLevel
  let sum := ((m1.mul o1).add (m2.mul o2)).add (mn.mul noise)
  let den := F32.fmax ((m1.add m2).add mn) c1
  F32.clamp (sum.div den) cNeg1 c1

/-- Steps 4 to 7 of R230: phase increments, pulse widths, oscillator 1, oscillator 2 with sync, mixer (R235 to R239). -/
def renderOscillators (s : State) (v : Voice) (noise fenv lm : F32) : Voice × F32 :=
  let dt1 := pitchDt s (pitch1 s v fenv lm)
  let dt2 := pitchDt s (pitch2 s v fenv lm)
  let r1 := oscAdvance v.osc1 dt1 (waveformOfInt (s.paramInt .osc1Wave)) (pulseWidth s .osc1Pw lm) none
  let sd := if s.switch .oscSync then r1.md else none
  let r2 := oscAdvance v.osc2 dt2 (waveformOfInt (s.paramInt .osc2Wave)) (pulseWidth s .osc2Pw lm) sd
  ({ v with osc1 := r1.osc, osc2 := r2.osc }, mixSources s r1.out r2.out noise)

/-- Steps 8 and 9 of R230: filter (R244), then amplitude and unison gain (R245). -/
def renderFilter (s : State) (v : Voice) (mix aenv fenv lm : F32) : Voice × F32 :=
  let g := filterG s (cutoffHz s fenv v.gp lm)
  let r := filterProcess v.filt mix g (filterK s) (s.paramInt .filterMode)
  ({ v with filt := r.1 }, (r.2.mul aenv).mul (c1.div (F32.ofInt (v.uniN : Int))))

/-- `VOICE_RENDER(v, noise, glv)` (R230). `s` is read only: parameters, `FS`, `BEND`, `WHEEL` and the library. -/
def voiceRender (s : State) (v : Voice) (noise : F32) (glv : Option F32) : Voice × F32 :=
  let v1 := advanceEnvelopes s (glideStep s v)
  let aenv := envOut v1.amp (s.param .ampVelAmt) v1.vel
  let fenv := envOut v1.flt (s.param .fltVelAmt) v1.vel
  let l := voiceLfo s v1 noise glv
  let lm := scaledLfo s l.2
  let m := renderOscillators s l.1 noise fenv lm
  renderFilter s m.1 m.2 aenv fenv lm

/-- `VOICE_TRIGGER(v, raw, note, vel, c, N, retrig)` (R247). -/
def voiceTrigger (s : State) (v : Voice) (raw note : Int) (vel : F32) (c N : Nat) (retrig : Bool) : Voice :=
  let target := (F32.ofInt note).add (s.param .masterTune)
  let jump := !v.gvalid || F32.eq (portaTime s) c0
  let v1 : Voice :=
    { v with
      assigned := true, key := raw, note := note, vel := vel
      gate := .held, age := s.age, copy := c, uniN := N
      gp := if jump then target else v.gp
      gfrom := if jump then target else v.gp
      gto := target, gn := 0, gvalid := true }
  if retrig then
    { v1 with
      amp := envTrigger v1.amp
      flt := envTrigger v1.flt
      lfo := { v1.lfo with phase := c0 }
      osc1 := if s.switch .oscReset then oscPhaseReset v1.osc1 else v1.osc1
      osc2 := if s.switch .oscReset then oscPhaseReset v1.osc2 else v1.osc2 }
  else v1

/-- `VOICE_RELEASE(v)` (R248). -/
def voiceRelease (v : Voice) : Voice :=
  { v with gate := .released, amp := envRelease v.amp, flt := envRelease v.flt }

/-- `IS_STEALABLE(v)` (R249). -/
def isStealable (v : Voice) : Bool := decide (v.amp.stage = .idle) && decide (v.gate = .released)

end Sys2Proof.Machine
end

