-- ==== Sys2Proof/Machine/Mixer.lean ====
section
/-! DEFINITION. The tick: noise source, global LFO, summation of the active voices, volume, clipping and output conversion
(45_render_mixer.md R311 to R319). -/

namespace Sys2Proof.Machine

/-- The next state of the noise generator (45_render_mixer.md R313). -/
def rngNext (rng : Word) : Word := rng * 1664525#32 + 1013904223#32

/-- The noise sample of a generator state: `(i2f(RNG >> 8) * 2^-23) - 1.0` (R313). -/
def noiseSample (rng : Word) : F32 := ((F32.ofInt ((rng >>> 8).toNat : Int)).mul cTwoPowNeg23).sub c1

/-- The loop over the pool in ascending index: active voices are rendered and summed left to right, idle ones are not
advanced (R311, R312, R314). -/
def renderVoices (s : State) (noise : F32) (glv : Option F32) : List Voice → F32 → List Voice × F32
  | [], acc => ([], acc)
  | v :: vs, acc =>
    if v.amp.stage = .idle then
      let r := renderVoices s noise glv vs acc
      (v :: r.1, r.2)
    else
      let y := voiceRender s v noise glv
      let r := renderVoices s noise glv vs (acc.add y.2)
      (y.1 :: r.1, r.2)

/-- `CONV(s)`: the clamped value as a sample of the output format (R316, R317). -/
def convSample (fmt : OutFmt) (x : F32) : Sample :=
  match fmt with
  | .s16 => .s16 (BitVec.ofInt 16 (F32.rne (x.mul cS16Scale)))
  | .f32 => .f32 x

/-- Master volume and hard clipping (R315). -/
def masterOut (s : State) (acc : F32) : F32 := F32.clamp (acc.mul (s.param .masterVolume)) cNeg1 c1

/-- The global LFO of the tick (R319): the new `GLFO` and the value `GLV`, `NONE` with `LFO_SYNC = 0`. -/
def globalLfo (s : State) (noise : F32) : LfoState × Option F32 :=
  if s.switch .lfoSync then
    let r := lfoAdvance s s.glfo noise
    (r.1, some r.2)
  else (s.glfo, none)

/-- `TICK()` (R311): one sample period, one frame. -/
def tick (s : State) : State :=
  let rng := rngNext s.rng
  let noise := noiseSample rng
  let g := globalLfo s noise
  let r := renderVoices s noise g.2 s.voices c0
  State.emitFrame { s with rng := rng, glfo := g.1, voices := r.1 } (convSample s.cfg.outFmt (masterOut s r.2))

end Sys2Proof.Machine
end

