-- ==== Sys2Proof/Machine/Render.lean ====
section
/-! DEFINITION. RENDER (45_render_mixer.md R310) with the host's back-pressure (70_reset_and_hazards.md R400). -/

namespace Sys2Proof.Machine

/-- The host has taken one more frame. -/
def takeFrame : Option Nat → Option Nat
  | none => none
  | some n => some (n - 1)

/-- One turn of RENDER's loop: a tick, then `REMAIN <- REMAIN - 1` (45_render_mixer.md R310). -/
def renderTurn (s : State) : State :=
  let t := tick s
  { t with remain := t.remain - 1#16, hostTakes := takeFrame t.hostTakes }

/-- At most `n` turns, ending early when the host consumes no more frames: the block then waits between ticks
(70_reset_and_hazards.md R400; log entry 2). -/
def renderLoop : Nat → State → State
  | 0, s => s
  | n + 1, s => if s.hostTakes = some 0 then s else renderLoop n (renderTurn s)

/-- `while REMAIN > 0: TICK(); REMAIN <- REMAIN - 1` (R310). -/
def runRender (s : State) : State := renderLoop s.remain.toNat s

/-- `RENDER frames` (R310). -/
def execRender (frames : Nat) (s : State) : Host.Outcome State Fault Refusal :=
  .next (runRender { s with remain := BitVec.ofNat 16 frames })

end Sys2Proof.Machine
end

