-- ==== Sys2Proof/Machine/Alloc.lean ====
section
/-! DEFINITION. Voice allocation and stealing (44_voice_manager.md R272 to R275). -/

namespace Sys2Proof.Machine

/-- `V = int(P[VOICE_COUNT])`: voices with a lower index are eligible (44_voice_manager.md R272). -/
def eligibleCount (s : State) : Nat := (s.paramInt .voiceCount).toNat

/-- `N = min(int(P[UNISON_COUNT]), V)` (R272). -/
def copyCount (s : State) : Nat := Nat.min (s.paramInt .unisonCount).toNat (eligibleCount s)

/-- `C = {0..V-1} - taken`, with their voices, in ascending index (R273). -/
def candidates (s : State) (V : Nat) (taken : List Nat) : List (Voice × Nat) :=
  s.voices.zipIdx.filter fun c => decide (c.2 < V) && !taken.contains c.2

/-- `dist(i) = (AGE - voice[i].age) mod 2^32`: larger is older (R273, R274). -/
def ageDist (s : State) (v : Voice) : Nat := (s.age - v.age).toNat

/-- The candidate with the largest age distance; ties go to the lowest index (R273). -/
def oldestOf (s : State) : List (Voice × Nat) → Option (Voice × Nat)
  | [] => none
  | c :: cs =>
    match oldestOf s cs with
    | none => some c
    | some d => if ageDist s c.1 < ageDist s d.1 then some d else some c

/-- `ALLOCATE(key, c, V, taken)` (R273): key match, else idle, else oldest releasing, else oldest of all; the first step
with a result decides. `none` only when there is no candidate (never by R272; log entry 12). -/
def allocate (s : State) (key : Int) (c V : Nat) (taken : List Nat) : Option (Voice × Nat) :=
  let cs := candidates s V taken
  (cs.find? fun x => x.1.assigned && decide (x.1.key = key) && decide (x.1.copy = c)).or
    ((cs.find? fun x => isStealable x.1).or
      ((oldestOf s (cs.filter fun x => decide (x.1.gate = .released))).or (oldestOf s cs)))

/-- A trigger of voice `v` is legato (R275). -/
def isLegato (s : State) (v : Voice) : Bool :=
  s.switch .legato && (decide (v.gate = .held) || decide (v.gate = .sustained))

/-- The loop of NOTE_ON over the copies `c`, `c + 1`, ... of one note, `todo` of them (R270). -/
def triggerCopies (key note : Int) (vel : F32) (V N : Nat) : Nat → Nat → List Nat → State → State
  | 0, _, _, s => s
  | todo + 1, c, taken, s =>
    match allocate s key c V taken with
    | none => s
    | some (v, i) =>
      triggerCopies key note vel V N todo (c + 1) (i :: taken)
        (s.setVoice i (voiceTrigger s v key note vel c N (!isLegato s v)))

end Sys2Proof.Machine
end

