-- ==== Sys2Proof/Machine/VoiceManager.lean ====
section
/-! DEFINITION. NOTE_ON, NOTE_OFF, ALL_NOTES_OFF, ALL_SOUND_OFF and SUSTAIN (44_voice_manager.md R270 to R279). -/

namespace Sys2Proof.Machine

/-- `NOTE_ON key, vel` (44_voice_manager.md R270). A NaN velocity has no effect (46_control.md R341); the clamped velocity
is stored with a canonical zero (R341; log entry 9). -/
def execNoteOn (key : Int) (x : F32) (s : State) : Host.Outcome State Fault Refusal :=
  if x.isNaN then .next s
  else
    let s1 : State := { s with age := s.age + 1#32 }
    let N := copyCount s1
    .next (triggerCopies key (noteMap s1 key) (clampCanon x c0 c1) (eligibleCount s1) N N 0 [] s1)

/-- What NOTE_OFF does to one voice (R276): a held voice of this raw key becomes sustained with the pedal down, else is
released. -/
def noteOffVoice (pedal : Bool) (key : Int) (v : Voice) : Voice :=
  if v.assigned && decide (v.key = key) && decide (v.gate = .held) then
    (if pedal then { v with gate := .sustained } else voiceRelease v)
  else v

/-- `NOTE_OFF key` (R276): every voice of the pool, eligible or not. -/
def execNoteOff (key : Int) (s : State) : Host.Outcome State Fault Refusal :=
  .next (s.mapVoices (noteOffVoice s.pedal key))

/-- What ALL_NOTES_OFF does to one voice (R278). -/
def releaseSounding (v : Voice) : Voice :=
  if v.gate = .held ∨ v.gate = .sustained then voiceRelease v else v

/-- `ALL_NOTES_OFF` (R278): `PEDAL` unchanged. -/
def execAllNotesOff (s : State) : Host.Outcome State Fault Refusal := .next (s.mapVoices releaseSounding)

/-- `ALL_SOUND_OFF` (R279): voice reset of every voice of the pool. -/
def execAllSoundOff (s : State) : Host.Outcome State Fault Refusal := .next (s.mapVoices fun _ => Voice.reset)

/-- What lifting the pedal does to one voice (R277). -/
def releaseSustained (v : Voice) : Voice := if v.gate = .sustained then voiceRelease v else v

/-- `SUSTAIN down` (R277): pressing changes no voice, lifting releases every sustained voice. -/
def execSustain (down : Bool) (s : State) : Host.Outcome State Fault Refusal :=
  if down then .next { s with pedal := true }
  else .next (State.mapVoices { s with pedal := false } releaseSustained)

end Sys2Proof.Machine
end

