-- ==== Sys2Proof/Machine/Dispatch.lean ====
section
/-! DEFINITION. The dispatch of a decoded command to its meaning (30_encoding.md R104). -/

namespace Sys2Proof.Machine

def exec (i : Instr) (s : State) : Host.Outcome State Fault Refusal :=
  match i with
  | .nop => Sys2Proof.Machine.execNop s
  | .noteOn key x => Sys2Proof.Machine.execNoteOn key x s
  | .noteOff key => Sys2Proof.Machine.execNoteOff key s
  | .allNotesOff => Sys2Proof.Machine.execAllNotesOff s
  | .allSoundOff => Sys2Proof.Machine.execAllSoundOff s
  | .sustain down => Sys2Proof.Machine.execSustain down s
  | .pitchBend x => Sys2Proof.Machine.execPitchBend x s
  | .modWheel x => Sys2Proof.Machine.execModWheel x s
  | .setParam id x => Sys2Proof.Machine.execSetParam id x s
  | .getParam id => Sys2Proof.Machine.execGetParam id s
  | .setSampleRate x => Sys2Proof.Machine.execSetSampleRate x s
  | .render frames => Sys2Proof.Machine.execRender frames s
  | .reserved0C op => Sys2Proof.Machine.execReserved0C op s
  | .reserved10 op => Sys2Proof.Machine.execReserved10 op s
  | .reserved20 op => Sys2Proof.Machine.execReserved20 op s
  | .reserved40 op => Sys2Proof.Machine.execReserved40 op s
  | .reserved80 op => Sys2Proof.Machine.execReserved80 op s

end Sys2Proof.Machine
end

