-- ==== Sys2Proof/WellFormed.lean ====
section
/-! DEFINITION. Which commands the fields of a 64-bit transfer can hold (30_encoding.md R101, R102, R104). -/

namespace Sys2Proof

/-- Every operand lies in the range of its field: a key is an 8-bit signed integer and an id an 8-bit unsigned one
(R101), a frame count a 16-bit unsigned one (R102), a reserved opcode lies in its row (R104). Every binary32 operand
is well-formed (R103: every 32-bit pattern decodes). -/
def Instr.wellFormed : Instr → Bool
  | .nop => true
  | .noteOn key _ => decide (-128 ≤ key ∧ key ≤ 127)
  | .noteOff key => decide (-128 ≤ key ∧ key ≤ 127)
  | .allNotesOff => true
  | .allSoundOff => true
  | .sustain _ => true
  | .pitchBend _ => true
  | .modWheel _ => true
  | .setParam id _ => decide (id ≤ 255)
  | .getParam id => decide (id ≤ 255)
  | .setSampleRate _ => true
  | .render frames => decide (frames ≤ 65535)
  | .reserved0C op => decide (0x0C ≤ op ∧ op ≤ 0x0F)
  | .reserved10 op => decide (0x10 ≤ op ∧ op ≤ 0x1F)
  | .reserved20 op => decide (0x20 ≤ op ∧ op ≤ 0x3F)
  | .reserved40 op => decide (0x40 ≤ op ∧ op ≤ 0x7F)
  | .reserved80 op => decide (0x80 ≤ op ∧ op ≤ 0xFF)

end Sys2Proof
end

