-- ==== Sys2Proof/Decode.lean ====
section
/-! DEFINITION. Decoding of the 64-bit command format `CMD64` (30_encoding.md R100 to R107), the transport's byte
order (20_memory.md R83), and an encoder written from the same tables. -/

namespace Sys2Proof

/-- `OP = W0[31:24]` (R100). -/
def fieldOp (w0 : Word) : Nat := (w0.extractLsb' 24 8).toNat

/-- `A = W0[23:16]` (R100). -/
def fieldA (w0 : Word) : BitVec 8 := w0.extractLsb' 16 8

/-- `B = W0[15:0]` (R100). -/
def fieldB (w0 : Word) : BitVec 16 := w0.extractLsb' 0 16

/-- The command an opcode selects, with its operands read from the other fields (R101 to R104). Total: every
opcode selects exactly one row (R105); fields a row does not use are not read (R106). -/
def decode (w0 w1 : Word) : Instr :=
  let op := fieldOp w0
  let key := (fieldA w0).toInt
  let id := (fieldA w0).toNat
  if op = 0x00 then .nop
  else if op = 0x01 then .noteOn key ⟨w1⟩
  else if op = 0x02 then .noteOff key
  else if op = 0x03 then .allNotesOff
  else if op = 0x04 then .allSoundOff
  else if op = 0x05 then .sustain ((fieldB w0).getLsbD 0)
  else if op = 0x06 then .pitchBend ⟨w1⟩
  else if op = 0x07 then .modWheel ⟨w1⟩
  else if op = 0x08 then .setParam id ⟨w1⟩
  else if op = 0x09 then .getParam id
  else if op = 0x0A then .setSampleRate ⟨w1⟩
  else if op = 0x0B then .render (fieldB w0).toNat
  else if op < 0x10 then .reserved0C op
  else if op < 0x20 then .reserved10 op
  else if op < 0x40 then .reserved20 op
  else if op < 0x80 then .reserved40 op
  else .reserved80 op

/-- Why a byte string is no command. The only reason there is: the host did not transfer a whole command
(20_memory.md R84: a partial command does not exist at the interface). Safe: the block never sees it. -/
inductive DecodeError
  /-- The bytes are not the eight bytes of one command. -/
  | notOneCommand (length : Nat)
  deriving DecidableEq, Repr

/-- The four bytes of a word as a transport carries them, least significant first (20_memory.md R83). -/
def wordBytes (w : Word) : List Byte :=
  [w.extractLsb' 0 8, w.extractLsb' 8 8, w.extractLsb' 16 8, w.extractLsb' 24 8]

/-- The word of four transported bytes, least significant first (20_memory.md R83). -/
def wordOfBytes (b0 b1 b2 b3 : Byte) : Word := b3 ++ b2 ++ b1 ++ b0

/-- The bytes of one command: word `W0`, then word `W1` (20_memory.md R83, R84). -/
def decodeBytes : List Byte → Except DecodeError Instr
  | [a0, a1, a2, a3, b0, b1, b2, b3] => .ok (decode (wordOfBytes a0 a1 a2 a3) (wordOfBytes b0 b1 b2 b3))
  | bs => .error (.notOneCommand bs.length)

/-- `W0` with the given opcode and fields (R100). -/
def packW0 (op : Nat) (a : BitVec 8) (b : BitVec 16) : Word := BitVec.ofNat 8 op ++ a ++ b

/-- The words `(W0, W1)` an assembler gives a command, unused fields zero (30_encoding.md R106, R108). -/
def encode : Instr → Word × Word
  | .nop => (packW0 0x00 0 0, 0)
  | .noteOn key x => (packW0 0x01 (BitVec.ofInt 8 key) 0, x.bits)
  | .noteOff key => (packW0 0x02 (BitVec.ofInt 8 key) 0, 0)
  | .allNotesOff => (packW0 0x03 0 0, 0)
  | .allSoundOff => (packW0 0x04 0 0, 0)
  | .sustain down => (packW0 0x05 0 (if down then 1 else 0), 0)
  | .pitchBend x => (packW0 0x06 0 0, x.bits)
  | .modWheel x => (packW0 0x07 0 0, x.bits)
  | .setParam id x => (packW0 0x08 (BitVec.ofNat 8 id) 0, x.bits)
  | .getParam id => (packW0 0x09 (BitVec.ofNat 8 id) 0, 0)
  | .setSampleRate x => (packW0 0x0A 0 0, x.bits)
  | .render frames => (packW0 0x0B 0 (BitVec.ofNat 16 frames), 0)
  | .reserved0C op => (packW0 op 0 0, 0)
  | .reserved10 op => (packW0 op 0 0, 0)
  | .reserved20 op => (packW0 op 0 0, 0)
  | .reserved40 op => (packW0 op 0 0, 0)
  | .reserved80 op => (packW0 op 0 0, 0)

/-- The words of a command as a transport's bytes: `W0` first (20_memory.md R83). -/
def encodeBytes (i : Instr) : List Byte := wordBytes (encode i).1 ++ wordBytes (encode i).2

/-- The word pair of an instruction whose bits are `w`: bit 0 is the least significant bit of `W0`, bit 32 the least
significant bit of `W1`; bits at and above `nbits` are 0. -/
def tableWords (nbits w : Nat) : Word × Word :=
  let v := w % 2 ^ nbits
  (BitVec.ofNat 32 v, BitVec.ofNat 32 (v / 2 ^ 32))

/-- What the decoder reads from a table row's bits, laid out as the transport's eight bytes. A row longer than a
command is no command. -/
def decodeTableWord (nbits w : Nat) : Option Instr :=
  let ws := tableWords nbits w
  if 64 < nbits then none
  else (decodeBytes (wordBytes ws.1 ++ wordBytes ws.2)).toOption

end Sys2Proof
end

