-- ==== Sys2Proof/Machine/Port.lean ====
section
/-! DEFINITION. The block's interfaces `CMD`, `RESET` and `OUT` between steps (10_state.md R30, 70_reset_and_hazards.md
R390, R400): what the block does next with what the host offers, and the byte order in which a transport carries what the
block gives the host (20_memory.md R83). -/

namespace Sys2Proof.Machine

/-- The bytes of one sample as a transport carries them: an `S16` sample is one 16-bit unit, least significant byte first
(20_memory.md R83); an `F32` sample fills a whole word, carried as the words of R83 are (DEDUCED, log entry 20). -/
def sampleBytes : Sample → List Byte
  | .s16 v => [v.extractLsb' 0 8, v.extractLsb' 8 8]
  | .f32 x => wordBytes x.bits

/-- The bytes of a run of samples of `OUT`, in the order they were appended (10_state.md R33, 20_memory.md R83). -/
def streamBytes (xs : List Sample) : List Byte := xs.flatMap sampleBytes

/-- The bytes of `RDATA` as a transport carries them (20_memory.md R83). -/
def State.rdataBytes (s : State) : List Byte := wordBytes s.rdata

/-- What one step does: accept a command, or something else that leaves a next state. -/
inductive PortAction
  /-- A command is accepted and executes from this state. -/
  | accept (i : Instr) (s : State)
  /-- No command is accepted; the next state. -/
  | advance (s : State)
  deriving DecidableEq, Repr

/-- Between commands (`REMAIN = 0`) the block takes what the host offers next; with nothing offered it waits. -/
def idlePort (s : State) : PortAction :=
  match s.host with
  | [] => .advance s
  | .command w0 w1 :: rest => .accept (decode w0 w1) { s with host := rest }
  | .reset :: rest => .advance (State.applyReset { s with host := rest })
  | .takes n :: rest => .advance { s with host := rest, hostTakes := n }

/-- A RENDER that waits for the host accepts no command (10_state.md R30). When the host consumes again it goes on; when
`RESET` is asserted it ends with its remaining frames not run, and reset applies (70_reset_and_hazards.md R390, R400). -/
def waitingPort (s : State) : State :=
  match s.host with
  | [] => s
  | .command _ _ :: _ => s
  | .reset :: rest => State.applyReset { s with host := rest, remain := 0#16 }
  | .takes n :: rest => { s with host := rest, hostTakes := n }

/-- The block's next action. -/
def portAction (s : State) : PortAction :=
  if s.remain = 0#16 then idlePort s
  else if s.hostTakes = some 0 then .advance (waitingPort s)
  else .advance (runRender s)

/-- The host presents one command, to be accepted next: it stands first in the host's order and no RENDER is in
progress. -/
def State.presentCommand (s : State) (w0 w1 : Word) : State :=
  { s with remain := 0#16, host := .command w0 w1 :: s.host }

end Sys2Proof.Machine
end

