-- ==== Sys2Proof/Machine/Step.lean ====
section
/-! DEFINITION. One step: the port's next action, and the command it accepts executed (20_memory.md R86). -/

namespace Sys2Proof.Machine

/-- One step of the block: a command runs to completion, or a RENDER that waited goes on, or the block takes another
host event, or it waits. -/
def step (s : State) : Host.Outcome State Fault Refusal :=
  match portAction s with
  | .accept i s' => exec i s'
  | .advance s' => .next s'

/-- The host presents the instruction whose bits are `w` as the next command (log entry 1). -/
def State.withFetchWord (s : State) (nbits w : Nat) : State :=
  s.presentCommand (tableWords nbits w).1 (tableWords nbits w).2

end Sys2Proof.Machine
end

