-- ==== Sys2Proof/Safety.lean ====
section
/-! DEFINITION. The terms of the claims: the value of a binary32, the legal values of every register (10_state.md R35, R40,
R42, R50, R51; 46_control.md R341), and the properties of the transcendental functions that the rules name. -/

namespace Sys2Proof

/-- The value of a binary32 that is not a NaN (infinity reads as 2^128, above every finite value). -/
def F32.val (x : F32) : ℚ := (x.units : ℚ) / 2 ^ 149

/-- `lo <= x <= hi` as IEEE comparisons: in particular `x` is not a NaN. -/
def F32.within (lo hi x : F32) : Bool := F32.le lo x && F32.le x hi

/-- The encoding is not that of -0.0. -/
def F32.notNegZero (x : F32) : Bool := decide (x.bits ≠ 0x80000000#32)

/-- The value is an integer. -/
def F32.isInteger (x : F32) : Bool := decide (x.units % (F32.one149 : Int) = 0)

/-- `x` is the finite binary32 nearest to `v`, ties to the even significand (00_scope.md R9). -/
def F32.nearest (v : ℚ) (x : F32) : Prop :=
  x.isFinite = true ∧
  ∀ y : F32, y.isFinite = true →
    |x.val - v| ≤ |y.val - v| ∧ (|x.val - v| = |y.val - v| → y.val = x.val ∨ x.mag % 2 = 0)

/-- The properties of the construction functions that the rules use (00_scope.md R10): `exp2f` gives no NaN, nothing
negative, and lies between powers of two as its argument lies between integers (41_envelope.md R172, 43_voice.md R236);
`sinf` lies in [-1.0, 1.0] on the LFO's arguments (43_voice.md R242); `tanf` is finite, not negative and at most 8 on
(0.0, 1.4138] (42_filter.md R204). -/
structure LibOk (l : TransLib) : Prop where
  exp2_notNaN : ∀ x : F32, x.isNaN = false → (l.exp2 x).isNaN = false
  exp2_nonneg : ∀ x : F32, x.isNaN = false → 0 ≤ (l.exp2 x).val
  exp2_ge : ∀ (x : F32) (k : Int), x.isNaN = false → -126 ≤ k → k ≤ 127 → (k : ℚ) ≤ x.val → (2 : ℚ) ^ k ≤ (l.exp2 x).val
  exp2_le : ∀ (x : F32) (k : Int), x.isNaN = false → -126 ≤ k → k ≤ 127 → x.val ≤ (k : ℚ) → (l.exp2 x).val ≤ (2 : ℚ) ^ k
  sin_bounds : ∀ x : F32, x.isNaN = false → 0 ≤ x.val → x.val ≤ 7 →
    (l.sin x).isNaN = false ∧ -1 ≤ (l.sin x).val ∧ (l.sin x).val ≤ 1
  tan_bounds : ∀ x : F32, x.isNaN = false → 0 ≤ x.val → x.val ≤ 707 / 500 →
    (l.tan x).isNaN = false ∧ 0 ≤ (l.tan x).val ∧ (l.tan x).val ≤ 8

end Sys2Proof

namespace Sys2Proof.Machine

/-- Legal construction parameters (00_scope.md R6). -/
def constructionLegal (c : Construction) : Bool :=
  decide (1 ≤ c.poolSize) && decide (c.poolSize ≤ 32) && F32.within c8000 c192000 c.fs0

/-- A legal value of a parameter register: within its bounds, an integer if discrete (10_state.md R42), not a NaN and not
-0.0 (46_control.md R341). -/
def paramLegal (P : Nat) (p : Param) (x : F32) : Bool :=
  F32.within (paramRow P p).lo (paramRow P p).hi x && F32.notNegZero x &&
    match (paramRow P p).kind with
    | .continuous => true
    | .discrete => x.isInteger

/-- Every parameter register holds a legal value (R42). -/
def paramsLegal (s : State) : Bool := allParams.all fun p => paramLegal s.cfg.poolSize p (s.param p)

/-- The global registers hold legal values (10_state.md R35, 46_control.md R341). -/
def globalsLegal (s : State) : Bool :=
  F32.within c8000 c192000 s.fs &&
  (F32.within cNeg1 c1 s.bend && F32.notNegZero s.bend) &&
  (F32.within c0 c1 s.wheel && F32.notNegZero s.wheel)

/-- The register invariant: construction parameters, pool size, parameter registers and global registers (10_state.md R35,
R42, R50). -/
def registersLegal (s : State) : Bool :=
  constructionLegal s.cfg && decide (s.voices.length = s.cfg.poolSize) && paramsLegal s && globalsLegal s

/-- A gate `HELD` or `SUSTAINED` goes with an amplitude envelope in `ATTACK`, `DECAY` or `SUSTAIN`; a gate `RELEASED` with
one in `RELEASE` or `IDLE` (10_state.md R51, 44_voice_manager.md R273). -/
def gateMatchesStage (v : Voice) : Bool :=
  match v.gate with
  | .released => decide (v.amp.stage = .idle) || decide (v.amp.stage = .release)
  | .held | .sustained =>
    decide (v.amp.stage = .attack) || decide (v.amp.stage = .decay) || decide (v.amp.stage = .sustain)

/-- An envelope in `IDLE` has level 0.0 (10_state.md R51). -/
def idleIsSilent (e : EnvState) : Bool := !decide (e.stage = .idle) || decide (e.level = c0)

/-- The lifecycle invariant of one voice in a pool of `P` (10_state.md R50, R51): gate and stage agree, idle envelopes are
silent, a voice not triggered since its reset is at reset, integers lie in their ranges, the velocity in [0.0, 1.0]. -/
def voiceLegal (P : Nat) (v : Voice) : Bool :=
  gateMatchesStage v && idleIsSilent v.amp && idleIsSilent v.flt &&
  (v.assigned || decide (v = Voice.reset)) && (v.gvalid == v.assigned) &&
  decide (-128 ≤ v.key) && decide (v.key ≤ 127) && decide (0 ≤ v.note) && decide (v.note ≤ 127) &&
  decide (v.copy < v.uniN) && decide (v.uniN ≤ P) &&
  (F32.within c0 c1 v.vel && F32.notNegZero v.vel)

/-- Every voice of the pool satisfies the lifecycle invariant. -/
def voicesLegal (s : State) : Bool := s.voices.all (voiceLegal s.cfg.poolSize)

/-- A phase in [0.0, 1.0) (10_state.md R51). -/
def phaseLegal (x : F32) : Bool := F32.le c0 x && F32.lt x c1

/-- A filter integrator within `[-FILT_LIM, FILT_LIM]` (10_state.md R51, 42_filter.md R206). -/
def filtLegal (x : F32) : Bool := F32.within (c0.sub cFiltLim) cFiltLim x

/-- An LFO state: phase in [0.0, 1.0), sample-and-hold in [-1.0, 1.0) (10_state.md R35, R50). -/
def lfoLegal (l : LfoState) : Bool := phaseLegal l.phase && (F32.le cNeg1 l.sh && F32.lt l.sh c1)

/-- The bound `[-1.0, 128.0]` of a glide pitch: a note 0..127 plus a tune in [-1.0, 1.0]. -/
def pitchLegal (x : F32) : Bool := F32.within cNeg1 ⟨0x43000000#32⟩ x

/-- The numerical invariant of one voice: every value of the datapath within its range (10_state.md R50, R51), pending
samples within [-8.0, 8.0]. The glide counter of a glide in progress stays below the longest portamento time in ticks, so
that it ends below 2^24 (43_voice.md R231). -/
def voiceBounded (v : Voice) : Bool :=
  F32.within c0 c1 v.amp.level && F32.within c0 c1 v.flt.level &&
  phaseLegal v.osc1.phase && phaseLegal v.osc2.phase &&
  F32.within (c0.sub c8) c8 v.osc1.pend && F32.within (c0.sub c8) c8 v.osc2.pend &&
  lfoLegal v.lfo &&
  filtLegal v.filt.s1.ic1 && filtLegal v.filt.s1.ic2 && filtLegal v.filt.s2.ic1 && filtLegal v.filt.s2.ic2 &&
  pitchLegal v.gp && pitchLegal v.gfrom && pitchLegal v.gto &&
  decide (v.gn ≤ 2 ^ 22) && (F32.eq v.gp v.gto || decide (v.gn < 2 ^ 22))

/-- A legal sample: -32767..32767, or a binary32 in [-1.0, 1.0] (10_state.md R33, 45_render_mixer.md R320). -/
def sampleLegal : Sample → Bool
  | .s16 v => decide (-32767 ≤ v.toInt)
  | .f32 x => F32.within cNeg1 c1 x

/-- The numerical invariant: every voice, the global LFO, every sample emitted. -/
def datapathBounded (s : State) : Bool :=
  s.voices.all voiceBounded && lfoLegal s.glfo && s.out.all sampleLegal && s.outKept.all sampleLegal

/-- `NOISE` of the tick that follows state `s` (45_render_mixer.md R311, R313). -/
def tickNoise (s : State) : F32 := noiseSample (rngNext s.rng)

/-- `GLV` of the tick that follows state `s` (45_render_mixer.md R319). -/
def tickGlobalValue (s : State) : Option F32 := (globalLfo s (tickNoise s)).2

/-- The sample of silence in an output format (45_render_mixer.md R320). -/
def silence : OutFmt → Sample
  | .s16 => .s16 0#16
  | .f32 => .f32 c0

/-- The state after a list of commands, one after another (20_memory.md R86). -/
def runCommands : List Instr → State → State
  | [], s => s
  | i :: rest, s =>
    match exec i s with
    | .next t => runCommands rest t
    | .fault _ => s
    | .refused _ => s

/-- Voice `j` is the candidate `w` of an allocation: below `V`, not taken (44_voice_manager.md R273). -/
def isCandidate (s : State) (V : Nat) (taken : List Nat) (j : Nat) (w : Voice) : Prop :=
  s.voices[j]? = some w ∧ j < V ∧ j ∉ taken

/-- The three invariants of the claims together. -/
def stateLegal (s : State) : Bool := registersLegal s && voicesLegal s && datapathBounded s

end Sys2Proof.Machine
end

