-- ==== Sys2Proof/Certificates/Slice0/Obligations.lean ====
section
/-! DEFINITION. The statements about OBXD-CORE that the provers are asked for: one proposition each, named after what it
says. OBLIGATIONS.json lists them with their rules. -/

open Sys2Proof Sys2Proof.Machine

/-! ### Encoding (30_encoding.md, 20_memory.md) -/

/-- Decoding the encoding of any well-formed command gives the command back, with every operand at every value its field
holds. -/
def Obligations.DecodeEncodeAgree : Prop :=
  ∀ i : Instr, i.wellFormed = true → decode (encode i).1 (encode i).2 = i

/-- Every pair of words decodes to a well-formed command, and encoding that command gives words of the same meaning. -/
def Obligations.EveryPairDecodes : Prop :=
  ∀ w0 w1 : Word,
    (decode w0 w1).wellFormed = true ∧ decode (encode (decode w0 w1)).1 (encode (decode w0 w1)).2 = decode w0 w1

/-- Which command a pair of words is, and how each operand is read: `OP`, `A` and `B` as digits of `W0`, the key
sign-extended, the id and the frame count zero-extended, `down` the lowest bit of `B`, `x` the binary32 of `W1`. -/
def Obligations.OpcodeSelectsRow : Prop :=
  ∀ w0 w1 : Word, ∀ op a b : Nat, op = w0.toNat / 2 ^ 24 → a = w0.toNat / 2 ^ 16 % 2 ^ 8 → b = w0.toNat % 2 ^ 16 →
    ∀ key : Int, key = (if a < 128 then (a : Int) else (a : Int) - 256) →
      (op = 0x00 → decode w0 w1 = .nop) ∧
      (op = 0x01 → decode w0 w1 = .noteOn key ⟨w1⟩) ∧
      (op = 0x02 → decode w0 w1 = .noteOff key) ∧
      (op = 0x03 → decode w0 w1 = .allNotesOff) ∧
      (op = 0x04 → decode w0 w1 = .allSoundOff) ∧
      (op = 0x05 → decode w0 w1 = .sustain (decide (b % 2 = 1))) ∧
      (op = 0x06 → decode w0 w1 = .pitchBend ⟨w1⟩) ∧
      (op = 0x07 → decode w0 w1 = .modWheel ⟨w1⟩) ∧
      (op = 0x08 → decode w0 w1 = .setParam a ⟨w1⟩) ∧
      (op = 0x09 → decode w0 w1 = .getParam a) ∧
      (op = 0x0A → decode w0 w1 = .setSampleRate ⟨w1⟩) ∧
      (op = 0x0B → decode w0 w1 = .render b) ∧
      (0x0C ≤ op → op ≤ 0x0F → decode w0 w1 = .reserved0C op) ∧
      (0x10 ≤ op → op ≤ 0x1F → decode w0 w1 = .reserved10 op) ∧
      (0x20 ≤ op → op ≤ 0x3F → decode w0 w1 = .reserved20 op) ∧
      (0x40 ≤ op → op ≤ 0x7F → decode w0 w1 = .reserved40 op) ∧
      (0x80 ≤ op → decode w0 w1 = .reserved80 op)

/-- A field a command does not use has no effect on it, and is zero in the assembled words. -/
def Obligations.UnusedFieldsAreIgnored : Prop :=
  (∀ v0 v1 w0 w1 : Word, ∀ op : Nat, op = v0.toNat / 2 ^ 24 → op = w0.toNat / 2 ^ 24 →
    (op = 0x01 ∨ op = 0x02 ∨ op = 0x08 ∨ op = 0x09 → v0.toNat / 2 ^ 16 % 2 ^ 8 = w0.toNat / 2 ^ 16 % 2 ^ 8) →
    (op = 0x0B → v0.toNat % 2 ^ 16 = w0.toNat % 2 ^ 16) →
    (op = 0x05 → v0.toNat % 2 = w0.toNat % 2) →
    (op = 0x01 ∨ op = 0x06 ∨ op = 0x07 ∨ op = 0x08 ∨ op = 0x0A → v1 = w1) →
      ∀ s : State, exec (decode v0 v1) s = exec (decode w0 w1) s) ∧
  (∀ i : Instr, i.wellFormed = true → ∀ op : Nat, op = (encode i).1.toNat / 2 ^ 24 →
    (¬(op = 0x01 ∨ op = 0x02 ∨ op = 0x08 ∨ op = 0x09) → (encode i).1.toNat / 2 ^ 16 % 2 ^ 8 = 0) ∧
    (¬(op = 0x05 ∨ op = 0x0B) → (encode i).1.toNat % 2 ^ 16 = 0) ∧
    (op = 0x05 → (encode i).1.toNat % 2 ^ 16 ≤ 1) ∧
    (¬(op = 0x01 ∨ op = 0x06 ∨ op = 0x07 ∨ op = 0x08 ∨ op = 0x0A) → (encode i).2 = 0#32))

/-- A transport carries a command as eight bytes, `W0` before `W1`, each word least significant byte first. That a byte
string of any other length is refused by name is the model's choice (log entry 15). -/
def Obligations.TransportByteOrder : Prop :=
  (∀ w0 w1 : Word, decodeBytes
      [BitVec.ofNat 8 w0.toNat, BitVec.ofNat 8 (w0.toNat / 2 ^ 8), BitVec.ofNat 8 (w0.toNat / 2 ^ 16),
        BitVec.ofNat 8 (w0.toNat / 2 ^ 24),
        BitVec.ofNat 8 w1.toNat, BitVec.ofNat 8 (w1.toNat / 2 ^ 8), BitVec.ofNat 8 (w1.toNat / 2 ^ 16),
        BitVec.ofNat 8 (w1.toNat / 2 ^ 24)] = .ok (decode w0 w1)) ∧
  (∀ i : Instr, i.wellFormed = true → decodeBytes (encodeBytes i) = .ok i) ∧
  (∀ bs : List Byte, bs.length ≠ 8 → decodeBytes bs = .error (.notOneCommand bs.length))

/-- The worked encodings of the encoding chapter, both ways. -/
def Obligations.WorkedEncodings : Prop :=
  (encode (.noteOn 60 ⟨0x3F800000#32⟩) = (0x013C0000#32, 0x3F800000#32) ∧
    decode 0x013C0000#32 0x3F800000#32 = .noteOn 60 ⟨0x3F800000#32⟩) ∧
  (encode (.noteOn (-3) ⟨0x3F000000#32⟩) = (0x01FD0000#32, 0x3F000000#32) ∧
    decode 0x01FD0000#32 0x3F000000#32 = .noteOn (-3) ⟨0x3F000000#32⟩) ∧
  (encode (.noteOff 60) = (0x023C0000#32, 0x00000000#32) ∧ decode 0x023C0000#32 0x00000000#32 = .noteOff 60) ∧
  (encode (.sustain true) = (0x05000001#32, 0x00000000#32) ∧ decode 0x05000001#32 0x00000000#32 = .sustain true) ∧
  (encode (.pitchBend ⟨0xBF800000#32⟩) = (0x06000000#32, 0xBF800000#32) ∧
    decode 0x06000000#32 0xBF800000#32 = .pitchBend ⟨0xBF800000#32⟩) ∧
  (encode (.setParam 0x20 ⟨0x3F000000#32⟩) = (0x08200000#32, 0x3F000000#32) ∧
    decode 0x08200000#32 0x3F000000#32 = .setParam 0x20 ⟨0x3F000000#32⟩) ∧
  (encode (.getParam 0x21) = (0x09210000#32, 0x00000000#32) ∧ decode 0x09210000#32 0x00000000#32 = .getParam 0x21) ∧
  (encode (.setSampleRate ⟨0x473B8000#32⟩) = (0x0A000000#32, 0x473B8000#32) ∧
    decode 0x0A000000#32 0x473B8000#32 = .setSampleRate ⟨0x473B8000#32⟩) ∧
  (encode (.render 128) = (0x0B000080#32, 0x00000000#32) ∧ decode 0x0B000080#32 0x00000000#32 = .render 128)

/-! ### Steps, order, reset, back-pressure (20_memory.md, 60_exceptions.md, 70_reset_and_hazards.md) -/

/-- When no RENDER is in progress and the host offers a command, the step is the execution of the command its words decode
to, from the same state without that command; and a command the host presents by its encoding runs as the very next step.
The list of what the host offers, the presenting of a command, and so which step runs it, are the model's choice (log
entry 1). -/
def Obligations.StepRunsDecodedCommand : Prop :=
  (∀ (s : State) (w0 w1 : Word) (rest : List HostEvent), s.remain = 0#16 → s.host = .command w0 w1 :: rest →
    step s = exec (decode w0 w1) { s with host := rest }) ∧
  (∀ (s : State) (i : Instr), i.wellFormed = true →
    step (s.presentCommand (encode i).1 (encode i).2) = exec i { s with remain := 0#16 })

/-- No command fails and no step stops: from every state each answers a next state. -/
def Obligations.NoCommandFails : Prop :=
  (∀ (i : Instr) (s : State), ∃ t, exec i s = .next t) ∧ ∀ s : State, ∃ t, step s = .next t

/-- `RESET` at a command boundary leaves every piece of state at its reset value. -/
def Obligations.ResetValues : Prop :=
  ∀ (s : State) (rest : List HostEvent), s.remain = 0#16 → s.host = .reset :: rest →
    ∃ t, step s = .next t ∧
      t.out = [] ∧ t.rdata = 0x00000000#32 ∧ t.remain = 0#16 ∧ t.fs = s.cfg.fs0 ∧ t.pedal = false ∧
      t.bend = ⟨0x00000000#32⟩ ∧ t.wheel = ⟨0x00000000#32⟩ ∧ t.rng = s.cfg.seed0 ∧ t.age = 0#32 ∧
      t.glfo = ⟨⟨0x00000000#32⟩, ⟨0x00000000#32⟩⟩ ∧
      (∀ p : Param, t.param p = (paramRow s.cfg.poolSize p).reset) ∧
      t.voices.length = s.cfg.poolSize ∧
      ∀ v ∈ t.voices, v =
        { assigned := false, key := 0, note := 0, vel := ⟨0x00000000#32⟩, gate := .released, age := 0#32, copy := 0,
          uniN := 1, gp := ⟨0x00000000#32⟩, gfrom := ⟨0x00000000#32⟩, gto := ⟨0x00000000#32⟩, gn := 0, gvalid := false,
          amp := ⟨.idle, ⟨0x00000000#32⟩⟩, flt := ⟨.idle, ⟨0x00000000#32⟩⟩,
          osc1 := ⟨⟨0x00000000#32⟩, ⟨0x00000000#32⟩⟩, osc2 := ⟨⟨0x00000000#32⟩, ⟨0x00000000#32⟩⟩,
          lfo := ⟨⟨0x00000000#32⟩, ⟨0x00000000#32⟩⟩,
          filt := ⟨⟨⟨0x00000000#32⟩, ⟨0x00000000#32⟩⟩, ⟨⟨0x00000000#32⟩, ⟨0x00000000#32⟩⟩⟩ }

/-- No step changes the construction parameters; reset keeps the samples appended before, which stay for the host: how the
model keeps them apart from the restarted stream is its choice (log entry 4). -/
def Obligations.ConstructionAndSamplesSurvive : Prop :=
  (∀ s : State, ∃ t, step s = .next t ∧ t.cfg = s.cfg) ∧
  ∀ (s : State) (rest : List HostEvent), s.remain = 0#16 → s.host = .reset :: rest →
    ∃ t, step s = .next t ∧ t.outKept = s.outKept ++ s.out ∧ t.host = rest ∧ t.hostTakes = s.hostTakes

/-- While a RENDER waits for the host it accepts no command, and nothing is lost or repeated: the state stays. `RESET` ends
it with its remaining frames not run, as a reset at a command boundary. A host that will consume again is noted, and nothing
else changes, while a RENDER waits as between commands. All four things the host can do are covered (how they are held is
the model's choice: log entries 1, 2 and 3). -/
def Obligations.WaitingRenderTakesOnlyReset : Prop :=
  (∀ (s : State) (rest : List HostEvent), s.remain ≠ 0#16 → s.hostTakes = some 0 →
    (∀ w0 w1 : Word, s.host = .command w0 w1 :: rest → step s = .next s) ∧
    (s.host = [] → step s = .next s) ∧
    (s.host = .reset :: rest → ∃ t, step s = .next t ∧ step { s with remain := 0#16 } = .next t ∧ t.remain = 0#16) ∧
    (∀ k : Option Nat, s.host = .takes k :: rest → step s = .next { s with host := rest, hostTakes := k })) ∧
  ∀ (s : State) (rest : List HostEvent), s.remain = 0#16 →
    (s.host = [] → step s = .next s) ∧
    (∀ k : Option Nat, s.host = .takes k :: rest → step s = .next { s with host := rest, hostTakes := k })

/-- A host that stops consuming after `k` frames and later consumes again gets the same samples, and leaves the same state,
as one that never stops; a host that takes at least as many frames as the RENDER has never makes it wait (the model's form of
waiting: log entry 2). -/
def Obligations.BackPressureIsTransparent : Prop :=
  ∀ (s : State) (n k : Nat), n ≤ 65535 →
    ∃ t u, exec (.render n) { s with hostTakes := none } = .next t ∧
      exec (.render n) { s with hostTakes := some k } = .next u ∧
      (k < n → u.remain.toNat = n - k ∧ u.out.length = s.out.length + 2 * k ∧
        step { u with hostTakes := none } = .next t) ∧
      (n ≤ k → u = { t with hostTakes := some (k - n) })

/-! ### RENDER and the tick (45_render_mixer.md) -/

/-- For a host that consumes every sample (how the model holds the host is its choice: log entry 2), RENDER runs exactly
`frames` ticks, appends `2 * frames` samples after those that stand, ends with `REMAIN` 0, does nothing for 0 frames, and
splits: `RENDER a` then `RENDER b` is `RENDER a+b`. -/
def Obligations.RenderRunsItsTicks : Prop :=
  ∀ (s : State) (n : Nat), n ≤ 65535 → s.hostTakes = none →
    exec (.render n) s = .next { Nat.iterate tick n s with remain := 0#16 } ∧
    (Nat.iterate tick n s).out.length = s.out.length + 2 * n ∧
    s.out <+: (Nat.iterate tick n s).out ∧
    (n = 0 → s.remain = 0#16 → exec (.render n) s = .next s) ∧
    ∀ a b : Nat, a + b = n → ∃ u, exec (.render a) s = .next u ∧ exec (.render b) u = exec (.render n) s

/-- What a tick leaves alone: construction parameters, `FS`, `PEDAL`, `BEND`, `WHEEL`, `AGE`, `RDATA`, `REMAIN`, the
parameter registers; and of every voice what only a trigger, a release or a reset writes. -/
def Obligations.TickFrame : Prop :=
  ∀ s : State,
    tick s = { s with rng := (tick s).rng, glfo := (tick s).glfo, voices := (tick s).voices, out := (tick s).out } ∧
    (tick s).voices.length = s.voices.length ∧
    ∀ (i : Nat) (v : Voice), s.voices[i]? = some v → ∃ w : Voice, (tick s).voices[i]? = some w ∧
      w = { v with gp := w.gp, gn := w.gn, amp := w.amp, flt := w.flt, osc1 := w.osc1, osc2 := w.osc2, lfo := w.lfo,
                   filt := w.filt }

/-- Exactly the voices whose amplitude envelope is not `IDLE` at the start of a tick are rendered in it, each from its own
fields and the tick's shared values; every other voice keeps every field. -/
def Obligations.TickRendersActiveVoices : Prop :=
  ∀ (s : State) (i : Nat) (v : Voice), s.voices[i]? = some v →
    (v.amp.stage = .idle → (tick s).voices[i]? = some v) ∧
    (v.amp.stage ≠ .idle → (tick s).voices[i]? = some (voiceRender s v (tickNoise s) (tickGlobalValue s)).1)

/-- The frame of a tick: the outputs of the active voices summed from +0.0 in ascending index, one rounding per addition,
times the master volume, clamped, converted, and emitted twice. -/
def Obligations.TickEmitsSummedFrame : Prop :=
  ∀ s : State, ∃ x : Sample,
    (tick s).out = s.out ++ [x, x] ∧
    x = convSample s.cfg.outFmt (F32.clamp
      (F32.mul
        (((s.voices.filter fun v => decide (v.amp.stage ≠ .idle)).map fun v =>
          (voiceRender s v (tickNoise s) (tickGlobalValue s)).2).foldl F32.add ⟨0x00000000#32⟩)
        (s.param .masterVolume))
      ⟨0xBF800000#32⟩ ⟨0x3F800000#32⟩)

/-- The noise generator: its next state, once per tick; the noise sample, exact and in [-1.0, 1.0 - 2^-23]; and the first
three values from seed 1. -/
def Obligations.NoiseGenerator : Prop :=
  (∀ s : State, (tick s).rng.toNat = (s.rng.toNat * 1664525 + 1013904223) % 2 ^ 32) ∧
  (∀ r : Word, (noiseSample r).isNaN = false ∧ (noiseSample r).val = ((r.toNat / 256 : Nat) : ℚ) / 2 ^ 23 - 1 ∧
    -1 ≤ (noiseSample r).val ∧ (noiseSample r).val ≤ 1 - 1 / 2 ^ 23) ∧
  (rngNext 1#32 = 0x3C88596C#32 ∧ rngNext 0x3C88596C#32 = 0x5E8885DB#32 ∧ rngNext 0x5E8885DB#32 = 0x8116017E#32) ∧
  (noiseSample 0x3C88596C#32 = ⟨0xBF06EF4E#32⟩ ∧ noiseSample 0x5E8885DB#32 = ⟨0xBE85DDEC#32⟩ ∧
    noiseSample 0x8116017E#32 = ⟨0x3C0B0080#32⟩)

/-- The global LFO advances in every tick with `LFO_SYNC = 1`, whether or not a voice is active, and in no other; with it
on, its value is every voice's and no voice's own LFO advances in the tick. -/
def Obligations.GlobalLfoRuns : Prop :=
  ∀ s : State,
    (s.paramInt .lfoSync = 1 →
      (tick s).glfo = (lfoAdvance s s.glfo (tickNoise s)).1 ∧
      tickGlobalValue s = some (lfoAdvance s s.glfo (tickNoise s)).2 ∧
      (∀ (v : Voice) (x : F32), voiceLfo s v (tickNoise s) (some x) = (v, x)) ∧
      ∀ (i : Nat) (v : Voice), s.voices[i]? = some v → ∃ w : Voice, (tick s).voices[i]? = some w ∧ w.lfo = v.lfo) ∧
    (s.paramInt .lfoSync ≠ 1 → (tick s).glfo = s.glfo ∧ tickGlobalValue s = none)

/-- With no active voice every frame is silence, no voice changes, and the noise generator still advances once per tick. -/
def Obligations.SilentWithoutActiveVoices : Prop :=
  ∀ (s : State) (n : Nat), registersLegal s = true → (∀ v ∈ s.voices, v.amp.stage = .idle) →
    (Nat.iterate tick n s).out = s.out ++ List.replicate (2 * n) (silence s.cfg.outFmt) ∧
    (Nat.iterate tick n s).voices = s.voices ∧
    (Nat.iterate tick n s).rng = Nat.iterate rngNext n s.rng

/-- Conversion to 16 bits: the product with 32767.0 rounded to the nearest integer, ties to even, symmetric full scale,
-32768 never; -0.0 gives 0. Conversion to binary32: the clamped value itself, -0.0 included, never a NaN, an infinity or
outside [-1.0, 1.0]. -/
def Obligations.SampleConversion : Prop :=
  (∀ x : F32, F32.within ⟨0xBF800000#32⟩ ⟨0x3F800000#32⟩ x = true →
    ∃ v : BitVec 16, convSample .s16 x = .s16 v ∧
      |(v.toInt : ℚ) - (x.mul cS16Scale).val| ≤ 1 / 2 ∧
      (|(v.toInt : ℚ) - (x.mul cS16Scale).val| = 1 / 2 → v.toInt % 2 = 0) ∧
      -32767 ≤ v.toInt ∧ v.toInt ≤ 32767) ∧
  (∀ x : F32, convSample .f32 x = .f32 x) ∧
  (∀ a : F32, a.isNaN = false → ∃ x : F32, convSample .f32 (F32.clamp a ⟨0xBF800000#32⟩ ⟨0x3F800000#32⟩) = .f32 x ∧
    F32.within ⟨0xBF800000#32⟩ ⟨0x3F800000#32⟩ x = true) ∧
  convSample .s16 ⟨0x3F800000#32⟩ = .s16 (BitVec.ofInt 16 32767) ∧
  convSample .s16 ⟨0xBF800000#32⟩ = .s16 (BitVec.ofInt 16 (-32767)) ∧
  convSample .s16 ⟨0x80000000#32⟩ = .s16 0#16

/-! ### Arithmetic and the construction functions (00_scope.md) -/

/-- Sums, differences, products and quotients of finite binary32 values are the nearest binary32, ties to even, below the
overflow threshold. -/
def Obligations.ArithmeticRoundsToNearest : Prop :=
  ∀ x y : F32, x.isFinite = true → y.isFinite = true →
    (|x.val + y.val| < 2 ^ 128 - 2 ^ 103 → F32.nearest (x.val + y.val) (F32.add x y)) ∧
    (|x.val - y.val| < 2 ^ 128 - 2 ^ 103 → F32.nearest (x.val - y.val) (F32.sub x y)) ∧
    (|x.val * y.val| < 2 ^ 128 - 2 ^ 103 → F32.nearest (x.val * y.val) (F32.mul x y)) ∧
    (y.val ≠ 0 → |x.val / y.val| < 2 ^ 128 - 2 ^ 103 → F32.nearest (x.val / y.val) (F32.div x y))

/-- The reference `exp2f` is exact at every integer whose power of two is a binary32. -/
def Obligations.Exp2ExactAtIntegers : Prop :=
  ∀ k : Int, -149 ≤ k → k ≤ 127 →
    (F32.exp2Ref (F32.ofInt k)).isFinite = true ∧ (F32.exp2Ref (F32.ofInt k)).val = (2 : ℚ) ^ k

/-! ### Oscillator (40_oscillator.md) -/

/-- The phase accumulator without sync: the sum below 2.0, wrapped by one exact subtraction, in [0.0, 1.0). -/
def Obligations.OscillatorPhase : Prop :=
  ∀ (o : OscState) (dt : F32) (w : Waveform) (pw : F32),
    phaseLegal o.phase = true → F32.within cDtMin cDtMax dt = true →
      let q := o.phase.add dt
      let r := oscAdvance o dt w pw none
      0 ≤ q.val ∧ q.val < 2 ∧
      r.osc.phase.val = (if 1 ≤ q.val then q.val - 1 else q.val) ∧ phaseLegal r.osc.phase = true

/-- The events of a tick: at most two without sync and at most four with it, each at a distance in [0.0, 1.0]. -/
def Obligations.OscillatorEvents : Prop :=
  ∀ (o : OscState) (dt : F32) (w : Waveform) (pw : F32),
    phaseLegal o.phase = true → F32.within cDtMin cDtMax dt = true → F32.within cPwMin cPwMax pw = true →
      (freePath o dt w pw).events.length ≤ 2 ∧
      (∀ e ∈ (freePath o dt w pw).events, F32.within c0 c1 e.d = true) ∧
      (∀ md, (freePath o dt w pw).md = some md → F32.within c0 c1 md = true) ∧
      ∀ sd : F32, F32.within c0 c1 sd = true →
        (syncPath o dt w pw sd).events.length ≤ 4 ∧
        (∀ e ∈ (syncPath o dt w pw sd).events, F32.within c0 c1 e.d = true) ∧
        (syncPath o dt w pw sd).md = none

/-- Every oscillator output is in [-1.0, 1.0], with and without sync, and the new state is legal. -/
def Obligations.OscillatorOutputBounded : Prop :=
  ∀ (o : OscState) (dt : F32) (w : Waveform) (pw : F32) (sd : Option F32),
    phaseLegal o.phase = true → F32.within (c0.sub c8) c8 o.pend = true →
    F32.within cDtMin cDtMax dt = true → F32.within cPwMin cPwMax pw = true →
    (∀ d, sd = some d → F32.within c0 c1 d = true) →
      F32.within cNeg1 c1 (oscAdvance o dt w pw sd).out = true ∧
      phaseLegal (oscAdvance o dt w pw sd).osc.phase = true ∧
      F32.within (c0.sub c8) c8 (oscAdvance o dt w pw sd).osc.pend = true

/-- The worked examples of the oscillator chapter, results and events: saw with and without a wrap, both pulse edges, the
mix, hard sync. -/
def Obligations.OscillatorExamples : Prop :=
  oscAdvance ⟨⟨0x3F600000#32⟩, ⟨0x3F400000#32⟩⟩ ⟨0x3E800000#32⟩ .saw ⟨0x3F000000#32⟩ none
    = ⟨⟨⟨0x3E000000#32⟩, ⟨0xBF000000#32⟩⟩, ⟨0x3F000000#32⟩, some ⟨0x3F000000#32⟩⟩ ∧
  oscAdvance ⟨⟨0x00000000#32⟩, ⟨0x00000000#32⟩⟩ ⟨0x3E800000#32⟩ .saw ⟨0x3F000000#32⟩ none
    = ⟨⟨⟨0x3E800000#32⟩, ⟨0xBF000000#32⟩⟩, ⟨0x00000000#32⟩, none⟩ ∧
  oscAdvance ⟨⟨0x3F400000#32⟩, ⟨0x00000000#32⟩⟩ ⟨0x3E800000#32⟩ .saw ⟨0x3F000000#32⟩ none
    = ⟨⟨⟨0x00000000#32⟩, ⟨0x00000000#32⟩⟩, ⟨0x00000000#32⟩, some ⟨0x00000000#32⟩⟩ ∧
  oscAdvance ⟨⟨0x3EC00000#32⟩, ⟨0x3F800000#32⟩⟩ ⟨0x3E800000#32⟩ .pulse ⟨0x3F000000#32⟩ none
    = ⟨⟨⟨0x3F200000#32⟩, ⟨0xBF400000#32⟩⟩, ⟨0x3F400000#32⟩, none⟩ ∧
  oscAdvance ⟨⟨0x3F600000#32⟩, ⟨0xBF800000#32⟩⟩ ⟨0x3E800000#32⟩ .pulse ⟨0x3F000000#32⟩ none
    = ⟨⟨⟨0x3E000000#32⟩, ⟨0x3F400000#32⟩⟩, ⟨0xBF400000#32⟩, some ⟨0x3F000000#32⟩⟩ ∧
  oscAdvance ⟨⟨0x3F600000#32⟩, ⟨0x00000000#32⟩⟩ ⟨0x3E800000#32⟩ .mix ⟨0x3F000000#32⟩ none
    = ⟨⟨⟨0x3E000000#32⟩, ⟨0x3E000000#32⟩⟩, ⟨0x00000000#32⟩, some ⟨0x3F000000#32⟩⟩ ∧
  oscAdvance ⟨⟨0x3F000000#32⟩, ⟨0x3E800000#32⟩⟩ ⟨0x3E800000#32⟩ .saw ⟨0x3F000000#32⟩ (some ⟨0x3F000000#32⟩)
    = ⟨⟨⟨0x3E000000#32⟩, ⟨0xBF180000#32⟩⟩, ⟨0x3DC00000#32⟩, none⟩ ∧
  (freePath ⟨⟨0x3F600000#32⟩, ⟨0x3F400000#32⟩⟩ ⟨0x3E800000#32⟩ .saw ⟨0x3F000000#32⟩).events = [⟨⟨0x3F000000#32⟩, ⟨0xC0000000#32⟩⟩] ∧
  (freePath ⟨⟨0x00000000#32⟩, ⟨0x00000000#32⟩⟩ ⟨0x3E800000#32⟩ .saw ⟨0x3F000000#32⟩).events = [] ∧
  (freePath ⟨⟨0x3F400000#32⟩, ⟨0x00000000#32⟩⟩ ⟨0x3E800000#32⟩ .saw ⟨0x3F000000#32⟩).events = [⟨⟨0x00000000#32⟩, ⟨0xC0000000#32⟩⟩] ∧
  (freePath ⟨⟨0x3EC00000#32⟩, ⟨0x3F800000#32⟩⟩ ⟨0x3E800000#32⟩ .pulse ⟨0x3F000000#32⟩).events = [⟨⟨0x3F000000#32⟩, ⟨0xC0000000#32⟩⟩] ∧
  (freePath ⟨⟨0x3F600000#32⟩, ⟨0xBF800000#32⟩⟩ ⟨0x3E800000#32⟩ .pulse ⟨0x3F000000#32⟩).events = [⟨⟨0x3F000000#32⟩, ⟨0x40000000#32⟩⟩] ∧
  (freePath ⟨⟨0x3F600000#32⟩, ⟨0x00000000#32⟩⟩ ⟨0x3E800000#32⟩ .mix ⟨0x3F000000#32⟩).events = [⟨⟨0x3F000000#32⟩, ⟨0x00000000#32⟩⟩] ∧
  (syncPath ⟨⟨0x3F000000#32⟩, ⟨0x3E800000#32⟩⟩ ⟨0x3E800000#32⟩ .saw ⟨0x3F000000#32⟩ ⟨0x3F000000#32⟩).events
    = [⟨⟨0x3F000000#32⟩, ⟨0xBFA00000#32⟩⟩]

/-! ### Envelope (41_envelope.md) -/

/-- One tick of the envelope in every stage, and the two lifecycle operations. -/
def Obligations.EnvelopeStages : Prop :=
  ∀ (lib : TransLib) (fs level A D S R : F32),
    envAdvance lib fs ⟨.idle, level⟩ A D S R = ⟨.idle, ⟨0x00000000#32⟩⟩ ∧
    (∀ l, l = level.add (((⟨0x3FC00000#32⟩ : F32).sub level).mul (coefAtt lib fs A)) →
      (F32.le ⟨0x3F800000#32⟩ l = true → envAdvance lib fs ⟨.attack, level⟩ A D S R = ⟨.decay, ⟨0x3F800000#32⟩⟩) ∧
      (F32.le ⟨0x3F800000#32⟩ l = false → envAdvance lib fs ⟨.attack, level⟩ A D S R = ⟨.attack, l⟩)) ∧
    (∀ l, l = level.add ((S.sub level).mul (coefDr lib fs D)) →
      (F32.le (l.sub S) ⟨0x38D1B717#32⟩ = true ∨ F32.eq l level = true →
        envAdvance lib fs ⟨.decay, level⟩ A D S R = ⟨.sustain, S⟩) ∧
      (F32.le (l.sub S) ⟨0x38D1B717#32⟩ = false → F32.eq l level = false →
        envAdvance lib fs ⟨.decay, level⟩ A D S R = ⟨.decay, l⟩)) ∧
    envAdvance lib fs ⟨.sustain, level⟩ A D S R = ⟨.sustain, S⟩ ∧
    (∀ l, l = level.sub (level.mul (coefDr lib fs R)) →
      (F32.le l ⟨0x38D1B717#32⟩ = true → envAdvance lib fs ⟨.release, level⟩ A D S R = ⟨.idle, ⟨0x00000000#32⟩⟩) ∧
      (F32.le l ⟨0x38D1B717#32⟩ = false → envAdvance lib fs ⟨.release, level⟩ A D S R = ⟨.release, l⟩)) ∧
    (∀ g : Stage, envTrigger ⟨g, level⟩ = ⟨.attack, level⟩ ∧
      (g ≠ .idle → envRelease ⟨g, level⟩ = ⟨.release, level⟩)) ∧
    envRelease ⟨.idle, level⟩ = ⟨.idle, level⟩

/-- Envelope levels stay in [0.0, 1.0]; a level never falls in `ATTACK`, never rises in `RELEASE`, and never rises in
`DECAY` toward a sustain level at or below it. -/
def Obligations.EnvelopeBoundedAndMonotone : Prop :=
  ∀ (lib : TransLib) (fs : F32) (e : EnvState) (A D S R : F32), LibOk lib →
    F32.within c8000 c192000 fs = true → F32.within c0 c1 e.level = true →
    F32.within c0 c1 A = true → F32.within c0 c1 D = true → F32.within c0 c1 S = true → F32.within c0 c1 R = true →
      let n := envAdvance lib fs e A D S R
      F32.within c0 c1 n.level = true ∧
      (e.stage = .attack → e.level.val ≤ n.level.val) ∧
      (e.stage = .release → n.level.val ≤ e.level.val) ∧
      (e.stage = .decay → S.val ≤ e.level.val → n.level.val ≤ e.level.val)

/-! ### Filter (42_filter.md) -/

/-- The per-tick coefficients stay in their ranges: cutoff in [10.0, 0.45 FS], `g` not negative and at most 8, damping at
most 2.0, with `SELF_OSC = 0` positive and at least the value it has at resonance 1.0 (0x3D23D700, about 0.04), with
`SELF_OSC = 1` at least the value it has there (0xBD23D700, about -0.04). -/
def Obligations.FilterCoefficientRanges : Prop :=
  ∀ (s : State) (fenv gp lm : F32), LibOk s.cfg.lib → registersLegal s = true →
    F32.within c0 c1 fenv = true → pitchLegal gp = true → F32.within cNeg1 c1 lm = true →
      F32.within cFcMin (cNyqFrac.mul s.fs) (cutoffHz s fenv gp lm) = true ∧
      ((filterG s (cutoffHz s fenv gp lm)).isNaN = false ∧ 0 ≤ (filterG s (cutoffHz s fenv gp lm)).val ∧
        (filterG s (cutoffHz s fenv gp lm)).val ≤ 8) ∧
      ((filterK s).isNaN = false ∧ -1 / 20 ≤ (filterK s).val ∧ (filterK s).val ≤ 2) ∧
      (s.paramInt .selfOsc = 0 → F32.within ⟨0x3D23D700#32⟩ ⟨0x40000000#32⟩ (filterK s) = true ∧ 0 < (filterK s).val) ∧
      (s.paramInt .selfOsc = 1 → F32.within ⟨0xBD23D700#32⟩ ⟨0x40000000#32⟩ (filterK s) = true)

/-- The filter's states and output stay within `[-FILT_LIM, FILT_LIM]` in every mode, at every legal damping, self-oscillating
ones included; from zero state and zero input it stays at exactly +0.0. -/
def Obligations.FilterBounded : Prop :=
  ∀ (g k : F32) (mode : Int), g.isNaN = false → 0 ≤ g.val → g.val ≤ 8 → k.isNaN = false → -1 / 20 ≤ k.val → k.val ≤ 2 →
    (∀ (f : FilterState) (x : F32),
      filtLegal f.s1.ic1 = true → filtLegal f.s1.ic2 = true → filtLegal f.s2.ic1 = true → filtLegal f.s2.ic2 = true →
      F32.within cNeg1 c1 x = true →
        let r := filterProcess f x g k mode
        filtLegal r.2 = true ∧
        filtLegal r.1.s1.ic1 = true ∧ filtLegal r.1.s1.ic2 = true ∧
        filtLegal r.1.s2.ic1 = true ∧ filtLegal r.1.s2.ic2 = true) ∧
    filterProcess ⟨⟨c0, c0⟩, ⟨c0, c0⟩⟩ c0 g k mode = (⟨⟨c0, c0⟩, ⟨c0, c0⟩⟩, c0)

/-- The worked stage steps of the filter chapter: three exact ones, three of the default patch, and the saturation case,
whose band-pass output is the one the stage's equations give in binary32 (the chapter's decimal for it differs from the
sixth digit on: log entry 21); and the second stage's rest in the two-pole modes. -/
def Obligations.FilterExamples : Prop :=
  svf ⟨c0, c0⟩ c1 c1 c2 = (⟨⟨0x3F000000#32⟩, ⟨0x3F000000#32⟩⟩, ⟨⟨0x3E800000#32⟩, ⟨0x3E800000#32⟩, ⟨0x3E800000#32⟩⟩) ∧
  svf ⟨⟨0x3F000000#32⟩, ⟨0x3F000000#32⟩⟩ c1 c1 c2
    = (⟨c0, c1⟩, ⟨⟨0x3F400000#32⟩, ⟨0x3E800000#32⟩, ⟨0xBE800000#32⟩⟩) ∧
  svf ⟨c0, c1⟩ c1 c1 c2 = (⟨c0, c1⟩, ⟨c1, c0, c0⟩) ∧
  svf ⟨c0, c0⟩ c1 ⟨0x3E39AAAD#32⟩ ⟨0x3FCDD2F2#32⟩
    = (⟨⟨0x3E8C2FA5#32⟩, ⟨0x3D4B57C9#32⟩⟩, ⟨⟨0x3CCB57C9#32⟩, ⟨0x3E0C2FA5#32⟩, ⟨0x3F414A6D#32⟩⟩) ∧
  svf ⟨⟨0x3E8C2FA5#32⟩, ⟨0x3D4B57C9#32⟩⟩ c1 ⟨0x3E39AAAD#32⟩ ⟨0x3FCDD2F2#32⟩
    = (⟨⟨0x3ECCBBBB#32⟩, ⟨0x3E2FE9F9#32⟩⟩, ⟨⟨0x3DE2BFEB#32⟩, ⟨0x3EAC75B0#32⟩, ⟨0x3EB1FF51#32⟩⟩) ∧
  svf ⟨⟨0x3ECCBBBB#32⟩, ⟨0x3E2FE9F9#32⟩⟩ c1 ⟨0x3E39AAAD#32⟩ ⟨0x3FCDD2F2#32⟩
    = (⟨⟨0x3EDC88D5#32⟩, ⟨0x3EA51080#32⟩⟩, ⟨⟨0x3E7D057D#32⟩, ⟨0x3ED4A248#32⟩, ⟨0x3DAE4BB6#32⟩⟩) ∧
  svf ⟨⟨0x3F99999A#32⟩, ⟨0x3F99999A#32⟩⟩ c1 ⟨0x40CA0A3F#32⟩ ⟨0xBD23D700#32⟩
    = (⟨⟨0xBF99999A#32⟩, ⟨0x3F971A40#32⟩⟩, ⟨⟨0x3F9859ED#32⟩, ⟨0xBACA8710#32⟩, ⟨0xBE42DF9C#32⟩⟩) ∧
  ∀ (f : FilterState) (x g k : F32) (mode : Int), mode < 3 → (filterProcess f x g k mode).1.s2 = f.s2

/-! ### Voice (43_voice.md) -/

/-- A trigger: every field it writes, the glide's start, what a retrigger restarts and what a legato trigger keeps; the
filter is kept by both. -/
def Obligations.TriggerWritesVoice : Prop :=
  ∀ (s : State) (v : Voice) (key note : Int) (vel : F32) (c N : Nat) (retrig : Bool),
    let w := voiceTrigger s v key note vel c N retrig
    let target := (F32.ofInt note).add (s.param .masterTune)
    (w.assigned = true ∧ w.key = key ∧ w.note = note ∧ w.vel = vel ∧ w.gate = .held ∧ w.age = s.age ∧ w.copy = c ∧
      w.uniN = N ∧ w.gto = target ∧ w.gn = 0 ∧ w.gvalid = true ∧ w.filt = v.filt ∧ w.lfo.sh = v.lfo.sh) ∧
    (v.gvalid = false ∨ F32.eq (portaTime s) ⟨0x00000000#32⟩ = true → w.gp = target ∧ w.gfrom = target) ∧
    (v.gvalid = true → F32.eq (portaTime s) ⟨0x00000000#32⟩ = false → w.gp = v.gp ∧ w.gfrom = v.gp) ∧
    (retrig = false → w.amp = v.amp ∧ w.flt = v.flt ∧ w.lfo = v.lfo ∧ w.osc1 = v.osc1 ∧ w.osc2 = v.osc2) ∧
    (retrig = true → w.amp = ⟨.attack, v.amp.level⟩ ∧ w.flt = ⟨.attack, v.flt.level⟩ ∧
      w.lfo.phase = ⟨0x00000000#32⟩ ∧
      (s.paramInt .oscReset = 1 → w.osc1 = ⟨⟨0x00000000#32⟩, v.osc1.pend⟩ ∧ w.osc2 = ⟨⟨0x00000000#32⟩, v.osc2.pend⟩) ∧
      (s.paramInt .oscReset ≠ 1 → w.osc1 = v.osc1 ∧ w.osc2 = v.osc2))

/-- One glide step keeps every field but the pitch and the counter, keeps the pitch between the glide's start and its
target, leaves a pitch at its target alone, and jumps to the target with portamento off. -/
def Obligations.GlideNeverPassesTarget : Prop :=
  ∀ (s : State) (v : Voice), LibOk s.cfg.lib → registersLegal s = true →
    pitchLegal v.gp = true → pitchLegal v.gfrom = true → pitchLegal v.gto = true → v.gn < 2 ^ 22 →
      let w := glideStep s v
      w = { v with gp := w.gp, gn := w.gn } ∧
      (F32.eq v.gp v.gto = true → w = v) ∧
      (F32.eq v.gp v.gto = false → min v.gfrom.val v.gto.val ≤ w.gp.val ∧ w.gp.val ≤ max v.gfrom.val v.gto.val) ∧
      (F32.eq v.gp v.gto = false → F32.eq (s.param .portamento) c0 = true → w.gp = v.gto)

/-- Phase increments lie in [DT_MIN, DT_MAX] and pulse widths in [PW_MIN, PW_MAX], whatever the modulation. -/
def Obligations.ModulatedPitchAndWidthBounded : Prop :=
  ∀ (s : State) (v : Voice) (fenv lm : F32), LibOk s.cfg.lib → registersLegal s = true →
    pitchLegal v.gp = true → F32.within c0 c1 fenv = true → F32.within cNeg1 c1 lm = true →
    v.copy < v.uniN → v.uniN ≤ 32 →
      F32.within cDtMin cDtMax (pitchDt s (pitch1 s v fenv lm)) = true ∧
      F32.within cDtMin cDtMax (pitchDt s (pitch2 s v fenv lm)) = true ∧
      F32.within cPwMin cPwMax (pulseWidth s .osc1Pw lm) = true ∧
      F32.within cPwMin cPwMax (pulseWidth s .osc2Pw lm) = true

/-- The LFO: the phase advances and wraps by one exact subtraction, stays in [0.0, 1.0), the sample-and-hold takes the noise
sample at a wrap and only there, and the value lies in [-1.0, 1.0]. -/
def Obligations.LfoAdvances : Prop :=
  ∀ (s : State) (l : LfoState) (noise : F32), LibOk s.cfg.lib → registersLegal s = true → lfoLegal l = true →
    F32.le cNeg1 noise = true → F32.lt noise c1 = true →
      let q := l.phase.add ((lfoHz s).div s.fs)
      let r := lfoAdvance s l noise
      r.1.phase.val = (if 1 ≤ q.val then q.val - 1 else q.val) ∧
      r.1.sh = (if s.paramInt .lfoWave = 2 ∧ 1 ≤ q.val then noise else l.sh) ∧
      lfoLegal r.1 = true ∧ F32.within cNeg1 c1 r.2 = true

/-! ### Notes (44_voice_manager.md) -/

/-- The voice an allocation chooses: the lowest key match; else the lowest idle voice; else the oldest releasing; else the
oldest of all, ties to the lowest index. Without a candidate, which R273 says does not happen, it answers none: that clause
is the model's choice (log entry 12). -/
def Obligations.AllocationOrder : Prop :=
  ∀ (s : State) (key : Int) (c V : Nat) (taken : List Nat),
    let cand := isCandidate s V taken
    let matching := fun w : Voice => w.assigned = true ∧ w.key = key ∧ w.copy = c
    let idle := fun w : Voice => w.amp.stage = .idle ∧ w.gate = .released
    let dist := fun w : Voice => (2 ^ 32 + s.age.toNat - w.age.toNat) % 2 ^ 32
    (allocate s key c V taken = none ↔ ∀ j w, ¬cand j w) ∧
    ∀ (v : Voice) (i : Nat), allocate s key c V taken = some (v, i) →
      cand i v ∧
      ((matching v ∧ ∀ j w, cand j w → matching w → i ≤ j) ∨
       ((∀ j w, cand j w → ¬matching w) ∧ idle v ∧ ∀ j w, cand j w → idle w → i ≤ j) ∨
       ((∀ j w, cand j w → ¬matching w ∧ ¬idle w) ∧ v.gate = .released ∧
          ∀ j w, cand j w → w.gate = .released → dist w < dist v ∨ (dist w = dist v ∧ i ≤ j)) ∨
       ((∀ j w, cand j w → ¬matching w ∧ ¬idle w ∧ w.gate ≠ .released) ∧
          ∀ j w, cand j w → dist w < dist v ∨ (dist w = dist v ∧ i ≤ j)))

/-- NOTE_ON with a velocity that is no NaN: `AGE` counts, and `N = min(UNISON_COUNT, VOICE_COUNT)` distinct eligible voices are
triggered as copies 0 to N-1. Copy `c` takes the voice that the allocation chooses in the state the earlier copies left
(`mid c`), with their voices taken, and triggers it with the raw key, the mapped note, the clamped velocity and the new age,
legato exactly for a held or sustained voice with `LEGATO = 1`. The triggered voices are held and active, their filter,
levels and pending samples stay, and nothing else changes. -/
def Obligations.NoteOnTriggersDistinctVoices : Prop :=
  ∀ (s : State) (key : Int) (x : F32), registersLegal s = true → voicesLegal s = true → x.isNaN = false →
    ∃ (t : State) (chosen : List Nat) (mid : Nat → State), exec (.noteOn key x) s = .next t ∧
      t = { s with age := t.age, voices := t.voices } ∧
      t.age.toNat = (s.age.toNat + 1) % 2 ^ 32 ∧
      t.voices.length = s.voices.length ∧
      chosen.Nodup ∧ (chosen.length : Int) = min (s.paramInt .unisonCount) (s.paramInt .voiceCount) ∧
      1 ≤ chosen.length ∧
      (∀ i ∈ chosen, (i : Int) < s.paramInt .voiceCount) ∧
      (∀ i, i ∉ chosen → t.voices[i]? = s.voices[i]?) ∧
      mid 0 = { s with age := t.age } ∧ mid chosen.length = t ∧
      ∀ c i : Nat, chosen[c]? = some i → ∃ v w : Voice, s.voices[i]? = some v ∧ t.voices[i]? = some w ∧
        allocate (mid c) key c (s.paramInt .voiceCount).toNat (chosen.take c) = some (v, i) ∧
        mid (c + 1) = (mid c).setVoice i w ∧
        w = voiceTrigger { s with age := t.age } v key (max 0 (min 127 (key + s.paramInt .transpose))) w.vel c chosen.length
          (decide (¬(s.paramInt .legato = 1 ∧ v.gate ≠ .released))) ∧
        w.assigned = true ∧ w.key = key ∧ w.note = max 0 (min 127 (key + s.paramInt .transpose)) ∧
        w.vel.val = max 0 (min 1 x.val) ∧ w.gate = .held ∧ w.amp.stage ≠ .idle ∧ w.age = t.age ∧
        w.copy = c ∧ w.uniN = chosen.length ∧ w.gn = 0 ∧ w.gvalid = true ∧
        w.filt = v.filt ∧ w.amp.level = v.amp.level ∧ w.flt.level = v.flt.level ∧
        w.osc1.pend = v.osc1.pend ∧ w.osc2.pend = v.osc2.pend ∧ w.lfo.sh = v.lfo.sh ∧
        (s.paramInt .legato = 1 ∧ v.gate ≠ .released → w.amp = v.amp ∧ w.flt = v.flt) ∧
        (¬(s.paramInt .legato = 1 ∧ v.gate ≠ .released) → w.amp.stage = .attack ∧ w.flt.stage = .attack)

/-- NOTE_OFF on every voice of the pool: a held voice of the raw key is released, or sustained with the pedal down; every
other voice and every other piece of state stays. -/
def Obligations.NoteOffReleasesOrSustains : Prop :=
  ∀ (s : State) (key : Int), ∃ t, exec (.noteOff key) s = .next t ∧ t = { s with voices := t.voices } ∧
    t.voices.length = s.voices.length ∧
    ∀ (i : Nat) (v : Voice), s.voices[i]? = some v → ∃ w : Voice, t.voices[i]? = some w ∧
      (v.assigned = true ∧ v.key = key ∧ v.gate = .held → s.pedal = true → w = { v with gate := .sustained }) ∧
      (v.assigned = true ∧ v.key = key ∧ v.gate = .held → s.pedal = false →
        w = { v with gate := .released, amp := envRelease v.amp, flt := envRelease v.flt }) ∧
      (¬(v.assigned = true ∧ v.key = key ∧ v.gate = .held) → w = v)

/-- SUSTAIN: pressing sets the pedal and changes no voice; lifting clears it and releases exactly the sustained voices. -/
def Obligations.SustainPedal : Prop :=
  ∀ s : State,
    exec (.sustain true) s = .next { s with pedal := true } ∧
    ∃ t, exec (.sustain false) s = .next t ∧ t = { s with pedal := false, voices := t.voices } ∧
      t.voices.length = s.voices.length ∧
      ∀ (i : Nat) (v : Voice), s.voices[i]? = some v → ∃ w : Voice, t.voices[i]? = some w ∧
        (v.gate = .sustained → w = { v with gate := .released, amp := envRelease v.amp, flt := envRelease v.flt }) ∧
        (v.gate ≠ .sustained → w = v)

/-- ALL_NOTES_OFF releases every held or sustained voice of the pool and changes nothing else, the pedal included. -/
def Obligations.AllNotesOffReleasesAll : Prop :=
  ∀ s : State, ∃ t, exec .allNotesOff s = .next t ∧ t = { s with voices := t.voices } ∧
    t.voices.length = s.voices.length ∧
    ∀ (i : Nat) (v : Voice), s.voices[i]? = some v → ∃ w : Voice, t.voices[i]? = some w ∧
      (v.gate = .held ∨ v.gate = .sustained →
        w = { v with gate := .released, amp := envRelease v.amp, flt := envRelease v.flt }) ∧
      (v.gate = .released → w = v)

/-- ALL_SOUND_OFF resets every voice and nothing else, and every tick of the commands that follow outputs silence until the
next NOTE_ON. -/
def Obligations.AllSoundOffSilences : Prop :=
  ∀ s : State, ∃ t, exec .allSoundOff s = .next t ∧ t = { s with voices := t.voices } ∧
    t.voices.length = s.voices.length ∧
    (∀ v ∈ t.voices, v = Voice.reset) ∧
    (registersLegal s = true → ∀ later : List Instr, (∀ i ∈ later, ∀ key x, i ≠ .noteOn key x) →
      ∃ n : Nat, (runCommands later t).out = s.out ++ List.replicate (2 * n) (silence s.cfg.outFmt))

/-- No stuck note: after NOTE_OFF with the pedal up no voice of that key is held, and after NOTE_OFF with the pedal down
followed by SUSTAIN 0 none is held or sustained. -/
def Obligations.NoStuckNotes : Prop :=
  ∀ (s : State) (key : Int), ∃ t u, exec (.noteOff key) s = .next t ∧ exec (.sustain false) t = .next u ∧
    (∀ v ∈ t.voices, v.assigned = true → v.key = key → v.gate ≠ .held) ∧
    (s.pedal = false → ∀ v ∈ s.voices, v.assigned = true → v.key = key → v.gate = .held → voiceRelease v ∈ t.voices) ∧
    (∀ v ∈ u.voices, v.assigned = true → v.key = key → v.gate = .released)

/-- Only NOTE_ON makes a voice held or retargets a held voice: after any other command a held voice was held before, with the
same key, note, velocity, age, glide start and glide target. -/
def Obligations.OnlyNoteOnHolds : Prop :=
  ∀ (i : Instr) (s : State), (∀ key x, i ≠ .noteOn key x) → ∃ t, exec i s = .next t ∧
    ∀ (j : Nat) (w : Voice), t.voices[j]? = some w → w.gate = .held →
      ∃ v : Voice, s.voices[j]? = some v ∧ v.gate = .held ∧ w.key = v.key ∧ w.note = v.note ∧ w.vel = v.vel ∧ w.age = v.age ∧
        w.gto = v.gto ∧ w.gfrom = v.gfrom

/-- A change of voice count, unison count, transpose or legato does not sound: RENDER with one of them changed gives the
same samples and the same state, but for that register. -/
def Obligations.EventParametersDoNotSound : Prop :=
  ∀ (s : State) (p : Param) (x : F32) (n : Nat),
    (p = .voiceCount ∨ p = .unisonCount ∨ p = .transpose ∨ p = .legato) →
      ∃ t, exec (.render n) s = .next t ∧ exec (.render n) (s.setParamReg p x) = .next (t.setParamReg p x)

/-- Voices do not see one another: whatever another voice holds, a voice comes out of a tick the same. -/
def Obligations.VoicesAreIndependent : Prop :=
  ∀ (s : State) (i j : Nat) (v : Voice), i ≠ j →
    (tick (s.setVoice j v)).voices[i]? = (tick s).voices[i]? ∧
    (tick (s.setVoice j v)).rng = (tick s).rng ∧ (tick (s.setVoice j v)).glfo = (tick s).glfo

/-! ### Control commands (46_control.md, 10_state.md) -/

/-- NOP and every reserved opcode change nothing, whatever the other fields hold. -/
def Obligations.NopAndReservedChangeNothing : Prop :=
  (∀ (w0 w1 : Word) (s : State), w0.toNat / 2 ^ 24 = 0x00 ∨ 0x0C ≤ w0.toNat / 2 ^ 24 → exec (decode w0 w1) s = .next s) ∧
  ∀ (s : State) (op : Nat),
    exec .nop s = .next s ∧ exec (.reserved0C op) s = .next s ∧ exec (.reserved10 op) s = .next s ∧
    exec (.reserved20 op) s = .next s ∧ exec (.reserved40 op) s = .next s ∧ exec (.reserved80 op) s = .next s

/-- A NaN operand stops its command before it has any effect; an undefined id stops SET_PARAM. -/
def Obligations.NaNOperandHasNoEffect : Prop :=
  (∀ (s : State) (x : F32) (key : Int) (id : Nat), x.isNaN = true →
    exec (.noteOn key x) s = .next s ∧ exec (.pitchBend x) s = .next s ∧ exec (.modWheel x) s = .next s ∧
    exec (.setParam id x) s = .next s ∧ exec (.setSampleRate x) s = .next s) ∧
  ∀ (s : State) (x : F32) (id : Nat), paramOfId id = none → exec (.setParam id x) s = .next s

/-- The parameter table: every id at which the commands find a register, with the register's name, kind, bounds and reset
value, and no id besides. That all 48 rows of the table are defined, where the memory chapter counts 44, is the model's
choice (log entry 10). -/
def Obligations.ParameterTable : Prop :=
  (∀ (P id : Nat) (p : Param), paramOfId id = some p → (paramRow P p).id = id ∧ id < 256) ∧
  ∀ P : Nat, ((List.range 256).filterMap fun id => (paramOfId id).map fun p => (id, p, paramRow P p)) =
    ([
      (0x00, .masterVolume, ⟨0x00, .continuous, ⟨0x00000000#32⟩, ⟨0x3F800000#32⟩, ⟨0x3F000000#32⟩⟩),
      (0x01, .masterTune, ⟨0x01, .continuous, ⟨0xBF800000#32⟩, ⟨0x3F800000#32⟩, ⟨0x00000000#32⟩⟩),
      (0x02, .transpose, ⟨0x02, .discrete, ⟨0xC1C00000#32⟩, ⟨0x41C00000#32⟩, ⟨0x00000000#32⟩⟩),
      (0x03, .voiceCount, ⟨0x03, .discrete, ⟨0x3F800000#32⟩, F32.ofInt P, F32.ofInt P⟩),
      (0x04, .unisonCount, ⟨0x04, .discrete, ⟨0x3F800000#32⟩, F32.ofInt P, ⟨0x3F800000#32⟩⟩),
      (0x05, .unisonDetune, ⟨0x05, .continuous, ⟨0x00000000#32⟩, ⟨0x3F800000#32⟩, ⟨0x00000000#32⟩⟩),
      (0x06, .portamento, ⟨0x06, .continuous, ⟨0x00000000#32⟩, ⟨0x3F800000#32⟩, ⟨0x00000000#32⟩⟩),
      (0x07, .legato, ⟨0x07, .discrete, ⟨0x00000000#32⟩, ⟨0x3F800000#32⟩, ⟨0x00000000#32⟩⟩),
      (0x08, .bendRange, ⟨0x08, .discrete, ⟨0x00000000#32⟩, ⟨0x41C00000#32⟩, ⟨0x40000000#32⟩⟩),
      (0x09, .tempo, ⟨0x09, .continuous, ⟨0x41A00000#32⟩, ⟨0x43960000#32⟩, ⟨0x42F00000#32⟩⟩),
      (0x0A, .oscReset, ⟨0x0A, .discrete, ⟨0x00000000#32⟩, ⟨0x3F800000#32⟩, ⟨0x00000000#32⟩⟩),
      (0x10, .osc1Wave, ⟨0x10, .discrete, ⟨0x00000000#32⟩, ⟨0x40000000#32⟩, ⟨0x00000000#32⟩⟩),
      (0x11, .osc2Wave, ⟨0x11, .discrete, ⟨0x00000000#32⟩, ⟨0x40000000#32⟩, ⟨0x00000000#32⟩⟩),
      (0x12, .osc1Pw, ⟨0x12, .continuous, ⟨0x3D4CCCCD#32⟩, ⟨0x3F733333#32⟩, ⟨0x3F000000#32⟩⟩),
      (0x13, .osc2Pw, ⟨0x13, .continuous, ⟨0x3D4CCCCD#32⟩, ⟨0x3F733333#32⟩, ⟨0x3F000000#32⟩⟩),
      (0x14, .osc1Level, ⟨0x14, .continuous, ⟨0x00000000#32⟩, ⟨0x3F800000#32⟩, ⟨0x3F800000#32⟩⟩),
      (0x15, .osc2Level, ⟨0x15, .continuous, ⟨0x00000000#32⟩, ⟨0x3F800000#32⟩, ⟨0x3F800000#32⟩⟩),
      (0x16, .noiseLevel, ⟨0x16, .continuous, ⟨0x00000000#32⟩, ⟨0x3F800000#32⟩, ⟨0x00000000#32⟩⟩),
      (0x17, .osc1Pitch, ⟨0x17, .continuous, ⟨0xC1C00000#32⟩, ⟨0x41C00000#32⟩, ⟨0x00000000#32⟩⟩),
      (0x18, .osc2Pitch, ⟨0x18, .continuous, ⟨0xC1C00000#32⟩, ⟨0x41C00000#32⟩, ⟨0x00000000#32⟩⟩),
      (0x19, .osc2Detune, ⟨0x19, .continuous, ⟨0xBF800000#32⟩, ⟨0x3F800000#32⟩, ⟨0x00000000#32⟩⟩),
      (0x1A, .osc2Keytrack, ⟨0x1A, .discrete, ⟨0x00000000#32⟩, ⟨0x3F800000#32⟩, ⟨0x3F800000#32⟩⟩),
      (0x1B, .oscSync, ⟨0x1B, .discrete, ⟨0x00000000#32⟩, ⟨0x3F800000#32⟩, ⟨0x00000000#32⟩⟩),
      (0x1C, .envPitchAmt, ⟨0x1C, .continuous, ⟨0x00000000#32⟩, ⟨0x3F800000#32⟩, ⟨0x00000000#32⟩⟩),
      (0x20, .cutoff, ⟨0x20, .continuous, ⟨0x00000000#32⟩, ⟨0x3F800000#32⟩, ⟨0x3F333333#32⟩⟩),
      (0x21, .resonance, ⟨0x21, .continuous, ⟨0x00000000#32⟩, ⟨0x3F800000#32⟩, ⟨0x3E4CCCCD#32⟩⟩),
      (0x22, .filterEnvAmt, ⟨0x22, .continuous, ⟨0xBF800000#32⟩, ⟨0x3F800000#32⟩, ⟨0x00000000#32⟩⟩),
      (0x23, .keyFollow, ⟨0x23, .continuous, ⟨0x00000000#32⟩, ⟨0x3F800000#32⟩, ⟨0x00000000#32⟩⟩),
      (0x24, .filterMode, ⟨0x24, .discrete, ⟨0x00000000#32⟩, ⟨0x40A00000#32⟩, ⟨0x00000000#32⟩⟩),
      (0x25, .selfOsc, ⟨0x25, .discrete, ⟨0x00000000#32⟩, ⟨0x3F800000#32⟩, ⟨0x00000000#32⟩⟩),
      (0x30, .ampAttack, ⟨0x30, .continuous, ⟨0x00000000#32⟩, ⟨0x3F800000#32⟩, ⟨0x3E800000#32⟩⟩),
      (0x31, .ampDecay, ⟨0x31, .continuous, ⟨0x00000000#32⟩, ⟨0x3F800000#32⟩, ⟨0x3F000000#32⟩⟩),
      (0x32, .ampSustain, ⟨0x32, .continuous, ⟨0x00000000#32⟩, ⟨0x3F800000#32⟩, ⟨0x3F333333#32⟩⟩),
      (0x33, .ampRelease, ⟨0x33, .continuous, ⟨0x00000000#32⟩, ⟨0x3F800000#32⟩, ⟨0x3F000000#32⟩⟩),
      (0x34, .ampVelAmt, ⟨0x34, .continuous, ⟨0x00000000#32⟩, ⟨0x3F800000#32⟩, ⟨0x00000000#32⟩⟩),
      (0x38, .fltAttack, ⟨0x38, .continuous, ⟨0x00000000#32⟩, ⟨0x3F800000#32⟩, ⟨0x3E800000#32⟩⟩),
      (0x39, .fltDecay, ⟨0x39, .continuous, ⟨0x00000000#32⟩, ⟨0x3F800000#32⟩, ⟨0x3F000000#32⟩⟩),
      (0x3A, .fltSustain, ⟨0x3A, .continuous, ⟨0x00000000#32⟩, ⟨0x3F800000#32⟩, ⟨0x3F333333#32⟩⟩),
      (0x3B, .fltRelease, ⟨0x3B, .continuous, ⟨0x00000000#32⟩, ⟨0x3F800000#32⟩, ⟨0x3F000000#32⟩⟩),
      (0x3C, .fltVelAmt, ⟨0x3C, .continuous, ⟨0x00000000#32⟩, ⟨0x3F800000#32⟩, ⟨0x00000000#32⟩⟩),
      (0x40, .lfoRate, ⟨0x40, .continuous, ⟨0x00000000#32⟩, ⟨0x3F800000#32⟩, ⟨0x3F000000#32⟩⟩),
      (0x41, .lfoWave, ⟨0x41, .discrete, ⟨0x00000000#32⟩, ⟨0x40000000#32⟩, ⟨0x00000000#32⟩⟩),
      (0x42, .lfoSync, ⟨0x42, .discrete, ⟨0x00000000#32⟩, ⟨0x3F800000#32⟩, ⟨0x00000000#32⟩⟩),
      (0x43, .lfoDepth, ⟨0x43, .continuous, ⟨0x00000000#32⟩, ⟨0x3F800000#32⟩, ⟨0x00000000#32⟩⟩),
      (0x44, .lfoDestOsc1, ⟨0x44, .discrete, ⟨0x00000000#32⟩, ⟨0x3F800000#32⟩, ⟨0x00000000#32⟩⟩),
      (0x45, .lfoDestOsc2, ⟨0x45, .discrete, ⟨0x00000000#32⟩, ⟨0x3F800000#32⟩, ⟨0x00000000#32⟩⟩),
      (0x46, .lfoDestFilter, ⟨0x46, .discrete, ⟨0x00000000#32⟩, ⟨0x3F800000#32⟩, ⟨0x00000000#32⟩⟩),
      (0x47, .lfoDestPw, ⟨0x47, .discrete, ⟨0x00000000#32⟩, ⟨0x3F800000#32⟩, ⟨0x00000000#32⟩⟩)] : List (Nat × Param × ParamRow))

/-- SET_PARAM of a defined id: the stored value is the operand clamped to the row's bounds, and for a discrete row rounded
half up after a binary32 addition of 0.5 and bounded by the row's upper bound; a zero is stored as +0.0; every other
register and every other piece of state stays. -/
def Obligations.SetParamStoresClamped : Prop :=
  ∀ (s : State) (id : Nat) (p : Param) (x : F32), constructionLegal s.cfg = true → paramOfId id = some p → x.isNaN = false →
    ∃ t, exec (.setParam id x) s = .next t ∧ t = { s with params := t.params } ∧
      (∀ q : Param, q ≠ p → t.param q = s.param q) ∧
      (t.param p).isNaN = false ∧ F32.notNegZero (t.param p) = true ∧
      ((s.row p).kind = .continuous → (t.param p).val = max (s.row p).lo.val (min x.val (s.row p).hi.val)) ∧
      ((s.row p).kind = .discrete → ∀ v : F32, v = F32.clamp x (s.row p).lo (s.row p).hi →
        (t.param p).val = min ((⌊(v.add ⟨0x3F000000#32⟩).val⌋ : Int) : ℚ) (s.row p).hi.val)

/-- GET_PARAM writes `RDATA` alone: the register's encoding for a defined id, 0 for an undefined one; and after SET_PARAM it
reads what was stored. -/
def Obligations.GetParamReadsRegister : Prop :=
  (∀ (s : State) (id : Nat) (p : Param), paramOfId id = some p →
    exec (.getParam id) s = .next { s with rdata := (s.param p).bits }) ∧
  (∀ (s : State) (id : Nat), paramOfId id = none → exec (.getParam id) s = .next { s with rdata := 0x00000000#32 }) ∧
  ∀ (s : State) (id : Nat) (p : Param) (x : F32), paramOfId id = some p → x.isNaN = false →
    ∃ t, exec (.setParam id x) s = .next t ∧
      exec (.getParam id) t = .next { t with rdata := (paramValue (s.row p) x).bits }

/-- The worked examples of the control chapter, each from reset. -/
def Obligations.ControlExamples : Prop :=
  exec (.setParam 0x24 ⟨0x40266666#32⟩) State.reset = .next (State.reset.setParamReg .filterMode ⟨0x40400000#32⟩) ∧
  exec (.setParam 0x20 ⟨0x3FC00000#32⟩) State.reset = .next (State.reset.setParamReg .cutoff ⟨0x3F800000#32⟩) ∧
  exec (.setParam 0x03 ⟨0x00000000#32⟩) State.reset = .next (State.reset.setParamReg .voiceCount ⟨0x3F800000#32⟩) ∧
  exec (.setParam 0x03 ⟨0x42C80000#32⟩) State.reset = .next (State.reset.setParamReg .voiceCount ⟨0x41000000#32⟩) ∧
  exec (.setParam 0x02 ⟨0xC1C40000#32⟩) State.reset = .next (State.reset.setParamReg .transpose ⟨0xC1C00000#32⟩) ∧
  exec (.setParam 0x02 ⟨0x3F000000#32⟩) State.reset = .next (State.reset.setParamReg .transpose ⟨0x3F800000#32⟩) ∧
  exec (.setParam 0x02 ⟨0xBF000000#32⟩) State.reset = .next (State.reset.setParamReg .transpose ⟨0x00000000#32⟩) ∧
  exec (.setParam 0x02 ⟨0x3EFFFFFF#32⟩) State.reset = .next (State.reset.setParamReg .transpose ⟨0x3F800000#32⟩) ∧
  exec (.setParam 0x20 ⟨0x80000000#32⟩) State.reset = .next (State.reset.setParamReg .cutoff ⟨0x00000000#32⟩) ∧
  exec (.setParam 0x12 ⟨0x00000000#32⟩) State.reset = .next (State.reset.setParamReg .osc1Pw ⟨0x3D4CCCCD#32⟩) ∧
  exec (.setParam 0x09 ⟨0x4E6E6B28#32⟩) State.reset = .next (State.reset.setParamReg .tempo ⟨0x43960000#32⟩) ∧
  exec (.setParam 0x20 ⟨0x7FC00000#32⟩) State.reset = .next State.reset ∧
  exec (.setParam 0x0B ⟨0x3F800000#32⟩) State.reset = .next State.reset ∧
  exec (.getParam 0x21) State.reset = .next { State.reset with rdata := 0x3E4CCCCD#32 } ∧
  exec (.pitchBend ⟨0x40000000#32⟩) State.reset = .next { State.reset with bend := ⟨0x3F800000#32⟩ } ∧
  exec (.pitchBend ⟨0xFF800000#32⟩) State.reset = .next { State.reset with bend := ⟨0xBF800000#32⟩ } ∧
  exec (.modWheel ⟨0xBF800000#32⟩) State.reset = .next { State.reset with wheel := ⟨0x00000000#32⟩ } ∧
  exec (.setSampleRate ⟨0x49742400#32⟩) State.reset = .next { State.reset with fs := ⟨0x483B8000#32⟩ } ∧
  exec (.setSampleRate ⟨0x00000000#32⟩) State.reset = .next { State.reset with fs := ⟨0x45FA0000#32⟩ } ∧
  exec (.setSampleRate ⟨0x473B8000#32⟩) State.reset = .next { State.reset with fs := ⟨0x473B8000#32⟩ }

/-- PITCH_BEND stores the operand clamped to [-1.0, 1.0], MOD_WHEEL the operand clamped to [0.0, 1.0], a zero as +0.0;
neither changes anything else. -/
def Obligations.ControllersStoreClamped : Prop :=
  ∀ (s : State) (x : F32),
    (x.isNaN = false →
      (∃ b : F32, exec (.pitchBend x) s = .next { s with bend := b } ∧
        b.val = max (-1) (min x.val 1) ∧ b.isNaN = false ∧ F32.notNegZero b = true) ∧
      ∃ b : F32, exec (.modWheel x) s = .next { s with wheel := b } ∧
        b.val = max 0 (min x.val 1) ∧ b.isNaN = false ∧ F32.notNegZero b = true) ∧
    (x.isNaN = true → exec (.pitchBend x) s = .next s ∧ exec (.modWheel x) s = .next s)

/-- SET_SAMPLE_RATE stores the operand clamped to [8000.0, 192000.0] and changes nothing else. -/
def Obligations.SampleRateStoresClamped : Prop :=
  ∀ (s : State) (x : F32),
    (x.isNaN = false → ∃ r : F32, exec (.setSampleRate x) s = .next { s with fs := r } ∧
      r.val = max 8000 (min x.val 192000) ∧ r.isNaN = false) ∧
    (x.isNaN = true → exec (.setSampleRate x) s = .next s)

/-- Each global register is written only by its own command: a command that is not the register's writer leaves it. -/
def Obligations.RegistersHaveOneWriter : Prop :=
  ∀ (i : Instr) (s : State), ∃ t, exec i s = .next t ∧
    t.cfg = s.cfg ∧ t.outKept = s.outKept ∧ t.host = s.host ∧ t.voices.length = s.voices.length ∧
    ((∀ x, i ≠ .setSampleRate x) → t.fs = s.fs) ∧
    ((∀ d, i ≠ .sustain d) → t.pedal = s.pedal) ∧
    ((∀ x, i ≠ .pitchBend x) → t.bend = s.bend) ∧
    ((∀ x, i ≠ .modWheel x) → t.wheel = s.wheel) ∧
    ((∀ k x, i ≠ .noteOn k x) → t.age = s.age) ∧
    ((∀ k, i ≠ .getParam k) → t.rdata = s.rdata) ∧
    ((∀ k x, i ≠ .setParam k x) → t.params = s.params) ∧
    ((∀ n, i ≠ .render n) → t.rng = s.rng ∧ t.glfo = s.glfo ∧ t.remain = s.remain ∧ t.hostTakes = s.hostTakes)

/-- Only RENDER appends to the output stream, two equal samples per tick, and no sample changes once appended. -/
def Obligations.OnlyRenderEmits : Prop :=
  ∀ (i : Instr) (s : State), ∃ t, exec i s = .next t ∧
    ((∀ n, i ≠ .render n) → t.out = s.out) ∧
    ∃ frames : List Sample, t.out = s.out ++ frames.flatMap fun x => [x, x]

/-! ### Invariants (10_state.md R42, R51) -/

/-- The register invariant is kept by every step: parameter registers within their bounds, integers where discrete, no NaN,
no -0.0; controllers and sample rate within theirs; the pool at its size. -/
def Obligations.RegistersStayLegal : Prop :=
  ∀ s : State, registersLegal s = true → ∃ t, step s = .next t ∧ registersLegal t = true

/-- The voice lifecycle invariant is kept by every step: a held or sustained voice is in an active stage, an idle envelope
is silent, a voice not triggered is at reset, notes, keys, copies and velocities lie in their ranges. A velocity is
moreover never -0.0: that clause rests on R341 read over the pseudocode of R270, the model's reading (log entry 9). -/
def Obligations.VoicesStayLegal : Prop :=
  ∀ s : State, registersLegal s = true → voicesLegal s = true →
    ∃ t, step s = .next t ∧ registersLegal t = true ∧ voicesLegal t = true

/-- The numerical invariant is kept by every step: phases in [0.0, 1.0), levels in [0.0, 1.0], filter states within
FILT_LIM, LFO states and glide pitches in range, every emitted sample in its format's range, so no NaN and no infinity
anywhere; and with it the register and lifecycle invariants. The lifecycle invariant says that no velocity is -0.0: that
clause rests on R341 read over the pseudocode of R270, the model's reading (log entry 9). -/
def Obligations.DatapathStaysBounded : Prop :=
  ∀ s : State, LibOk s.cfg.lib → stateLegal s = true → ∃ t, step s = .next t ∧ stateLegal t = true

/-- The three invariants hold at reset, for the reference construction and for every legal one. -/
def Obligations.InvariantsHoldAtReset : Prop :=
  stateLegal State.reset = true ∧
  ∀ (c : Construction) (host : List HostEvent) (takes : Option Nat), constructionLegal c = true →
    stateLegal (State.construct c host takes) = true

/-! ### What a transport carries to the host (20_memory.md R83) -/

/-- The bytes a transport carries to the host: an `S16` sample as two bytes and `RDATA` as four, least significant byte
first, samples in the order of the stream, with the bytes of -32767 as an example. That an `F32` sample is carried as the
words of the port are is the model's reading (log entry 20). -/
def Obligations.SampleByteOrder : Prop :=
  (∀ v : BitVec 16, sampleBytes (.s16 v) = [BitVec.ofNat 8 v.toNat, BitVec.ofNat 8 (v.toNat / 2 ^ 8)]) ∧
  (∀ w : Word, sampleBytes (.f32 ⟨w⟩) =
    [BitVec.ofNat 8 w.toNat, BitVec.ofNat 8 (w.toNat / 2 ^ 8), BitVec.ofNat 8 (w.toNat / 2 ^ 16),
      BitVec.ofNat 8 (w.toNat / 2 ^ 24)]) ∧
  (∀ s : State, s.rdataBytes =
    [BitVec.ofNat 8 s.rdata.toNat, BitVec.ofNat 8 (s.rdata.toNat / 2 ^ 8), BitVec.ofNat 8 (s.rdata.toNat / 2 ^ 16),
      BitVec.ofNat 8 (s.rdata.toNat / 2 ^ 24)]) ∧
  (∀ (x : Sample) (xs ys : List Sample), streamBytes [x] = sampleBytes x ∧
    streamBytes (xs ++ ys) = streamBytes xs ++ streamBytes ys) ∧
  streamBytes [.s16 (BitVec.ofInt 16 (-32767)), .s16 (BitVec.ofInt 16 (-32767))] = [0x01#8, 0x80#8, 0x01#8, 0x80#8]
end

