-- ==== Sys2Proof/Laws/Float.lean ====
section
/-! SUPPORT. What the binary32 operations do (Machine/Float.lean), said once: encodings are ordered as their values
(`unitsOfMag_strictMono`), rounding is bracketed by every representable value (`Rounds`), and each operation rounds the
exact result (`add_rounds`, `sub_rounds`, `mul_rounds`, `div_rounds`, `ofInt_rounds`). Later proofs cite these and do not
unfold the operations. -/

namespace Sys2Proof

/-! ### Encodings and their values -/

theorem F32.unitsOfMag_lt_succ (m : Nat) : F32.unitsOfMag m < F32.unitsOfMag (m + 1) := by
  unfold F32.unitsOfMag
  have hm := Nat.div_add_mod m (2 ^ 23)
  have hlt := Nat.mod_lt m (show 0 < 2 ^ 23 by norm_num)
  by_cases hc : m % 2 ^ 23 + 1 = 2 ^ 23
  · have h1 : (m + 1) / 2 ^ 23 = m / 2 ^ 23 + 1 := by omega
    have h2 : (m + 1) % 2 ^ 23 = 0 := by omega
    rw [h1, h2]
    rcases Nat.eq_zero_or_pos (m / 2 ^ 23) with h0 | h0
    · simp only [h0]; norm_num; omega
    · obtain ⟨e, he⟩ : ∃ e, m / 2 ^ 23 = e + 1 := ⟨m / 2 ^ 23 - 1, by omega⟩
      rw [he]
      have : 0 < 2 ^ e := by positivity
      rw [if_neg (by omega), if_neg (by omega), Nat.add_sub_cancel, Nat.add_sub_cancel, pow_succ 2 e]
      have := Nat.mul_lt_mul_of_pos_right (show 2 ^ 23 + m % 2 ^ 23 < (2 ^ 23 + 0) * 2 by omega) this
      calc _ < _ := this
        _ = _ := by ring
  · have h1 : (m + 1) / 2 ^ 23 = m / 2 ^ 23 := by omega
    have h2 : (m + 1) % 2 ^ 23 = m % 2 ^ 23 + 1 := by omega
    rw [h1, h2]
    split
    · omega
    · have : 0 < 2 ^ (m / 2 ^ 23 - 1) := by positivity
      nlinarith

theorem F32.unitsOfMag_strictMono : StrictMono F32.unitsOfMag := strictMono_nat_of_lt_succ F32.unitsOfMag_lt_succ

theorem F32.unitsOfMag_le {a b : Nat} : F32.unitsOfMag a ≤ F32.unitsOfMag b ↔ a ≤ b :=
  F32.unitsOfMag_strictMono.le_iff_le

theorem F32.unitsOfMag_lt {a b : Nat} : F32.unitsOfMag a < F32.unitsOfMag b ↔ a < b :=
  F32.unitsOfMag_strictMono.lt_iff_lt

@[simp] theorem F32.unitsOfMag_zero : F32.unitsOfMag 0 = 0 := by simp [F32.unitsOfMag]

/-- A significand of 24 bits (or 2^24) scaled by `sh` bits is the value of the encoding `sh * 2^23 + m`. -/
theorem F32.unitsOfMag_scaled {sh m : Nat} (h1 : 2 ^ 23 ≤ m) (h2 : m ≤ 2 ^ 24) :
    F32.unitsOfMag (sh * 2 ^ 23 + m) = m * 2 ^ sh := by
  unfold F32.unitsOfMag
  rcases Nat.lt_or_ge m (2 ^ 24) with h | h
  · have e1 : (sh * 2 ^ 23 + m) / 2 ^ 23 = sh + 1 := by omega
    have e2 : (sh * 2 ^ 23 + m) % 2 ^ 23 = m - 2 ^ 23 := by omega
    rw [e1, e2, if_neg (by omega), Nat.add_sub_cancel]
    rw [show 2 ^ 23 + (m - 2 ^ 23) = m by omega]
  · have hm : m = 2 ^ 24 := le_antisymm h2 h
    have e1 : (sh * 2 ^ 23 + m) / 2 ^ 23 = sh + 2 := by omega
    have e2 : (sh * 2 ^ 23 + m) % 2 ^ 23 = 0 := by omega
    rw [e1, e2, hm, if_neg (by omega), show sh + 2 - 1 = sh + 1 by omega, pow_succ]
    ring

/-- Encodings up to 2^24 are their own value. -/
theorem F32.unitsOfMag_small {m : Nat} (h : m ≤ 2 ^ 24) : F32.unitsOfMag m = m := by
  rcases Nat.lt_or_ge m (2 ^ 23) with h1 | h1
  · unfold F32.unitsOfMag
    rw [if_pos (by omega)]
    omega
  · simpa using F32.unitsOfMag_scaled (sh := 0) h1 h

/-- The encoding and value of the truncated result inside `roundMag`. -/
theorem F32.unitsOfMag_floor {q m sh : Nat} (hsh : sh = q.log2 + 1 - 24) (hm : m = q / 2 ^ sh) :
    F32.unitsOfMag (sh * 2 ^ 23 + m) = m * 2 ^ sh ∧
    F32.unitsOfMag (sh * 2 ^ 23 + (m + 1)) = (m + 1) * 2 ^ sh := by
  rcases Nat.eq_zero_or_pos sh with h0 | h0
  · subst h0
    have hq : q < 2 ^ 24 := by
      rcases Nat.eq_zero_or_pos q with rfl | hqp
      · norm_num
      · exact (Nat.log2_lt (by omega)).mp (by omega)
    rw [pow_zero, Nat.div_one] at hm
    subst hm
    simp only [pow_zero, mul_one, Nat.zero_mul, Nat.zero_add]
    exact ⟨F32.unitsOfMag_small (by omega), F32.unitsOfMag_small (by omega)⟩
  · have hq0 : q ≠ 0 := by rintro rfl; simp at hsh; omega
    have hlo : 2 ^ q.log2 ≤ q := Nat.log2_self_le hq0
    have hhi : q < 2 ^ (q.log2 + 1) := Nat.lt_log2_self
    have hlog : q.log2 = sh + 23 := by omega
    have hm1 : 2 ^ 23 ≤ m := by
      rw [hm, Nat.le_div_iff_mul_le (by positivity), ← pow_add, add_comm, ← hlog]; exact hlo
    have hm2 : m < 2 ^ 24 := by
      rw [hm, Nat.div_lt_iff_lt_mul (by positivity), ← pow_add]
      rw [hlog] at hhi
      rwa [show 24 + sh = sh + 23 + 1 by omega]
    exact ⟨F32.unitsOfMag_scaled hm1 (by omega), F32.unitsOfMag_scaled (by omega) (by omega)⟩

/-- What `roundMag` does: `k` is the encoding of the truncated value; the result is `k` or its successor (never above
infinity), the nearer of the two, and on a tie the one with the even significand. -/
theorem F32.roundMag_spec (num den : Nat) (hden : 0 < den) :
    ∃ k, F32.unitsOfMag k * den ≤ num ∧ num < F32.unitsOfMag (k + 1) * den ∧
      ((F32.roundMag num den = min k F32.infMag ∧
          (2 * num < (F32.unitsOfMag k + F32.unitsOfMag (k + 1)) * den ∨
            (2 * num = (F32.unitsOfMag k + F32.unitsOfMag (k + 1)) * den ∧ k % 2 = 0))) ∨
       (F32.roundMag num den = min (k + 1) F32.infMag ∧
          ((F32.unitsOfMag k + F32.unitsOfMag (k + 1)) * den < 2 * num ∨
            (2 * num = (F32.unitsOfMag k + F32.unitsOfMag (k + 1)) * den ∧ k % 2 = 1)))) := by
  obtain ⟨q, hq⟩ : ∃ q, q = num / den := ⟨_, rfl⟩
  obtain ⟨sh, hsh⟩ : ∃ sh, sh = q.log2 + 1 - 24 := ⟨_, rfl⟩
  obtain ⟨m, hm⟩ : ∃ m, m = num / (den * 2 ^ sh) := ⟨_, rfl⟩
  obtain ⟨r, hr⟩ : ∃ r, r = num % (den * 2 ^ sh) := ⟨_, rfl⟩
  have hmq : m = q / 2 ^ sh := by rw [hm, hq, Nat.div_div_eq_div_mul]
  obtain ⟨hk, hk1⟩ := F32.unitsOfMag_floor hsh hmq
  have hquant : 0 < den * 2 ^ sh := by positivity
  have hdm := Nat.div_add_mod num (den * 2 ^ sh)
  rw [← hm, ← hr] at hdm
  have hrlt : r < den * 2 ^ sh := by rw [hr]; exact Nat.mod_lt _ hquant
  have hpar : (sh * 2 ^ 23 + m) % 2 = m % 2 := by omega
  have hround : F32.roundMag num den =
      min (sh * 2 ^ 23 + (if decide (den * 2 ^ sh < 2 * r) || (decide (2 * r = den * 2 ^ sh) && decide (m % 2 = 1))
        then m + 1 else m)) F32.infMag := by
    unfold F32.roundMag
    simp only [← hq, ← hsh, ← hm, ← hr]
  have hsum : (F32.unitsOfMag (sh * 2 ^ 23 + m) + F32.unitsOfMag (sh * 2 ^ 23 + m + 1)) * den =
      2 * (m * (den * 2 ^ sh)) + den * 2 ^ sh := by
    rw [show sh * 2 ^ 23 + m + 1 = sh * 2 ^ 23 + (m + 1) by ring, hk, hk1]; ring
  have hnum : 2 * num = 2 * (m * (den * 2 ^ sh)) + 2 * r := by rw [← hdm]; ring
  refine ⟨sh * 2 ^ 23 + m, ?_, ?_, ?_⟩
  · rw [hk]; nlinarith
  · rw [show sh * 2 ^ 23 + m + 1 = sh * 2 ^ 23 + (m + 1) by ring, hk1]; nlinarith
  · rw [hround, hsum, hnum, hpar]
    by_cases hup : (decide (den * 2 ^ sh < 2 * r) || (decide (2 * r = den * 2 ^ sh) && decide (m % 2 = 1))) = true
    · right
      rw [if_pos hup]
      refine ⟨by rw [show sh * 2 ^ 23 + (m + 1) = sh * 2 ^ 23 + m + 1 by ring], ?_⟩
      simp only [Bool.or_eq_true, Bool.and_eq_true, decide_eq_true_eq] at hup
      omega
    · left
      rw [if_neg hup]
      refine ⟨rfl, ?_⟩
      simp only [Bool.or_eq_true, Bool.and_eq_true, decide_eq_true_eq, not_or, not_and] at hup
      omega

theorem F32.roundMag_le_inf (num den : Nat) : F32.roundMag num den ≤ F32.infMag := min_le_right _ _

/-- A representable upper bound of the exact value bounds the rounded one. -/
theorem F32.roundMag_le {num den m : Nat} (hden : 0 < den) (h : num ≤ F32.unitsOfMag m * den) :
    F32.roundMag num den ≤ m := by
  obtain ⟨k, h1, _, h3⟩ := F32.roundMag_spec num den hden
  rcases h3 with ⟨hr, _⟩ | ⟨hr, hup⟩
  · rw [hr]
    exact le_trans (min_le_left _ _)
      (F32.unitsOfMag_le.mp (le_of_mul_le_mul_right (le_trans h1 h) hden))
  · rw [hr]
    refine le_trans (min_le_left _ _) (F32.unitsOfMag_lt.mp ?_)
    have hlt := F32.unitsOfMag_lt_succ k
    have : F32.unitsOfMag k * den < num := by
      rcases hup with hup | ⟨hup, _⟩ <;> nlinarith
    exact lt_of_mul_lt_mul_right (lt_of_lt_of_le this h) (Nat.zero_le _)

/-- A representable lower bound of the exact value (at most infinity) bounds the rounded one. -/
theorem F32.le_roundMag {num den m : Nat} (hden : 0 < den) (hm : m ≤ F32.infMag)
    (h : F32.unitsOfMag m * den ≤ num) : m ≤ F32.roundMag num den := by
  obtain ⟨k, _, h2, h3⟩ := F32.roundMag_spec num den hden
  have hmk : m ≤ k := by
    have : F32.unitsOfMag m < F32.unitsOfMag (k + 1) := lt_of_mul_lt_mul_right (lt_of_le_of_lt h h2) (Nat.zero_le _)
    have := F32.unitsOfMag_lt.mp this
    omega
  rcases h3 with ⟨hr, _⟩ | ⟨hr, _⟩ <;> rw [hr] <;> omega

/-! ### Sign, magnitude and value of a constructed binary32 -/

theorem F32.mag_ofSignMag (s : Bool) {m : Nat} (h : m < 2 ^ 31) : (F32.ofSignMag s m).mag = m := by
  unfold F32.ofSignMag F32.mag
  rw [BitVec.toNat_ofNat]
  cases s
  · simp only [Bool.false_eq_true, if_false]; omega
  · simp only [if_true]; omega

theorem F32.sign_ofSignMag (s : Bool) {m : Nat} (h : m < 2 ^ 31) : (F32.ofSignMag s m).sign = s := by
  unfold F32.ofSignMag F32.sign
  rw [BitVec.msb_eq_decide, BitVec.toNat_ofNat]
  cases s
  · simp only [Bool.false_eq_true, if_false, decide_eq_false_iff_not]; omega
  · simp only [if_true, decide_eq_true_eq]; omega

theorem F32.mag_lt (x : F32) : x.mag < 2 ^ 31 := Nat.mod_lt _ (by norm_num)

/-- A binary32 is its sign and its magnitude. -/
theorem F32.ext_sign_mag {x y : F32} (hs : x.sign = y.sign) (hm : x.mag = y.mag) : x = y := by
  obtain ⟨a⟩ := x
  obtain ⟨b⟩ := y
  simp only [F32.sign, F32.mag, BitVec.msb_eq_decide] at hs hm
  have ha := a.isLt
  have hb := b.isLt
  congr 1
  apply BitVec.eq_of_toNat_eq
  have hiff : (2 ^ (32 - 1) ≤ a.toNat) ↔ (2 ^ (32 - 1) ≤ b.toNat) := by simpa using hs
  omega

theorem F32.not_nan_iff {x : F32} : x.isNaN = false ↔ x.mag ≤ F32.infMag := by simp [F32.isNaN]

theorem F32.finite_iff {x : F32} : x.isFinite = true ↔ x.mag < F32.infMag := by simp [F32.isFinite]

theorem F32.not_nan_of_finite {x : F32} (h : x.isFinite = true) : x.isNaN = false :=
  F32.not_nan_iff.mpr (F32.finite_iff.mp h).le

theorem F32.not_inf_of_finite {x : F32} (h : x.isFinite = true) : x.isInf = false := by
  have := F32.finite_iff.mp h
  simp only [F32.isInf, decide_eq_false_iff_not]
  omega

theorem F32.units_eq (x : F32) : x.units = (if x.sign then -1 else 1) * (F32.unitsOfMag x.mag : Int) := by
  unfold F32.units
  split <;> simp

theorem F32.natAbs_units (x : F32) : x.units.natAbs = F32.unitsOfMag x.mag := by
  unfold F32.units
  split <;> simp

theorem F32.val_eq (x : F32) : x.val = (if x.sign then -1 else 1) * ((F32.unitsOfMag x.mag : ℚ) / 2 ^ 149) := by
  unfold F32.val
  rw [F32.units_eq]
  split <;> push_cast <;> ring

theorem F32.abs_val (x : F32) : |x.val| = (F32.unitsOfMag x.mag : ℚ) / 2 ^ 149 := by
  rw [F32.val_eq, abs_mul]
  have : |(if x.sign then (-1 : ℚ) else 1)| = 1 := by split <;> simp
  rw [this, one_mul, abs_of_nonneg (by positivity)]

theorem F32.units_eq_val (x : F32) : (x.units : ℚ) = x.val * 2 ^ 149 := by
  unfold F32.val
  field_simp

theorem F32.val_le_iff {x y : F32} : x.val ≤ y.val ↔ x.units ≤ y.units := by
  unfold F32.val
  rw [div_le_div_iff_of_pos_right (by positivity)]
  exact Int.cast_le

theorem F32.val_lt_iff {x y : F32} : x.val < y.val ↔ x.units < y.units := by
  unfold F32.val
  rw [div_lt_div_iff_of_pos_right (by positivity)]
  exact Int.cast_lt

theorem F32.val_eq_iff {x y : F32} : x.val = y.val ↔ x.units = y.units := by
  rw [le_antisymm_iff, le_antisymm_iff, F32.val_le_iff, F32.val_le_iff]

/-- Infinity reads as 2^128. -/
theorem F32.unitsOfMag_inf : F32.unitsOfMag F32.infMag = 2 ^ 128 * 2 ^ 149 := by
  have := F32.unitsOfMag_scaled (sh := 254) (m := 2 ^ 23) le_rfl (by norm_num)
  rw [show F32.infMag = 254 * 2 ^ 23 + 2 ^ 23 by rfl, this, ← pow_add, ← pow_add]

/-- A value that is not a NaN is finite exactly when it lies strictly between plus and minus 2^128. -/
theorem F32.finite_of_abs_lt {x : F32} (h : |x.val| < 2 ^ 128) : x.isFinite = true := by
  rw [F32.finite_iff]
  rw [F32.abs_val, div_lt_iff₀ (by positivity)] at h
  have h2 : F32.unitsOfMag x.mag < 2 ^ 128 * 2 ^ 149 := by
    have : ((F32.unitsOfMag x.mag : Nat) : ℚ) < ((2 ^ 128 * 2 ^ 149 : Nat) : ℚ) := by push_cast; linarith
    exact_mod_cast this
  exact F32.unitsOfMag_lt.mp (by rw [F32.unitsOfMag_inf]; exact h2)

theorem F32.abs_val_lt_of_finite {x : F32} (h : x.isFinite = true) : |x.val| < 2 ^ 128 := by
  rw [F32.abs_val, div_lt_iff₀ (by positivity)]
  have h2 := F32.unitsOfMag_lt.mpr (F32.finite_iff.mp h)
  rw [F32.unitsOfMag_inf] at h2
  have : ((F32.unitsOfMag x.mag : Nat) : ℚ) < ((2 ^ 128 * 2 ^ 149 : Nat) : ℚ) := by exact_mod_cast h2
  push_cast at this
  linarith

/-! ### Rounding -/

/-- `x` is a rounding of the exact value `v`: it is not a NaN, and every representable value on one side of `v` stays on
that side of `x`. -/
structure F32.Rounds (v : ℚ) (x : F32) : Prop where
  notNaN : x.isNaN = false
  le : ∀ {b : F32}, b.isNaN = false → v ≤ b.val → x.val ≤ b.val
  ge : ∀ {b : F32}, b.isNaN = false → b.val ≤ v → b.val ≤ x.val

/-- A rounding of a representable value is that value. -/
theorem F32.Rounds.exact {v : ℚ} {x b : F32} (h : F32.Rounds v x) (hb : b.isNaN = false) (hv : v = b.val) :
    x.val = b.val :=
  le_antisymm (h.le hb hv.le) (h.ge hb hv.ge)

theorem F32.roundMag_lt (num den : Nat) : F32.roundMag num den < 2 ^ 31 :=
  lt_of_le_of_lt (F32.roundMag_le_inf num den) (by norm_num [F32.infMag])

@[simp] theorem F32.sign_round (s : Bool) (num den : Nat) : (F32.round s num den).sign = s :=
  F32.sign_ofSignMag s (F32.roundMag_lt num den)

@[simp] theorem F32.mag_round (s : Bool) (num den : Nat) : (F32.round s num den).mag = F32.roundMag num den :=
  F32.mag_ofSignMag s (F32.roundMag_lt num den)

@[simp] theorem F32.isNaN_round (s : Bool) (num den : Nat) : (F32.round s num den).isNaN = false := by
  rw [F32.not_nan_iff, F32.mag_round]; exact F32.roundMag_le_inf num den

theorem F32.round_rounds (s : Bool) (num den : Nat) (hden : 0 < den) :
    F32.Rounds ((if s then -1 else 1) * ((num : ℚ) / den / 2 ^ 149)) (F32.round s num den) := by
  have hd : (0 : ℚ) < den := by exact_mod_cast hden
  have hp : (0 : ℚ) < 2 ^ 149 := by positivity
  have hup : ∀ m : Nat, (num : ℚ) / den ≤ (F32.unitsOfMag m : ℚ) → F32.roundMag num den ≤ m := fun m h =>
    F32.roundMag_le hden (by rw [div_le_iff₀ hd] at h; exact_mod_cast h)
  have hdn : ∀ m : Nat, m ≤ F32.infMag → (F32.unitsOfMag m : ℚ) ≤ (num : ℚ) / den → m ≤ F32.roundMag num den :=
    fun m hm h => F32.le_roundMag hden hm (by rw [le_div_iff₀ hd] at h; exact_mod_cast h)
  have hzero : (num : ℚ) / den ≤ 0 → F32.unitsOfMag (F32.roundMag num den) = 0 := fun h => by
    have := hup 0 (by simpa using h)
    rw [Nat.le_zero.mp this, F32.unitsOfMag_zero]
  have hnn : (0 : ℚ) ≤ (num : ℚ) / den := by positivity
  have hmono : ∀ {a b : Nat}, a ≤ b → (F32.unitsOfMag a : ℚ) ≤ (F32.unitsOfMag b : ℚ) := fun h => by
    exact_mod_cast F32.unitsOfMag_le.mpr h
  have hval : ∀ (b : Bool) (u : ℚ), (if b then (-1 : ℚ) else 1) * (u / 2 ^ 149) = ((if b then -1 else 1) * u) / 2 ^ 149 :=
    fun b u => by ring
  refine ⟨F32.isNaN_round s num den, ?_, ?_⟩
  · intro b hb hv
    rw [F32.val_eq b, hval, hval, div_le_div_iff_of_pos_right hp] at hv
    rw [F32.val_eq, F32.val_eq b, hval, hval, div_le_div_iff_of_pos_right hp, F32.sign_round, F32.mag_round]
    have hbu : (0 : ℚ) ≤ (F32.unitsOfMag b.mag : ℚ) := by positivity
    have hru : (0 : ℚ) ≤ (F32.unitsOfMag (F32.roundMag num den) : ℚ) := by positivity
    generalize (num : ℚ) / den = Q at *
    cases s <;> cases hs : b.sign <;> simp only [hs, Bool.false_eq_true, if_true, if_false, one_mul, neg_one_mul] at hv ⊢
    · exact hmono (hup _ hv)
    · rw [hzero (by linarith)]; push_cast; linarith
    · linarith
    · have := hmono (hdn _ (F32.not_nan_iff.mp hb) (by linarith)); linarith
  · intro b hb hv
    rw [F32.val_eq b, hval, hval, div_le_div_iff_of_pos_right hp] at hv
    rw [F32.val_eq b, F32.val_eq, hval, hval, div_le_div_iff_of_pos_right hp, F32.sign_round, F32.mag_round]
    have hbu : (0 : ℚ) ≤ (F32.unitsOfMag b.mag : ℚ) := by positivity
    have hru : (0 : ℚ) ≤ (F32.unitsOfMag (F32.roundMag num den) : ℚ) := by positivity
    generalize (num : ℚ) / den = Q at *
    cases s <;> cases hs : b.sign <;> simp only [hs, Bool.false_eq_true, if_true, if_false, one_mul, neg_one_mul] at hv ⊢
    · exact hmono (hdn _ (F32.not_nan_iff.mp hb) hv)
    · linarith
    · rw [hzero (by linarith)]; push_cast; linarith
    · have := hmono (hup b.mag (by linarith)); linarith

end Sys2Proof
end

