-- ==== Sys2Proof/Laws/FloatOps.lean ====
section
/-! SUPPORT. One lemma per binary32 operation: it rounds the exact result (`add_rounds`, ...), comparisons compare values,
`clamp`, `fmin`, `fmax` stay between their bounds, small integers are exact. -/

namespace Sys2Proof

/-! ### Signs, zeros, negation -/

theorem F32.sign_neg (x : F32) : x.neg.sign = !x.sign := by
  obtain ⟨a⟩ := x
  simp only [F32.sign, F32.neg, BitVec.msb_xor]
  cases a.msb <;> decide

theorem F32.mag_neg (x : F32) : x.neg.mag = x.mag := by
  obtain ⟨a⟩ := x
  have : (a ^^^ 0x80000000#32) &&& 0x7FFFFFFF#32 = a &&& 0x7FFFFFFF#32 := by
    ext i hi
    simp only [BitVec.getElem_and, BitVec.getElem_xor]
    interval_cases i <;> simp
  have h := congrArg BitVec.toNat this
  simp only [BitVec.toNat_and] at h
  have e : (0x7FFFFFFF#32).toNat = 2 ^ 31 - 1 := rfl
  rw [e, Nat.and_two_pow_sub_one_eq_mod, Nat.and_two_pow_sub_one_eq_mod] at h
  exact h

@[simp] theorem F32.isNaN_neg (x : F32) : x.neg.isNaN = x.isNaN := by simp [F32.isNaN, F32.mag_neg]

@[simp] theorem F32.isFinite_neg (x : F32) : x.neg.isFinite = x.isFinite := by simp [F32.isFinite, F32.mag_neg]

@[simp] theorem F32.val_neg (x : F32) : x.neg.val = -x.val := by
  rw [F32.val_eq, F32.val_eq, F32.sign_neg, F32.mag_neg]
  cases x.sign <;> simp

@[simp] theorem F32.isNaN_zero (s : Bool) : (F32.zero s).isNaN = false := by cases s <;> decide

@[simp] theorem F32.val_zero (s : Bool) : (F32.zero s).val = 0 := by
  rw [F32.val_eq, F32.zero, F32.mag_ofSignMag s (by norm_num), F32.unitsOfMag_zero]
  simp

@[simp] theorem F32.isNaN_inf (s : Bool) : (F32.inf s).isNaN = false := by cases s <;> decide

theorem F32.val_inf (s : Bool) : (F32.inf s).val = (if s then -1 else 1) * 2 ^ 128 := by
  rw [F32.val_eq, F32.inf, F32.mag_ofSignMag s (by norm_num [F32.infMag]),
    F32.sign_ofSignMag s (by norm_num [F32.infMag]), F32.unitsOfMag_inf, Nat.cast_mul, Nat.cast_pow, Nat.cast_pow,
    Nat.cast_ofNat, mul_div_assoc, div_self (by positivity), mul_one]

theorem F32.isZero_iff {x : F32} : x.isZero = true ↔ x.val = 0 := by
  unfold F32.isZero
  rw [decide_eq_true_iff]
  constructor
  · intro h
    rw [F32.val_eq, h, F32.unitsOfMag_zero]
    simp
  · intro h
    have h1 : |x.val| = 0 := by rw [h, abs_zero]
    rw [F32.abs_val, div_eq_zero_iff] at h1
    have h2 : F32.unitsOfMag x.mag = 0 := by
      rcases h1 with h1 | h1
      · exact_mod_cast h1
      · exact absurd h1 (by positivity)
    by_contra hne
    have := F32.unitsOfMag_lt.mpr (Nat.pos_of_ne_zero hne)
    rw [F32.unitsOfMag_zero] at this
    omega

/-! ### Comparisons -/

theorem F32.le_iff {x y : F32} : F32.le x y = true ↔ x.isNaN = false ∧ y.isNaN = false ∧ x.val ≤ y.val := by
  unfold F32.le
  rw [F32.val_le_iff]
  simp [and_assoc]

theorem F32.lt_iff {x y : F32} : F32.lt x y = true ↔ x.isNaN = false ∧ y.isNaN = false ∧ x.val < y.val := by
  unfold F32.lt
  rw [F32.val_lt_iff]
  simp [and_assoc]

theorem F32.eq_iff {x y : F32} : F32.eq x y = true ↔ x.isNaN = false ∧ y.isNaN = false ∧ x.val = y.val := by
  unfold F32.eq
  rw [F32.val_eq_iff]
  simp [and_assoc]

theorem F32.within_iff {lo hi x : F32} :
    F32.within lo hi x = true ↔
      x.isNaN = false ∧ lo.isNaN = false ∧ hi.isNaN = false ∧ lo.val ≤ x.val ∧ x.val ≤ hi.val := by
  unfold F32.within
  rw [Bool.and_eq_true, F32.le_iff, F32.le_iff]
  tauto

/-! ### The four operations round the exact result -/

theorem F32.rounds_zero (s : Bool) : F32.Rounds 0 (F32.zero s) :=
  ⟨F32.isNaN_zero s, fun _ h => by rwa [F32.val_zero], fun _ h => by rwa [F32.val_zero]⟩

theorem F32.add_rounds {x y : F32} (hx : x.isFinite = true) (hy : y.isFinite = true) :
    F32.Rounds (x.val + y.val) (F32.add x y) := by
  unfold F32.add
  rw [F32.not_nan_of_finite hx, F32.not_nan_of_finite hy, F32.not_inf_of_finite hx, F32.not_inf_of_finite hy]
  simp only [Bool.or_self, Bool.false_eq_true, if_false]
  have hsum : x.val + y.val = ((x.units + y.units : Int) : ℚ) / 2 ^ 149 := by unfold F32.val; push_cast; ring
  unfold F32.addFinite
  simp only
  split
  · rename_i h0
    rw [hsum, h0]
    simpa using F32.rounds_zero _
  · have h := F32.round_rounds (decide (x.units + y.units < 0)) (x.units + y.units).natAbs 1 one_pos
    rw [hsum]
    convert h using 1
    generalize x.units + y.units = z
    rw [Nat.cast_natAbs, Nat.cast_one, div_one]
    by_cases hz : z < 0
    · simp [hz, abs_of_neg hz]; ring
    · simp [hz, abs_of_nonneg (not_lt.mp hz)]

theorem F32.sub_rounds {x y : F32} (hx : x.isFinite = true) (hy : y.isFinite = true) :
    F32.Rounds (x.val - y.val) (F32.sub x y) := by
  have := F32.add_rounds hx (y := y.neg) (by simpa using hy)
  rwa [F32.val_neg, ← sub_eq_add_neg] at this

theorem F32.val_eq_natAbs (x : F32) : x.val = (if x.sign then -1 else 1) * ((x.units.natAbs : ℚ) / 2 ^ 149) := by
  rw [F32.natAbs_units, F32.val_eq]

theorem F32.mul_rounds {x y : F32} (hx : x.isFinite = true) (hy : y.isFinite = true) :
    F32.Rounds (x.val * y.val) (F32.mul x y) := by
  unfold F32.mul
  rw [F32.not_nan_of_finite hx, F32.not_nan_of_finite hy, F32.not_inf_of_finite hx, F32.not_inf_of_finite hy]
  simp only [Bool.or_self, Bool.false_eq_true, if_false]
  have h := F32.round_rounds (x.sign != y.sign) (x.units.natAbs * y.units.natAbs) F32.one149 (by unfold F32.one149; positivity)
  convert h using 1
  rw [F32.val_eq_natAbs x, F32.val_eq_natAbs y]
  unfold F32.one149
  push_cast
  cases x.sign <;> cases y.sign <;> simp <;> ring

theorem F32.div_rounds {x y : F32} (hx : x.isFinite = true) (hy : y.isFinite = true) (h0 : y.val ≠ 0) :
    F32.Rounds (x.val / y.val) (F32.div x y) := by
  have hz : y.isZero = false := by
    rw [← Bool.not_eq_true, F32.isZero_iff]; exact h0
  unfold F32.div
  rw [F32.not_nan_of_finite hx, F32.not_nan_of_finite hy, F32.not_inf_of_finite hx, F32.not_inf_of_finite hy, hz]
  simp only [Bool.or_self, Bool.false_eq_true, if_false]
  have hpos : 0 < y.units.natAbs := by
    rw [Int.natAbs_pos]
    intro h
    exact h0 (by unfold F32.val; rw [h]; simp)
  have h := F32.round_rounds (x.sign != y.sign) (x.units.natAbs * F32.one149) y.units.natAbs hpos
  convert h using 1
  have hq : ((y.units.natAbs : Nat) : ℚ) ≠ 0 := by exact_mod_cast hpos.ne'
  rw [F32.val_eq_natAbs x, F32.val_eq_natAbs y]
  unfold F32.one149
  push_cast
  cases x.sign <;> cases y.sign <;> simp only [Bool.false_eq_true, if_true, if_false, bne_self_eq_false, Bool.true_bne, Bool.not_false, Bool.false_bne, one_mul] <;> field_simp <;> norm_num

/-! ### Representable values -/

theorem F32.exists_mag (k : Nat) (hk : k ≤ 2 ^ 24) (e : Nat) (he : e ≤ 253) :
    ∃ m, m ≤ F32.infMag ∧ F32.unitsOfMag m = k * 2 ^ e := by
  induction e generalizing k with
  | zero => exact ⟨k, by norm_num [F32.infMag]; omega, by rw [F32.unitsOfMag_small hk]; simp⟩
  | succ e ih =>
    rcases Nat.lt_or_ge k (2 ^ 23) with h | h
    · obtain ⟨m, hm, hu⟩ := ih (2 * k) (by omega) (by omega)
      exact ⟨m, hm, by rw [hu, pow_succ]; ring⟩
    · exact ⟨(e + 1) * 2 ^ 23 + k, by norm_num [F32.infMag]; omega, F32.unitsOfMag_scaled h hk⟩

/-- An integer of at most 24 bits, scaled by a power of two in range, is a binary32 value. -/
theorem F32.exists_rep (k : Int) (hk : k.natAbs ≤ 2 ^ 24) (e : Nat) (he : e ≤ 253) :
    ∃ b : F32, b.isNaN = false ∧ b.val = (k : ℚ) * 2 ^ e / 2 ^ 149 := by
  obtain ⟨m, hm, hu⟩ := F32.exists_mag k.natAbs hk e he
  have hm31 : m < 2 ^ 31 := lt_of_le_of_lt hm (by norm_num [F32.infMag])
  refine ⟨F32.ofSignMag (decide (k < 0)) m, ?_, ?_⟩
  · rw [F32.not_nan_iff, F32.mag_ofSignMag _ hm31]; exact hm
  · rw [F32.val_eq, F32.mag_ofSignMag _ hm31, F32.sign_ofSignMag _ hm31, hu]
    push_cast
    by_cases hz : k < 0
    · simp [hz, abs_of_neg hz]; ring
    · simp [hz, abs_of_nonneg (not_lt.mp hz)]

/-- A rounding of a representable value is exact. -/
theorem F32.Rounds.eq_of_rep {v : ℚ} {x : F32} (h : F32.Rounds v x) (k : Int) (e : Nat) (hk : k.natAbs ≤ 2 ^ 24)
    (he : e ≤ 253) (hv : v = (k : ℚ) * 2 ^ e / 2 ^ 149) : x.val = v := by
  obtain ⟨b, hb, hbv⟩ := F32.exists_rep k hk e he
  rw [h.exact hb (by rw [hv, hbv]), hbv, hv]

/-- A rounding is bounded by the representable bounds `k * 2^e / 2^149` of the exact value. -/
theorem F32.Rounds.le_rep {v : ℚ} {x : F32} (h : F32.Rounds v x) (k : Int) (e : Nat) (hk : k.natAbs ≤ 2 ^ 24)
    (he : e ≤ 253) (hv : v ≤ (k : ℚ) * 2 ^ e / 2 ^ 149) : x.val ≤ (k : ℚ) * 2 ^ e / 2 ^ 149 := by
  obtain ⟨b, hb, hbv⟩ := F32.exists_rep k hk e he
  rw [← hbv] at hv ⊢
  exact h.le hb hv

theorem F32.Rounds.ge_rep {v : ℚ} {x : F32} (h : F32.Rounds v x) (k : Int) (e : Nat) (hk : k.natAbs ≤ 2 ^ 24)
    (he : e ≤ 253) (hv : (k : ℚ) * 2 ^ e / 2 ^ 149 ≤ v) : (k : ℚ) * 2 ^ e / 2 ^ 149 ≤ x.val := by
  obtain ⟨b, hb, hbv⟩ := F32.exists_rep k hk e he
  rw [← hbv] at hv ⊢
  exact h.ge hb hv

/-! ### Integer bounds: the usual way to keep a value finite -/

/-- Integer bounds up to 2^24 of the exact value bound the rounded one. -/
theorem F32.Rounds.le_int {v : ℚ} {x : F32} (h : F32.Rounds v x) (k : Int) (hk : k.natAbs ≤ 2 ^ 24)
    (hv : v ≤ k) : x.val ≤ k := by
  have e : (k : ℚ) * 2 ^ 149 / 2 ^ 149 = k := by field_simp
  have := h.le_rep k 149 hk (by norm_num) (by rwa [e])
  rwa [e] at this

theorem F32.Rounds.ge_int {v : ℚ} {x : F32} (h : F32.Rounds v x) (k : Int) (hk : k.natAbs ≤ 2 ^ 24)
    (hv : (k : ℚ) ≤ v) : (k : ℚ) ≤ x.val := by
  have e : (k : ℚ) * 2 ^ 149 / 2 ^ 149 = k := by field_simp
  have := h.ge_rep k 149 hk (by norm_num) (by rwa [e])
  rwa [e] at this

theorem F32.Rounds.nonneg {v : ℚ} {x : F32} (h : F32.Rounds v x) (hv : 0 ≤ v) : 0 ≤ x.val := by
  simpa using h.ge_int 0 (by norm_num) (by simpa using hv)

theorem F32.Rounds.nonpos {v : ℚ} {x : F32} (h : F32.Rounds v x) (hv : v ≤ 0) : x.val ≤ 0 := by
  simpa using h.le_int 0 (by norm_num) (by simpa using hv)

/-- A rounding of a value of magnitude at most 2^100 is finite, of magnitude at most 2^100. -/
theorem F32.Rounds.abs_le_pow {v : ℚ} {x : F32} (h : F32.Rounds v x) (n : Nat) (hn : n ≤ 100) (hv : |v| ≤ 2 ^ n) :
    |x.val| ≤ 2 ^ n := by
  have e : ∀ s : Int, (s : ℚ) * 2 ^ (149 + n) / 2 ^ 149 = s * 2 ^ n := fun s => by rw [pow_add]; field_simp
  rw [abs_le] at hv ⊢
  have h1 := h.le_rep 1 (149 + n) (by norm_num) (by omega) (by rw [e]; push_cast; linarith [hv.2])
  have h2 := h.ge_rep (-1) (149 + n) (by norm_num) (by omega) (by rw [e]; push_cast; linarith [hv.1])
  rw [e] at h1 h2
  push_cast at h1 h2
  constructor <;> linarith

theorem F32.finite_of_abs_le {x : F32} (n : Nat) (hn : n ≤ 127) (h : |x.val| ≤ 2 ^ n) : x.isFinite = true := by
  refine F32.finite_of_abs_lt (lt_of_le_of_lt h ?_)
  exact pow_lt_pow_right₀ (by norm_num) (by omega)

theorem F32.Rounds.finite {v : ℚ} {x : F32} (h : F32.Rounds v x) (n : Nat) (hn : n ≤ 100) (hv : |v| ≤ 2 ^ n) :
    x.isFinite = true :=
  F32.finite_of_abs_le n (by omega) (h.abs_le_pow n hn hv)

/-- A value that is not a NaN between bounds of magnitude at most 2^100 is finite. -/
theorem F32.finite_of_bounds {x : F32} {a b : ℚ} (h1 : a ≤ x.val) (h2 : x.val ≤ b) (ha : -2 ^ 100 ≤ a) (hb : b ≤ 2 ^ 100) :
    x.isFinite = true :=
  F32.finite_of_abs_le 100 (by norm_num) (abs_le.mpr ⟨by linarith, by linarith⟩)

/-! ### Helper functions -/

theorem F32.clamp_cases (x lo hi : F32) :
    (F32.lt x lo = true ∧ F32.clamp x lo hi = lo) ∨
    (F32.lt x lo = false ∧ F32.lt hi x = true ∧ F32.clamp x lo hi = hi) ∨
    (F32.lt x lo = false ∧ F32.lt hi x = false ∧ F32.clamp x lo hi = x) := by
  unfold F32.clamp
  cases F32.lt x lo <;> cases F32.lt hi x <;> simp

/-- A clamped value that is not a NaN lies within its bounds. -/
theorem F32.clamp_within {x lo hi : F32} (hx : x.isNaN = false) (hlo : lo.isNaN = false) (hhi : hi.isNaN = false)
    (h : lo.val ≤ hi.val) : F32.within lo hi (F32.clamp x lo hi) = true := by
  rw [F32.within_iff]
  rcases F32.clamp_cases x lo hi with ⟨_, h2⟩ | ⟨_, _, h3⟩ | ⟨h1, h2, h3⟩
  · rw [h2]; exact ⟨hlo, hlo, hhi, le_rfl, h⟩
  · rw [h3]; exact ⟨hhi, hlo, hhi, h, le_rfl⟩
  · rw [h3]
    refine ⟨hx, hlo, hhi, not_lt.mp fun hc => ?_, not_lt.mp fun hc => ?_⟩
    · rw [F32.lt_iff.mpr ⟨hx, hlo, hc⟩] at h1; exact absurd h1 (by simp)
    · rw [F32.lt_iff.mpr ⟨hhi, hx, hc⟩] at h2; exact absurd h2 (by simp)

theorem F32.fmin_notNaN {a b : F32} (ha : a.isNaN = false) (hb : b.isNaN = false) : (F32.fmin a b).isNaN = false := by
  unfold F32.fmin; split <;> assumption

theorem F32.fmin_val {a b : F32} (ha : a.isNaN = false) (hb : b.isNaN = false) : (F32.fmin a b).val = min a.val b.val := by
  unfold F32.fmin
  split
  · rename_i h; rw [F32.lt_iff] at h; rw [min_eq_right h.2.2.le]
  · rename_i h
    rw [F32.lt_iff] at h
    rw [min_eq_left (not_lt.mp fun hc => h ⟨hb, ha, hc⟩)]

theorem F32.fmax_notNaN {a b : F32} (ha : a.isNaN = false) (hb : b.isNaN = false) : (F32.fmax a b).isNaN = false := by
  unfold F32.fmax; split <;> assumption

theorem F32.fmax_val {a b : F32} (ha : a.isNaN = false) (hb : b.isNaN = false) : (F32.fmax a b).val = max a.val b.val := by
  unfold F32.fmax
  split
  · rename_i h; rw [F32.lt_iff] at h; rw [max_eq_right h.2.2.le]
  · rename_i h
    rw [F32.lt_iff] at h
    rw [max_eq_left (not_lt.mp fun hc => h ⟨ha, hb, hc⟩)]

/-- `floor` is the floor of the value. -/
theorem F32.floor_eq (x : F32) : x.floor = ⌊x.val⌋ := by
  unfold F32.floor F32.val F32.one149
  rw [← Rat.floor_intCast_div_natCast]
  congr 2

theorem F32.ofInt_rounds (n : Int) : F32.Rounds (n : ℚ) (F32.ofInt n) := by
  have h := F32.round_rounds (decide (n < 0)) (n.natAbs * F32.one149) 1 one_pos
  unfold F32.ofInt
  convert h using 1
  rw [Nat.cast_one, div_one, Nat.cast_mul, Nat.cast_natAbs, F32.one149, Nat.cast_pow, Nat.cast_ofNat, mul_div_assoc,
    div_self (by positivity), mul_one]
  by_cases hz : n < 0
  · simp [hz, abs_of_neg hz]
  · simp [hz, abs_of_nonneg (not_lt.mp hz)]

/-- `i2f` is exact up to 2^24 (00_scope.md R12). -/
theorem F32.ofInt_val {n : Int} (h : n.natAbs ≤ 2 ^ 24) : (F32.ofInt n).val = n :=
  (F32.ofInt_rounds n).eq_of_rep n 149 h (by norm_num) (by field_simp)

theorem F32.ofInt_notNaN (n : Int) : (F32.ofInt n).isNaN = false := (F32.ofInt_rounds n).notNaN

end Sys2Proof
end

