-- ==== Sys2Proof/Laws/Constants.lean ====
section
/-! SUPPORT. The values of the constants of Machine/Constants.lean, none of them a NaN. -/

namespace Sys2Proof.Machine

set_option Elab.async false

@[simp] theorem cLog2_20_val : cLog2_20.val = 2265935/524288 := by
  rw [F32.val, show cLog2_20.units = (9063740 * 2 ^ 128) by decide +kernel]; norm_num

@[simp] theorem cLog2_20_notNaN : cLog2_20.isNaN = false := by decide +kernel

@[simp] theorem cLog2_1000_val : cLog2_1000.val = 5224941/524288 := by
  rw [F32.val, show cLog2_1000.units = (10449882 * 2 ^ 129) by decide +kernel]; norm_num

@[simp] theorem cLog2_1000_notNaN : cLog2_1000.isNaN = false := by decide +kernel

@[simp] theorem cLog2_1E4_val : cLog2_1E4.val = 1741647/131072 := by
  rw [F32.val, show cLog2_1E4.units = (13933176 * 2 ^ 129) by decide +kernel]; norm_num

@[simp] theorem cLog2_1E4_notNaN : cLog2_1E4.isNaN = false := by decide +kernel

@[simp] theorem cLog2_3_val : cLog2_3.val = 13295629/8388608 := by
  rw [F32.val, show cLog2_3.units = (13295629 * 2 ^ 126) by decide +kernel]; norm_num

@[simp] theorem cLog2_3_notNaN : cLog2_3.isNaN = false := by decide +kernel

@[simp] theorem cLog2_400_val : cLog2_400.val = 2265935/262144 := by
  rw [F32.val, show cLog2_400.units = (9063740 * 2 ^ 129) by decide +kernel]; norm_num

@[simp] theorem cLog2_400_notNaN : cLog2_400.isNaN = false := by decide +kernel

@[simp] theorem cPi_val : cPi.val = 13176795/4194304 := by
  rw [F32.val, show cPi.units = (13176795 * 2 ^ 127) by decide +kernel]; norm_num

@[simp] theorem cPi_notNaN : cPi.isNaN = false := by decide +kernel

@[simp] theorem cTwoPi_val : cTwoPi.val = 13176795/2097152 := by
  rw [F32.val, show cTwoPi.units = (13176795 * 2 ^ 128) by decide +kernel]; norm_num

@[simp] theorem cTwoPi_notNaN : cTwoPi.isNaN = false := by decide +kernel

@[simp] theorem cKNorm_val : cKNorm.val = 2055209/1048576 := by
  rw [F32.val, show cKNorm.units = (16441672 * 2 ^ 126) by decide +kernel]; norm_num

@[simp] theorem cKNorm_notNaN : cKNorm.isNaN = false := by decide +kernel

@[simp] theorem cKSelf_val : cKSelf.val = 2139095/1048576 := by
  rw [F32.val, show cKSelf.units = (8556380 * 2 ^ 127) by decide +kernel]; norm_num

@[simp] theorem cKSelf_notNaN : cKSelf.isNaN = false := by decide +kernel

@[simp] theorem cFiltLim_val : cFiltLim.val = 5033165/4194304 := by
  rw [F32.val, show cFiltLim.units = (10066330 * 2 ^ 126) by decide +kernel]; norm_num

@[simp] theorem cFiltLim_notNaN : cFiltLim.isNaN = false := by decide +kernel

@[simp] theorem cEpsEnv_val : cEpsEnv.val = 13743895/137438953472 := by
  rw [F32.val, show cEpsEnv.units = (13743895 * 2 ^ 112) by decide +kernel]; norm_num

@[simp] theorem cEpsEnv_notNaN : cEpsEnv.isNaN = false := by decide +kernel

@[simp] theorem cAttTarget_val : cAttTarget.val = 3/2 := by
  rw [F32.val, show cAttTarget.units = (12582912 * 2 ^ 126) by decide +kernel]; norm_num

@[simp] theorem cAttTarget_notNaN : cAttTarget.isNaN = false := by decide +kernel

@[simp] theorem cDtMin_val : cDtMin.val = 1/1048576 := by
  rw [F32.val, show cDtMin.units = (8388608 * 2 ^ 106) by decide +kernel]; norm_num

@[simp] theorem cDtMin_notNaN : cDtMin.isNaN = false := by decide +kernel

@[simp] theorem cDtMax_val : cDtMax.val = 7549747/16777216 := by
  rw [F32.val, show cDtMax.units = (15099494 * 2 ^ 124) by decide +kernel]; norm_num

@[simp] theorem cDtMax_notNaN : cDtMax.isNaN = false := by decide +kernel

@[simp] theorem cNyqFrac_val : cNyqFrac.val = 7549747/16777216 := by
  rw [F32.val, show cNyqFrac.units = (15099494 * 2 ^ 124) by decide +kernel]; norm_num

@[simp] theorem cNyqFrac_notNaN : cNyqFrac.isNaN = false := by decide +kernel

@[simp] theorem cFcMin_val : cFcMin.val = 10 := by
  rw [F32.val, show cFcMin.units = (10485760 * 2 ^ 129) by decide +kernel]; norm_num

@[simp] theorem cFcMin_notNaN : cFcMin.isNaN = false := by decide +kernel

@[simp] theorem cPwMin_val : cPwMin.val = 13421773/268435456 := by
  rw [F32.val, show cPwMin.units = (13421773 * 2 ^ 121) by decide +kernel]; norm_num

@[simp] theorem cPwMin_notNaN : cPwMin.isNaN = false := by decide +kernel

@[simp] theorem cPwMax_val : cPwMax.val = 15938355/16777216 := by
  rw [F32.val, show cPwMax.units = (15938355 * 2 ^ 125) by decide +kernel]; norm_num

@[simp] theorem cPwMax_notNaN : cPwMax.isNaN = false := by decide +kernel

@[simp] theorem cTMin_val : cTMin.val = 8589935/8589934592 := by
  rw [F32.val, show cTMin.units = (8589935 * 2 ^ 116) by decide +kernel]; norm_num

@[simp] theorem cTMin_notNaN : cTMin.isNaN = false := by decide +kernel

@[simp] theorem cLfoRateMin_val : cLfoRateMin.val = 13421773/268435456 := by
  rw [F32.val, show cLfoRateMin.units = (13421773 * 2 ^ 121) by decide +kernel]; norm_num

@[simp] theorem cLfoRateMin_notNaN : cLfoRateMin.isNaN = false := by decide +kernel

@[simp] theorem cLfoPwDepth_val : cLfoPwDepth.val = 13421773/33554432 := by
  rw [F32.val, show cLfoPwDepth.units = (13421773 * 2 ^ 124) by decide +kernel]; norm_num

@[simp] theorem cLfoPwDepth_notNaN : cLfoPwDepth.isNaN = false := by decide +kernel

@[simp] theorem cS16Scale_val : cS16Scale.val = 32767 := by
  rw [F32.val, show cS16Scale.units = (16776704 * 2 ^ 140) by decide +kernel]; norm_num

@[simp] theorem cS16Scale_notNaN : cS16Scale.isNaN = false := by decide +kernel

@[simp] theorem c0_val : c0.val = 0 := by
  rw [F32.val, show c0.units = (0 * 2 ^ 0) by decide +kernel]; norm_num

@[simp] theorem c0_notNaN : c0.isNaN = false := by decide +kernel

@[simp] theorem cQuarter_val : cQuarter.val = 1/4 := by
  rw [F32.val, show cQuarter.units = (8388608 * 2 ^ 124) by decide +kernel]; norm_num

@[simp] theorem cQuarter_notNaN : cQuarter.isNaN = false := by decide +kernel

@[simp] theorem cHalf_val : cHalf.val = 1/2 := by
  rw [F32.val, show cHalf.units = (8388608 * 2 ^ 125) by decide +kernel]; norm_num

@[simp] theorem cHalf_notNaN : cHalf.isNaN = false := by decide +kernel

@[simp] theorem c1_val : c1.val = 1 := by
  rw [F32.val, show c1.units = (8388608 * 2 ^ 126) by decide +kernel]; norm_num

@[simp] theorem c1_notNaN : c1.isNaN = false := by decide +kernel

@[simp] theorem cNeg1_val : cNeg1.val = -1 := by
  rw [F32.val, show cNeg1.units = -(8388608 * 2 ^ 126) by decide +kernel]; norm_num

@[simp] theorem cNeg1_notNaN : cNeg1.isNaN = false := by decide +kernel

@[simp] theorem c2_val : c2.val = 2 := by
  rw [F32.val, show c2.units = (8388608 * 2 ^ 127) by decide +kernel]; norm_num

@[simp] theorem c2_notNaN : c2.isNaN = false := by decide +kernel

@[simp] theorem cNeg2_val : cNeg2.val = -2 := by
  rw [F32.val, show cNeg2.units = -(8388608 * 2 ^ 127) by decide +kernel]; norm_num

@[simp] theorem cNeg2_notNaN : cNeg2.isNaN = false := by decide +kernel

@[simp] theorem c4_val : c4.val = 4 := by
  rw [F32.val, show c4.units = (8388608 * 2 ^ 128) by decide +kernel]; norm_num

@[simp] theorem c4_notNaN : c4.isNaN = false := by decide +kernel

@[simp] theorem c5_val : c5.val = 5 := by
  rw [F32.val, show c5.units = (10485760 * 2 ^ 128) by decide +kernel]; norm_num

@[simp] theorem c5_notNaN : c5.isNaN = false := by decide +kernel

@[simp] theorem c8_val : c8.val = 8 := by
  rw [F32.val, show c8.units = (8388608 * 2 ^ 129) by decide +kernel]; norm_num

@[simp] theorem c8_notNaN : c8.isNaN = false := by decide +kernel

@[simp] theorem c10_val : c10.val = 10 := by
  rw [F32.val, show c10.units = (10485760 * 2 ^ 129) by decide +kernel]; norm_num

@[simp] theorem c10_notNaN : c10.isNaN = false := by decide +kernel

@[simp] theorem c12_val : c12.val = 12 := by
  rw [F32.val, show c12.units = (12582912 * 2 ^ 129) by decide +kernel]; norm_num

@[simp] theorem c12_notNaN : c12.isNaN = false := by decide +kernel

@[simp] theorem c20_val : c20.val = 20 := by
  rw [F32.val, show c20.units = (10485760 * 2 ^ 130) by decide +kernel]; norm_num

@[simp] theorem c20_notNaN : c20.isNaN = false := by decide +kernel

@[simp] theorem c24_val : c24.val = 24 := by
  rw [F32.val, show c24.units = (12582912 * 2 ^ 130) by decide +kernel]; norm_num

@[simp] theorem c24_notNaN : c24.isNaN = false := by decide +kernel

@[simp] theorem cNeg24_val : cNeg24.val = -24 := by
  rw [F32.val, show cNeg24.units = -(12582912 * 2 ^ 130) by decide +kernel]; norm_num

@[simp] theorem cNeg24_notNaN : cNeg24.isNaN = false := by decide +kernel

@[simp] theorem c60_val : c60.val = 60 := by
  rw [F32.val, show c60.units = (15728640 * 2 ^ 131) by decide +kernel]; norm_num

@[simp] theorem c60_notNaN : c60.isNaN = false := by decide +kernel

@[simp] theorem c69_val : c69.val = 69 := by
  rw [F32.val, show c69.units = (9043968 * 2 ^ 132) by decide +kernel]; norm_num

@[simp] theorem c69_notNaN : c69.isNaN = false := by decide +kernel

@[simp] theorem c120_val : c120.val = 120 := by
  rw [F32.val, show c120.units = (15728640 * 2 ^ 132) by decide +kernel]; norm_num

@[simp] theorem c120_notNaN : c120.isNaN = false := by decide +kernel

@[simp] theorem c300_val : c300.val = 300 := by
  rw [F32.val, show c300.units = (9830400 * 2 ^ 134) by decide +kernel]; norm_num

@[simp] theorem c300_notNaN : c300.isNaN = false := by decide +kernel

@[simp] theorem c440_val : c440.val = 440 := by
  rw [F32.val, show c440.units = (14417920 * 2 ^ 134) by decide +kernel]; norm_num

@[simp] theorem c440_notNaN : c440.isNaN = false := by decide +kernel

@[simp] theorem c8000_val : c8000.val = 8000 := by
  rw [F32.val, show c8000.units = (16384000 * 2 ^ 138) by decide +kernel]; norm_num

@[simp] theorem c8000_notNaN : c8000.isNaN = false := by decide +kernel

@[simp] theorem c192000_val : c192000.val = 192000 := by
  rw [F32.val, show c192000.units = (12288000 * 2 ^ 143) by decide +kernel]; norm_num

@[simp] theorem c192000_notNaN : c192000.isNaN = false := by decide +kernel

@[simp] theorem cTwoPowNeg23_val : cTwoPowNeg23.val = 1/8388608 := by
  rw [F32.val, show cTwoPowNeg23.units = (8388608 * 2 ^ 103) by decide +kernel]; norm_num

@[simp] theorem cTwoPowNeg23_notNaN : cTwoPowNeg23.isNaN = false := by decide +kernel

@[simp] theorem cReset0_7_val : cReset0_7.val = 11744051/16777216 := by
  rw [F32.val, show cReset0_7.units = (11744051 * 2 ^ 125) by decide +kernel]; norm_num

@[simp] theorem cReset0_7_notNaN : cReset0_7.isNaN = false := by decide +kernel

@[simp] theorem cReset0_2_val : cReset0_2.val = 13421773/67108864 := by
  rw [F32.val, show cReset0_2.units = (13421773 * 2 ^ 123) by decide +kernel]; norm_num

@[simp] theorem cReset0_2_notNaN : cReset0_2.isNaN = false := by decide +kernel

end Sys2Proof.Machine
end

