-- ==== Sys2Proof/Laws/State.lean ====
section
/-! SUPPORT. Every field of State after every named update, so that no later proof unfolds a record update. -/

namespace Sys2Proof.Machine

/-! ### Writing a parameter register: `State.setParamReg` -/

@[simp] theorem State.setParamReg_cfg (s : State) (p : Param) (v : F32) : (s.setParamReg p v).cfg = s.cfg := rfl
@[simp] theorem State.setParamReg_fs (s : State) (p : Param) (v : F32) : (s.setParamReg p v).fs = s.fs := rfl
@[simp] theorem State.setParamReg_pedal (s : State) (p : Param) (v : F32) : (s.setParamReg p v).pedal = s.pedal := rfl
@[simp] theorem State.setParamReg_bend (s : State) (p : Param) (v : F32) : (s.setParamReg p v).bend = s.bend := rfl
@[simp] theorem State.setParamReg_wheel (s : State) (p : Param) (v : F32) : (s.setParamReg p v).wheel = s.wheel := rfl
@[simp] theorem State.setParamReg_rng (s : State) (p : Param) (v : F32) : (s.setParamReg p v).rng = s.rng := rfl
@[simp] theorem State.setParamReg_age (s : State) (p : Param) (v : F32) : (s.setParamReg p v).age = s.age := rfl
@[simp] theorem State.setParamReg_rdata (s : State) (p : Param) (v : F32) : (s.setParamReg p v).rdata = s.rdata := rfl
@[simp] theorem State.setParamReg_glfo (s : State) (p : Param) (v : F32) : (s.setParamReg p v).glfo = s.glfo := rfl
@[simp] theorem State.setParamReg_remain (s : State) (p : Param) (v : F32) : (s.setParamReg p v).remain = s.remain := rfl
@[simp] theorem State.setParamReg_params (s : State) (p : Param) (v : F32) : (s.setParamReg p v).params = s.params.set p.idx v := rfl
@[simp] theorem State.setParamReg_voices (s : State) (p : Param) (v : F32) : (s.setParamReg p v).voices = s.voices := rfl
@[simp] theorem State.setParamReg_out (s : State) (p : Param) (v : F32) : (s.setParamReg p v).out = s.out := rfl
@[simp] theorem State.setParamReg_outKept (s : State) (p : Param) (v : F32) : (s.setParamReg p v).outKept = s.outKept := rfl
@[simp] theorem State.setParamReg_host (s : State) (p : Param) (v : F32) : (s.setParamReg p v).host = s.host := rfl
@[simp] theorem State.setParamReg_hostTakes (s : State) (p : Param) (v : F32) : (s.setParamReg p v).hostTakes = s.hostTakes := rfl

/-! ### Replacing every voice by its image: `State.mapVoices` -/

@[simp] theorem State.mapVoices_cfg (s : State) (f : Voice → Voice) : (s.mapVoices f).cfg = s.cfg := rfl
@[simp] theorem State.mapVoices_fs (s : State) (f : Voice → Voice) : (s.mapVoices f).fs = s.fs := rfl
@[simp] theorem State.mapVoices_pedal (s : State) (f : Voice → Voice) : (s.mapVoices f).pedal = s.pedal := rfl
@[simp] theorem State.mapVoices_bend (s : State) (f : Voice → Voice) : (s.mapVoices f).bend = s.bend := rfl
@[simp] theorem State.mapVoices_wheel (s : State) (f : Voice → Voice) : (s.mapVoices f).wheel = s.wheel := rfl
@[simp] theorem State.mapVoices_rng (s : State) (f : Voice → Voice) : (s.mapVoices f).rng = s.rng := rfl
@[simp] theorem State.mapVoices_age (s : State) (f : Voice → Voice) : (s.mapVoices f).age = s.age := rfl
@[simp] theorem State.mapVoices_rdata (s : State) (f : Voice → Voice) : (s.mapVoices f).rdata = s.rdata := rfl
@[simp] theorem State.mapVoices_glfo (s : State) (f : Voice → Voice) : (s.mapVoices f).glfo = s.glfo := rfl
@[simp] theorem State.mapVoices_remain (s : State) (f : Voice → Voice) : (s.mapVoices f).remain = s.remain := rfl
@[simp] theorem State.mapVoices_params (s : State) (f : Voice → Voice) : (s.mapVoices f).params = s.params := rfl
@[simp] theorem State.mapVoices_voices (s : State) (f : Voice → Voice) : (s.mapVoices f).voices = s.voices.map f := rfl
@[simp] theorem State.mapVoices_out (s : State) (f : Voice → Voice) : (s.mapVoices f).out = s.out := rfl
@[simp] theorem State.mapVoices_outKept (s : State) (f : Voice → Voice) : (s.mapVoices f).outKept = s.outKept := rfl
@[simp] theorem State.mapVoices_host (s : State) (f : Voice → Voice) : (s.mapVoices f).host = s.host := rfl
@[simp] theorem State.mapVoices_hostTakes (s : State) (f : Voice → Voice) : (s.mapVoices f).hostTakes = s.hostTakes := rfl

/-! ### Replacing one voice: `State.setVoice` -/

@[simp] theorem State.setVoice_cfg (s : State) (i : Nat) (v : Voice) : (s.setVoice i v).cfg = s.cfg := rfl
@[simp] theorem State.setVoice_fs (s : State) (i : Nat) (v : Voice) : (s.setVoice i v).fs = s.fs := rfl
@[simp] theorem State.setVoice_pedal (s : State) (i : Nat) (v : Voice) : (s.setVoice i v).pedal = s.pedal := rfl
@[simp] theorem State.setVoice_bend (s : State) (i : Nat) (v : Voice) : (s.setVoice i v).bend = s.bend := rfl
@[simp] theorem State.setVoice_wheel (s : State) (i : Nat) (v : Voice) : (s.setVoice i v).wheel = s.wheel := rfl
@[simp] theorem State.setVoice_rng (s : State) (i : Nat) (v : Voice) : (s.setVoice i v).rng = s.rng := rfl
@[simp] theorem State.setVoice_age (s : State) (i : Nat) (v : Voice) : (s.setVoice i v).age = s.age := rfl
@[simp] theorem State.setVoice_rdata (s : State) (i : Nat) (v : Voice) : (s.setVoice i v).rdata = s.rdata := rfl
@[simp] theorem State.setVoice_glfo (s : State) (i : Nat) (v : Voice) : (s.setVoice i v).glfo = s.glfo := rfl
@[simp] theorem State.setVoice_remain (s : State) (i : Nat) (v : Voice) : (s.setVoice i v).remain = s.remain := rfl
@[simp] theorem State.setVoice_params (s : State) (i : Nat) (v : Voice) : (s.setVoice i v).params = s.params := rfl
@[simp] theorem State.setVoice_voices (s : State) (i : Nat) (v : Voice) : (s.setVoice i v).voices = s.voices.set i v := rfl
@[simp] theorem State.setVoice_out (s : State) (i : Nat) (v : Voice) : (s.setVoice i v).out = s.out := rfl
@[simp] theorem State.setVoice_outKept (s : State) (i : Nat) (v : Voice) : (s.setVoice i v).outKept = s.outKept := rfl
@[simp] theorem State.setVoice_host (s : State) (i : Nat) (v : Voice) : (s.setVoice i v).host = s.host := rfl
@[simp] theorem State.setVoice_hostTakes (s : State) (i : Nat) (v : Voice) : (s.setVoice i v).hostTakes = s.hostTakes := rfl

/-! ### Appending a frame: `State.emitFrame` -/

@[simp] theorem State.emitFrame_cfg (s : State) (x : Sample) : (s.emitFrame x).cfg = s.cfg := rfl
@[simp] theorem State.emitFrame_fs (s : State) (x : Sample) : (s.emitFrame x).fs = s.fs := rfl
@[simp] theorem State.emitFrame_pedal (s : State) (x : Sample) : (s.emitFrame x).pedal = s.pedal := rfl
@[simp] theorem State.emitFrame_bend (s : State) (x : Sample) : (s.emitFrame x).bend = s.bend := rfl
@[simp] theorem State.emitFrame_wheel (s : State) (x : Sample) : (s.emitFrame x).wheel = s.wheel := rfl
@[simp] theorem State.emitFrame_rng (s : State) (x : Sample) : (s.emitFrame x).rng = s.rng := rfl
@[simp] theorem State.emitFrame_age (s : State) (x : Sample) : (s.emitFrame x).age = s.age := rfl
@[simp] theorem State.emitFrame_rdata (s : State) (x : Sample) : (s.emitFrame x).rdata = s.rdata := rfl
@[simp] theorem State.emitFrame_glfo (s : State) (x : Sample) : (s.emitFrame x).glfo = s.glfo := rfl
@[simp] theorem State.emitFrame_remain (s : State) (x : Sample) : (s.emitFrame x).remain = s.remain := rfl
@[simp] theorem State.emitFrame_params (s : State) (x : Sample) : (s.emitFrame x).params = s.params := rfl
@[simp] theorem State.emitFrame_voices (s : State) (x : Sample) : (s.emitFrame x).voices = s.voices := rfl
@[simp] theorem State.emitFrame_out (s : State) (x : Sample) : (s.emitFrame x).out = s.out ++ [x, x] := rfl
@[simp] theorem State.emitFrame_outKept (s : State) (x : Sample) : (s.emitFrame x).outKept = s.outKept := rfl
@[simp] theorem State.emitFrame_host (s : State) (x : Sample) : (s.emitFrame x).host = s.host := rfl
@[simp] theorem State.emitFrame_hostTakes (s : State) (x : Sample) : (s.emitFrame x).hostTakes = s.hostTakes := rfl

/-! ### Reset: `State.applyReset` -/

@[simp] theorem State.applyReset_cfg (s : State) : s.applyReset.cfg = s.cfg := rfl
@[simp] theorem State.applyReset_fs (s : State) : s.applyReset.fs = s.cfg.fs0 := rfl
@[simp] theorem State.applyReset_pedal (s : State) : s.applyReset.pedal = false := rfl
@[simp] theorem State.applyReset_bend (s : State) : s.applyReset.bend = c0 := rfl
@[simp] theorem State.applyReset_wheel (s : State) : s.applyReset.wheel = c0 := rfl
@[simp] theorem State.applyReset_rng (s : State) : s.applyReset.rng = s.cfg.seed0 := rfl
@[simp] theorem State.applyReset_age (s : State) : s.applyReset.age = 0#32 := rfl
@[simp] theorem State.applyReset_rdata (s : State) : s.applyReset.rdata = 0#32 := rfl
@[simp] theorem State.applyReset_glfo (s : State) : s.applyReset.glfo = ⟨c0, c0⟩ := rfl
@[simp] theorem State.applyReset_remain (s : State) : s.applyReset.remain = 0#16 := rfl
@[simp] theorem State.applyReset_params (s : State) : s.applyReset.params = resetParams s.cfg.poolSize := rfl
@[simp] theorem State.applyReset_voices (s : State) : s.applyReset.voices = List.replicate s.cfg.poolSize Voice.reset := rfl
@[simp] theorem State.applyReset_out (s : State) : s.applyReset.out = [] := rfl
@[simp] theorem State.applyReset_outKept (s : State) : s.applyReset.outKept = s.outKept ++ s.out := rfl
@[simp] theorem State.applyReset_host (s : State) : s.applyReset.host = s.host := rfl
@[simp] theorem State.applyReset_hostTakes (s : State) : s.applyReset.hostTakes = s.hostTakes := rfl

/-! ### The host presents a command: `State.presentCommand` -/

@[simp] theorem State.presentCommand_cfg (s : State) (w0 w1 : Word) : (s.presentCommand w0 w1).cfg = s.cfg := rfl
@[simp] theorem State.presentCommand_fs (s : State) (w0 w1 : Word) : (s.presentCommand w0 w1).fs = s.fs := rfl
@[simp] theorem State.presentCommand_pedal (s : State) (w0 w1 : Word) : (s.presentCommand w0 w1).pedal = s.pedal := rfl
@[simp] theorem State.presentCommand_bend (s : State) (w0 w1 : Word) : (s.presentCommand w0 w1).bend = s.bend := rfl
@[simp] theorem State.presentCommand_wheel (s : State) (w0 w1 : Word) : (s.presentCommand w0 w1).wheel = s.wheel := rfl
@[simp] theorem State.presentCommand_rng (s : State) (w0 w1 : Word) : (s.presentCommand w0 w1).rng = s.rng := rfl
@[simp] theorem State.presentCommand_age (s : State) (w0 w1 : Word) : (s.presentCommand w0 w1).age = s.age := rfl
@[simp] theorem State.presentCommand_rdata (s : State) (w0 w1 : Word) : (s.presentCommand w0 w1).rdata = s.rdata := rfl
@[simp] theorem State.presentCommand_glfo (s : State) (w0 w1 : Word) : (s.presentCommand w0 w1).glfo = s.glfo := rfl
@[simp] theorem State.presentCommand_remain (s : State) (w0 w1 : Word) : (s.presentCommand w0 w1).remain = 0#16 := rfl
@[simp] theorem State.presentCommand_params (s : State) (w0 w1 : Word) : (s.presentCommand w0 w1).params = s.params := rfl
@[simp] theorem State.presentCommand_voices (s : State) (w0 w1 : Word) : (s.presentCommand w0 w1).voices = s.voices := rfl
@[simp] theorem State.presentCommand_out (s : State) (w0 w1 : Word) : (s.presentCommand w0 w1).out = s.out := rfl
@[simp] theorem State.presentCommand_outKept (s : State) (w0 w1 : Word) : (s.presentCommand w0 w1).outKept = s.outKept := rfl
@[simp] theorem State.presentCommand_host (s : State) (w0 w1 : Word) : (s.presentCommand w0 w1).host = .command w0 w1 :: s.host := rfl
@[simp] theorem State.presentCommand_hostTakes (s : State) (w0 w1 : Word) : (s.presentCommand w0 w1).hostTakes = s.hostTakes := rfl

/-! ### Reading a parameter register -/

theorem Param.idx_injective : ∀ p q : Param, p.idx = q.idx → p = q := by
  intro p q h
  have hp : ∀ r : Param, allParams[r.idx.val]? = some r := by intro r; cases r <;> rfl
  have h1 := hp p
  rw [h, hp q] at h1
  exact (Option.some.inj h1).symm

@[simp] theorem State.param_setParamReg_self (s : State) (p : Param) (v : F32) : (s.setParamReg p v).param p = v := by
  simp [State.param]

theorem State.param_setParamReg_of_ne (s : State) {p q : Param} (v : F32) (h : q ≠ p) :
    (s.setParamReg p v).param q = s.param q := by
  have : p.idx.val ≠ q.idx.val := fun hc => h (Param.idx_injective p q (Fin.ext hc)).symm
  simp [State.param, this]

theorem State.param_setParamReg (s : State) (p q : Param) (v : F32) :
    (s.setParamReg p v).param q = if q = p then v else s.param q := by
  split
  · rename_i h; rw [h, State.param_setParamReg_self]
  · rename_i h; exact State.param_setParamReg_of_ne s v h

/-- A parameter read depends on the register file alone. -/
theorem State.param_congr {s t : State} (h : s.params = t.params) (p : Param) : s.param p = t.param p := by
  unfold State.param; rw [h]

/-- Every parameter is listed in `allParams`. -/
theorem mem_allParams (p : Param) : p ∈ allParams := by cases p <;> decide

/-- The register file after reset holds the reset column. -/
theorem resetParams_idx (P : Nat) (p : Param) : (resetParams P)[p.idx] = (paramRow P p).reset := by
  cases p <;> simp [resetParams, Param.idx, allParams]

@[simp] theorem State.applyReset_param (s : State) (p : Param) :
    s.applyReset.param p = (paramRow s.cfg.poolSize p).reset := resetParams_idx s.cfg.poolSize p

end Sys2Proof.Machine
end

