-- ==== Sys2Proof/Laws/Operands.lean ====
section
/-! SUPPORT. What the operand rules give (46_control.md R341 to R343, 44_voice_manager.md R271): clamping, canonical zero,
quantization, note mapping. -/

namespace Sys2Proof.Machine

/-- A clamp between ordered bounds is the middle value. -/
theorem clamp_val {x lo hi : F32} (hx : x.isNaN = false) (hlo : lo.isNaN = false) (hhi : hi.isNaN = false)
    (h : lo.val ≤ hi.val) : (F32.clamp x lo hi).val = max lo.val (min x.val hi.val) := by
  rcases F32.clamp_cases x lo hi with ⟨h1, h2⟩ | ⟨h1, h2, h3⟩ | ⟨h1, h2, h3⟩
  · rw [F32.lt_iff] at h1
    rw [h2, min_eq_left (le_trans h1.2.2.le h), max_eq_left h1.2.2.le]
  · rw [F32.lt_iff] at h2
    rw [h3, min_eq_right h2.2.2.le, max_eq_right h]
  · rw [← Bool.not_eq_true, F32.lt_iff] at h1 h2
    have h1 : lo.val ≤ x.val := not_lt.mp fun hc => h1 ⟨hx, hlo, hc⟩
    have h2 : x.val ≤ hi.val := not_lt.mp fun hc => h2 ⟨hhi, hx, hc⟩
    rw [h3, min_eq_left h2, max_eq_right h1]

theorem clamp_notNaN {x lo hi : F32} (hx : x.isNaN = false) (hlo : lo.isNaN = false) (hhi : hi.isNaN = false) :
    (F32.clamp x lo hi).isNaN = false := by
  rcases F32.clamp_cases x lo hi with ⟨_, h⟩ | ⟨_, _, h⟩ | ⟨_, _, h⟩ <;> rw [h] <;> assumption

@[simp] theorem canon0_val (v : F32) : (canon0 v).val = v.val := by
  unfold canon0
  split
  · rename_i h; exact (F32.eq_iff.mp h).2.2.symm
  · rfl

@[simp] theorem canon0_isNaN (v : F32) : (canon0 v).isNaN = v.isNaN := by
  unfold canon0
  split
  · rename_i h; rw [(F32.eq_iff.mp h).1]; rfl
  · rfl

/-- No register takes -0.0. -/
theorem canon0_notNegZero (v : F32) : F32.notNegZero (canon0 v) = true := by
  unfold canon0
  split
  · decide
  · rename_i h
    unfold F32.notNegZero
    rw [decide_eq_true_iff]
    rintro hb
    apply h
    have : v = ⟨0x80000000#32⟩ := by cases v; exact congrArg F32.mk hb
    rw [this]; decide

/-- What a controller or a velocity stores: the operand clamped, never a NaN, never -0.0. -/
theorem clampCanon_spec {x lo hi : F32} (hx : x.isNaN = false) (hlo : lo.isNaN = false) (hhi : hi.isNaN = false)
    (h : lo.val ≤ hi.val) :
    (clampCanon x lo hi).val = max lo.val (min x.val hi.val) ∧ (clampCanon x lo hi).isNaN = false ∧
    F32.notNegZero (clampCanon x lo hi) = true ∧ F32.within lo hi (clampCanon x lo hi) = true := by
  have h1 : (clampCanon x lo hi).val = max lo.val (min x.val hi.val) := by
    rw [clampCanon, canon0_val, clamp_val hx hlo hhi h]
  have h2 : (clampCanon x lo hi).isNaN = false := by rw [clampCanon, canon0_isNaN, clamp_notNaN hx hlo hhi]
  refine ⟨h1, h2, canon0_notNegZero _, ?_⟩
  rw [F32.within_iff, h1]
  exact ⟨h2, hlo, hhi, le_max_left _ _, max_le h (min_le_right _ _)⟩

theorem isInteger_iff (x : F32) : x.isInteger = true ↔ ∃ k : Int, x.val = k := by
  unfold F32.isInteger F32.val
  rw [decide_eq_true_iff]
  constructor
  · intro h
    refine ⟨x.units / (F32.one149 : Int), ?_⟩
    rw [div_eq_iff (by positivity)]
    have := Int.mul_ediv_add_emod x.units (F32.one149 : Int)
    rw [h, add_zero] at this
    rw [← this]
    push_cast [F32.one149]
    rw [Int.mul_ediv_cancel_left _ (by norm_num)]
    ring
  · rintro ⟨k, hk⟩
    rw [div_eq_iff (by positivity)] at hk
    have : x.units = k * (F32.one149 : Int) := by
      have : (x.units : ℚ) = ((k * (F32.one149 : Int) : Int) : ℚ) := by rw [hk]; push_cast [F32.one149]; rfl
      exact_mod_cast this
    rw [this]; exact Int.mul_emod_left _ _

/-- `paramInt` of an integer register is that integer. -/
theorem floor_of_isInteger {x : F32} (h : x.isInteger = true) : ((x.floor : Int) : ℚ) = x.val := by
  obtain ⟨k, hk⟩ := (isInteger_iff x).mp h
  rw [F32.floor_eq, hk, Int.floor_intCast]

/-- Every row of the parameter table has its bounds in order, its reset value inside them, an integer where discrete, and
bounds of magnitude at most 300. -/
theorem paramRow_facts (P : Nat) (h1 : 1 ≤ P) (h2 : P ≤ 32) (p : Param) :
    (paramRow P p).lo.isNaN = false ∧ (paramRow P p).hi.isNaN = false ∧ (paramRow P p).lo.val ≤ (paramRow P p).hi.val ∧
    -300 ≤ (paramRow P p).lo.val ∧ (paramRow P p).hi.val ≤ 300 ∧
    paramLegal P p (paramRow P p).reset = true ∧
    ((paramRow P p).kind = .discrete → (paramRow P p).lo.isInteger = true ∧ (paramRow P p).hi.isInteger = true) := by
  have key : ∀ q ∈ allParams, ∀ n ∈ List.range' 1 32,
      (F32.le (paramRow n q).lo (paramRow n q).hi && F32.le ⟨0xC3960000#32⟩ (paramRow n q).lo &&
        F32.le (paramRow n q).hi c300 && paramLegal n q (paramRow n q).reset &&
        (decide ((paramRow n q).kind = .continuous) || ((paramRow n q).lo.isInteger && (paramRow n q).hi.isInteger)))
        = true := by
    decide +kernel
  have hk := key p (mem_allParams p) P (by simp [List.mem_range'_1]; omega)
  have hv : (⟨0xC3960000#32⟩ : F32).val = -300 := by
    rw [F32.val, show (⟨0xC3960000#32⟩ : F32).units = -300 * 2 ^ 149 by decide +kernel]; norm_num
  simp only [Bool.and_eq_true, Bool.or_eq_true, decide_eq_true_eq, F32.le_iff, hv, c300_val] at hk
  obtain ⟨⟨⟨⟨⟨a, b, c⟩, _, _, d⟩, _, _, e⟩, f⟩, g⟩ := hk
  refine ⟨a, b, c, d, e, f, fun hd => ?_⟩
  rcases g with g | g
  · rw [hd] at g; cases g
  · exact g

/-- The sum `v + 0.5` of R343 and its floor stay at or above the lower bound and within half a unit of exactness. -/
theorem quant_val {v lo hi : F32} (hv : F32.within lo hi v = true) (hlo : lo.isInteger = true)
    (h1 : -300 ≤ lo.val) (h2 : hi.val ≤ 300) :
    (quant v hi).val = min ((⌊(v.add cHalf).val⌋ : Int) : ℚ) hi.val ∧ (quant v hi).isNaN = false ∧
    lo.val ≤ ((⌊(v.add cHalf).val⌋ : Int) : ℚ) := by
  rw [F32.within_iff] at hv
  obtain ⟨hn, hln, hhn, hl, hh⟩ := hv
  have hf : v.isFinite = true := F32.finite_of_bounds (a := -300) (b := 300) (by linarith) (by linarith) (by norm_num) (by norm_num)
  have hr := F32.add_rounds (y := cHalf) hf (by decide)
  rw [cHalf_val] at hr
  have hu : (v.add cHalf).val ≤ 301 := by
    have := hr.le_int 301 (by norm_num) (by push_cast; linarith)
    exact_mod_cast this
  obtain ⟨k, hk⟩ := (isInteger_iff lo).mp hlo
  have hkb : k.natAbs ≤ 2 ^ 24 := by
    have a : (-300 : ℚ) ≤ k := by rw [← hk]; exact h1
    have b : (k : ℚ) ≤ 300 := by rw [← hk]; linarith
    have a' : (-300 : Int) ≤ k := by exact_mod_cast a
    have b' : k ≤ 300 := by exact_mod_cast b
    omega
  have hkl : (k : ℚ) ≤ (v.add cHalf).val := hr.ge_int k hkb (by rw [← hk]; linarith)
  have hfl : k ≤ ⌊(v.add cHalf).val⌋ := Int.le_floor.mpr hkl
  have hfu : ⌊(v.add cHalf).val⌋ ≤ 301 := by
    have : ((⌊(v.add cHalf).val⌋ : Int) : ℚ) ≤ 301 := le_trans (Int.floor_le _) hu
    exact_mod_cast this
  have hk300 : -300 ≤ k := by
    have a : (-300 : ℚ) ≤ k := by rw [← hk]; exact h1
    exact_mod_cast a
  have hi24 : (⌊(v.add cHalf).val⌋ : Int).natAbs ≤ 2 ^ 24 := by omega
  unfold quant
  rw [F32.floor_eq]
  refine ⟨?_, F32.fmin_notNaN (F32.ofInt_notNaN _) hhn, ?_⟩
  · rw [F32.fmin_val (F32.ofInt_notNaN _) hhn, F32.ofInt_val hi24]
  · rw [hk]; exact_mod_cast hfl

/-- What SET_PARAM stores is a legal value of its row. -/
theorem paramValue_legal (P : Nat) (h1 : 1 ≤ P) (h2 : P ≤ 32) (p : Param) {x : F32} (hx : x.isNaN = false) :
    paramLegal P p (paramValue (paramRow P p) x) = true := by
  obtain ⟨hlo, hhi, hle, hm, hM, _, hint⟩ := paramRow_facts P h1 h2 p
  have hw := F32.clamp_within hx hlo hhi hle
  unfold paramLegal paramValue
  simp only [Bool.and_eq_true]
  cases hk : (paramRow P p).kind with
  | continuous =>
    refine ⟨⟨?_, canon0_notNegZero _⟩, rfl⟩
    rw [F32.within_iff] at hw ⊢
    simpa using hw
  | discrete =>
    obtain ⟨hli, hhi'⟩ := hint hk
    obtain ⟨qv, qn, ql⟩ := quant_val hw hli hm hM
    refine ⟨⟨?_, canon0_notNegZero _⟩, ?_⟩
    · rw [F32.within_iff, canon0_val, canon0_isNaN, qv]
      exact ⟨qn, hlo, hhi, le_min ql hle, min_le_right _ _⟩
    · rw [isInteger_iff, canon0_val, qv]
      obtain ⟨k, hk'⟩ := (isInteger_iff _).mp hhi'
      rw [hk']
      exact ⟨min ⌊((F32.clamp x (paramRow P p).lo (paramRow P p).hi).add cHalf).val⌋ k, by push_cast; rfl⟩

/-- The mapped note is the clamped sum. -/
theorem noteMap_eq (s : State) (key : Int) : noteMap s key = max 0 (min 127 (key + s.paramInt .transpose)) := by
  unfold noteMap clampInt
  split_ifs <;> omega

theorem noteMap_bounds (s : State) (key : Int) : 0 ≤ noteMap s key ∧ noteMap s key ≤ 127 := by
  rw [noteMap_eq]; omega

/-! ### Reading legal registers -/

theorem paramsLegal_iff (s : State) : paramsLegal s = true ↔ ∀ p : Param, paramLegal s.cfg.poolSize p (s.param p) = true := by
  unfold paramsLegal
  rw [List.all_eq_true]
  exact ⟨fun h p => h p (mem_allParams p), fun h p _ => h p⟩

/-- What a legal parameter register holds. -/
theorem param_bounds {s : State} (h : registersLegal s = true) (p : Param) :
    (s.param p).isNaN = false ∧ (paramRow s.cfg.poolSize p).lo.val ≤ (s.param p).val ∧
    (s.param p).val ≤ (paramRow s.cfg.poolSize p).hi.val ∧ F32.notNegZero (s.param p) = true ∧
    ((paramRow s.cfg.poolSize p).kind = .discrete → (s.param p).isInteger = true) := by
  unfold registersLegal at h
  simp only [Bool.and_eq_true] at h
  have hp := (paramsLegal_iff s).mp h.1.2 p
  unfold paramLegal at hp
  simp only [Bool.and_eq_true, F32.within_iff] at hp
  refine ⟨hp.1.1.1, hp.1.1.2.2.2.1, hp.1.1.2.2.2.2, hp.1.2, fun hk => ?_⟩
  have := hp.2
  rw [hk] at this
  exact this

/-- The pool size, sample rate and controllers of a state with legal registers. -/
theorem globals_bounds {s : State} (h : registersLegal s = true) :
    1 ≤ s.cfg.poolSize ∧ s.cfg.poolSize ≤ 32 ∧ s.voices.length = s.cfg.poolSize ∧
    (s.fs.isNaN = false ∧ 8000 ≤ s.fs.val ∧ s.fs.val ≤ 192000) ∧
    (s.bend.isNaN = false ∧ -1 ≤ s.bend.val ∧ s.bend.val ≤ 1) ∧
    (s.wheel.isNaN = false ∧ 0 ≤ s.wheel.val ∧ s.wheel.val ≤ 1) := by
  unfold registersLegal constructionLegal globalsLegal at h
  simp only [Bool.and_eq_true, decide_eq_true_eq, F32.within_iff, c8000_val, c192000_val, cNeg1_val, c1_val, c0_val] at h
  obtain ⟨⟨⟨⟨⟨a, b⟩, _⟩, c⟩, _⟩, ⟨d, ⟨e, _⟩⟩, ⟨f, _⟩⟩ := h
  exact ⟨a, b, c, ⟨d.1, d.2.2.2⟩, ⟨e.1, e.2.2.2⟩, ⟨f.1, f.2.2.2⟩⟩

/-- The register invariant reads the construction, the registers it names and the size of the pool. -/
theorem registersLegal_congr {s t : State} (h1 : s.cfg = t.cfg) (h2 : s.fs = t.fs) (h3 : s.bend = t.bend)
    (h4 : s.wheel = t.wheel) (h5 : s.params = t.params) (h6 : s.voices.length = t.voices.length) :
    registersLegal s = registersLegal t := by
  have hp : ∀ p, s.param p = t.param p := State.param_congr h5
  unfold registersLegal paramsLegal globalsLegal
  simp only [h1, h2, h3, h4, h6, hp]

end Sys2Proof.Machine
end

