-- ==== Sys2Proof/Laws/Alloc.lean ====
section
/-! SUPPORT. What an allocation chooses from, and what the loop of NOTE_ON does (44_voice_manager.md R270 to R275). -/

namespace Sys2Proof.Machine

/-- The candidates of an allocation are the voices below `V` that are not taken. -/
theorem mem_candidates {s : State} {V : Nat} {taken : List Nat} {v : Voice} {i : Nat} :
    (v, i) ∈ candidates s V taken ↔ isCandidate s V taken i v := by
  unfold candidates isCandidate
  rw [List.mem_filter, List.mem_zipIdx_iff_getElem?]
  simp

/-- Candidates stand in ascending index. -/
theorem candidates_sorted (s : State) (V : Nat) (taken : List Nat) :
    (candidates s V taken).Pairwise fun a b => a.2 < b.2 := by
  unfold candidates
  refine List.Pairwise.filter _ ?_
  rw [List.pairwise_iff_getElem]
  intro a b ha hb hab
  simpa using hab

/-- The oldest of a list: a member, no member is older, and among the equally old it stands first. -/
theorem oldestOf_spec (s : State) (cs : List (Voice × Nat)) :
    (oldestOf s cs = none ↔ cs = []) ∧
    ∀ x, oldestOf s cs = some x → x ∈ cs ∧
      ∀ y ∈ cs, ageDist s y.1 ≤ ageDist s x.1 ∧
        (cs.Pairwise (fun a b => a.2 < b.2) → ageDist s y.1 = ageDist s x.1 → x.2 ≤ y.2) := by
  induction cs with
  | nil => simp [oldestOf]
  | cons c cs ih =>
    unfold oldestOf
    cases hd : oldestOf s cs with
    | none =>
      have hn := ih.1.mp hd
      subst hn
      simp
    | some d =>
      obtain ⟨hm, hall⟩ := ih.2 d hd
      dsimp only
      split
      · rename_i hlt
        refine ⟨by simp, ?_⟩
        rintro x hx
        obtain rfl := Option.some.inj hx
        refine ⟨List.mem_cons_of_mem _ hm, ?_⟩
        intro y hy
        rcases List.mem_cons.mp hy with rfl | hy
        · exact ⟨hlt.le, fun _ he => by omega⟩
        · exact ⟨(hall y hy).1, fun hp => (hall y hy).2 (List.pairwise_cons.mp hp).2⟩
      · rename_i hge
        refine ⟨by simp, ?_⟩
        rintro x hx
        obtain rfl := Option.some.inj hx
        refine ⟨List.mem_cons_self, ?_⟩
        intro y hy
        rcases List.mem_cons.mp hy with rfl | hy
        · exact ⟨le_rfl, fun _ _ => le_rfl⟩
        · have := (hall y hy).1
          exact ⟨by omega, fun hp _ => ((List.pairwise_cons.mp hp).1 y hy).le⟩

/-- An allocation reads only which voices are taken, not the order they were taken in. -/
theorem allocate_congr {s : State} {key : Int} {c V : Nat} {taken taken' : List Nat} (h : ∀ i, i ∈ taken ↔ i ∈ taken') :
    allocate s key c V taken = allocate s key c V taken' := by
  have hc : candidates s V taken = candidates s V taken' := by
    unfold candidates
    congr 1
    funext x
    rw [Bool.eq_iff_iff]
    simp [h]
  unfold allocate
  rw [hc]

/-- The chosen voice is a candidate. -/
theorem allocate_isCandidate {s : State} {key : Int} {c V : Nat} {taken : List Nat} {v : Voice} {i : Nat}
    (h : allocate s key c V taken = some (v, i)) : isCandidate s V taken i v := by
  rw [← mem_candidates]
  unfold allocate at h
  rcases Option.or_eq_some_iff.mp h with h | ⟨_, h⟩
  · exact List.mem_of_find?_eq_some h
  · rcases Option.or_eq_some_iff.mp h with h | ⟨_, h⟩
    · exact List.mem_of_find?_eq_some h
    · rcases Option.or_eq_some_iff.mp h with h | ⟨_, h⟩
      · exact (List.mem_filter.mp ((oldestOf_spec s _).2 _ h).1).1
      · exact ((oldestOf_spec s _).2 _ h).1

/-- An allocation with a candidate succeeds. -/
theorem allocate_isSome {s : State} {key : Int} {c V : Nat} {taken : List Nat} {v : Voice} {i : Nat}
    (h : isCandidate s V taken i v) : (allocate s key c V taken).isSome = true := by
  unfold allocate
  have hne : oldestOf s (candidates s V taken) ≠ none := by
    intro hn
    rw [(oldestOf_spec s _).1] at hn
    rw [← mem_candidates, hn] at h
    cases h
  obtain ⟨x, hx⟩ := Option.ne_none_iff_exists'.mp hne
  simp [hx]

/-- With fewer voices taken than are eligible there is a candidate. -/
theorem exists_candidate (s : State) (V : Nat) (taken : List Nat) (hV : V ≤ s.voices.length) (ht : taken.length < V) :
    ∃ i v, isCandidate s V taken i v := by
  by_contra hc
  push Not at hc
  have hsub : List.range V ⊆ taken := by
    intro i hi
    rw [List.mem_range] at hi
    by_contra hn
    exact hc i s.voices[i] ⟨List.getElem?_eq_getElem (by omega), hi, hn⟩
  have := (List.subperm_of_subset List.nodup_range hsub).length_le
  rw [List.length_range] at this
  omega

/-- What the loop of NOTE_ON does: it triggers `todo` further distinct eligible voices as the copies `c`, `c + 1`, ..., each
from the state it had before the loop, and changes nothing else. `mid k` is the state after the first `k` of them, in which
the allocation of the next one chooses. -/
theorem triggerCopies_spec (key note : Int) (vel : F32) (V N : Nat) (todo c : Nat) (taken : List Nat) (s : State)
    (hV : V ≤ s.voices.length) (ht : taken.length + todo ≤ V) :
    ∃ (chosen : List Nat) (mid : Nat → State),
      let t := triggerCopies key note vel V N todo c taken s
      t = { s with voices := t.voices } ∧ t.voices.length = s.voices.length ∧
      chosen.length = todo ∧ chosen.Nodup ∧ (∀ i ∈ chosen, i < V ∧ i ∉ taken) ∧
      (∀ i, i ∉ chosen → t.voices[i]? = s.voices[i]?) ∧ mid 0 = s ∧ mid todo = t ∧
      ∀ k i, chosen[k]? = some i → ∃ v, s.voices[i]? = some v ∧
        t.voices[i]? = some (voiceTrigger s v key note vel (c + k) N (!isLegato s v)) ∧
        allocate (mid k) key (c + k) V (taken ++ chosen.take k) = some (v, i) ∧
        mid (k + 1) = (mid k).setVoice i (voiceTrigger s v key note vel (c + k) N (!isLegato s v)) := by
  induction todo generalizing c taken s with
  | zero => exact ⟨[], fun _ => s, rfl, rfl, rfl, List.nodup_nil, by simp, fun _ _ => rfl, rfl, rfl, by simp⟩
  | succ todo ih =>
    obtain ⟨j, w, hj⟩ := exists_candidate s V taken hV (by omega)
    obtain ⟨⟨v, i⟩, ha⟩ := Option.isSome_iff_exists.mp (allocate_isSome (key := key) (c := c) hj)
    obtain ⟨hvi, hiV, hit⟩ := allocate_isCandidate ha
    set s' := s.setVoice i (voiceTrigger s v key note vel c N (!isLegato s v)) with hs'
    have hil : i < s.voices.length := (List.getElem?_eq_some_iff.mp hvi).1
    have hlen : s'.voices.length = s.voices.length := by simp [hs']
    obtain ⟨ch, mid, h1, h2, h3, h4, h5, h6, hm0, hmt, h7⟩ := ih (c + 1) (i :: taken) s' (by omega) (by simp; omega)
    have hu : triggerCopies key note vel V N (todo + 1) c taken s
        = triggerCopies key note vel V N todo (c + 1) (i :: taken) s' := by
      rw [triggerCopies, ha]
    have hich : i ∉ ch := fun hm => (h5 i hm).2 List.mem_cons_self
    refine ⟨i :: ch, fun k => k.casesOn s mid, ?_, ?_, by simp [h3], List.nodup_cons.mpr ⟨hich, h4⟩, ?_, ?_, rfl, ?_, ?_⟩
    · rw [hu, h1]
      rfl
    · rw [hu, h2, hlen]
    · intro k hk
      rcases List.mem_cons.mp hk with rfl | hk
      · exact ⟨hiV, hit⟩
      · exact ⟨(h5 k hk).1, fun hm => (h5 k hk).2 (List.mem_cons_of_mem _ hm)⟩
    · intro k hk
      rw [List.mem_cons, not_or] at hk
      rw [hu, h6 k hk.2, hs']
      simp [Ne.symm hk.1]
    · rw [hu]
      exact hmt
    · intro k m hk
      rw [hu]
      cases k with
      | zero =>
        obtain rfl : i = m := by simpa using hk
        refine ⟨v, hvi, ?_, by simpa using ha, hm0⟩
        rw [h6 i hich, hs']
        simp [hil]
      | succ k =>
        have hk' : ch[k]? = some m := by simpa using hk
        obtain ⟨u, hu1, hu2, hu3, hu4⟩ := h7 k m hk'
        have hmi : i ≠ m := fun he => hich (he ▸ List.mem_of_getElem? hk')
        rw [show c + 1 + k = c + (k + 1) by omega] at hu2 hu3 hu4
        refine ⟨u, ?_, ?_, ?_, hu4⟩
        · rw [hs'] at hu1
          simpa [List.getElem?_set, hmi] using hu1
        · rw [hu2]
          rfl
        · rw [← hu3]
          exact allocate_congr fun x => by simp [or_left_comm]

/-- With legal registers between one voice and the whole pool is eligible (R272). -/
theorem eligibleCount_bounds {s : State} (h : registersLegal s = true) :
    1 ≤ eligibleCount s ∧ eligibleCount s ≤ s.voices.length := by
  obtain ⟨_, _, c, _⟩ := globals_bounds h
  have hp := param_bounds h .voiceCount
  simp only [paramRow] at hp
  have hi : (F32.ofInt (s.cfg.poolSize : Int)).val = (s.cfg.poolSize : Int) := F32.ofInt_val (by omega)
  rw [hi, ← floor_of_isInteger (hp.2.2.2.2 trivial), c1_val] at hp
  have h1 : (1 : Int) ≤ (s.param .voiceCount).floor := by exact_mod_cast hp.2.1
  have h2 : (s.param .voiceCount).floor ≤ s.cfg.poolSize := by exact_mod_cast hp.2.2.1
  unfold eligibleCount State.paramInt
  omega

/-- With legal registers a note has at least one copy and no more than there are eligible voices (R272). -/
theorem copyCount_bounds {s : State} (h : registersLegal s = true) : 1 ≤ copyCount s ∧ copyCount s ≤ eligibleCount s := by
  have hp := param_bounds h .unisonCount
  simp only [paramRow] at hp
  rw [← floor_of_isInteger (hp.2.2.2.2 trivial), c1_val] at hp
  have h1 : (1 : Int) ≤ (s.param .unisonCount).floor := by exact_mod_cast hp.2.1
  have h2 := (eligibleCount_bounds h).1
  unfold copyCount State.paramInt
  exact ⟨Nat.le_min.mpr ⟨by omega, h2⟩, Nat.min_le_right _ _⟩

end Sys2Proof.Machine
end

