-- ==== Sys2Proof/Laws/Bounds.lean ====
section
/-! SUPPORT. Bounds through binary32 arithmetic: the relative error of one rounding, and a size that sums and products keep
track of, so that no value of a chain of operations is a NaN or an infinity. -/

namespace Sys2Proof

/-- One rounding of a normal positive value is off by less than one part in 2^23. -/
theorem F32.Rounds.relative {v : ℚ} {x : F32} (h : F32.Rounds v x) (h1 : 1 / 2 ^ 126 ≤ v) (h2 : v ≤ 2 ^ 100) :
    x.val ≤ v * (1 + 1 / 2 ^ 23) ∧ v * (1 - 1 / 2 ^ 23) ≤ x.val := by
  set u : ℚ := v * 2 ^ 149 with hu
  have hv : v = u / 2 ^ 149 := by rw [hu]; field_simp
  have hu1 : (2 : ℚ) ^ 23 ≤ u := by
    rw [hu]
    calc (2 : ℚ) ^ 23 = 1 / 2 ^ 126 * 2 ^ 149 := by norm_num
      _ ≤ _ := mul_le_mul_of_nonneg_right h1 (by positivity)
  have hu2 : u ≤ 2 ^ 249 := by
    rw [hu]
    calc v * 2 ^ 149 ≤ 2 ^ 100 * 2 ^ 149 := mul_le_mul_of_nonneg_right h2 (by positivity)
      _ = 2 ^ 249 := by norm_num
  obtain ⟨n, hn1, hn2⟩ : ∃ n : Nat, (2 : ℚ) ^ n ≤ u ∧ u < 2 ^ (n + 1) :=
    exists_nat_pow_near (le_trans (by norm_num) hu1) (by norm_num)
  have hn23 : 23 ≤ n := by
    by_contra hc
    have : (2 : ℚ) ^ (n + 1) ≤ 2 ^ 23 := pow_le_pow_right₀ (by norm_num) (by omega)
    linarith
  have hn249 : n ≤ 249 := by
    by_contra hc
    have : (2 : ℚ) ^ 250 ≤ 2 ^ n := pow_le_pow_right₀ (by norm_num) (by omega)
    have h250 : (2 : ℚ) ^ 249 < 2 ^ 250 := by norm_num
    linarith
  obtain ⟨e, rfl⟩ : ∃ e, n = e + 23 := ⟨n - 23, by omega⟩
  have hp : (0 : ℚ) < 2 ^ e := by positivity
  have hpu : (2 : ℚ) ^ e * 2 ^ 23 ≤ u := by rw [← pow_add]; exact hn1
  have hlt : u / 2 ^ e < 2 ^ 24 := by
    rw [div_lt_iff₀ hp, ← pow_add, show 24 + e = e + 23 + 1 by omega]; exact hn2
  have hpos : 0 ≤ u / 2 ^ e := by positivity
  have q : ∀ k : ℚ, k * 2 ^ e / 2 ^ 149 = k * (2 ^ e / 2 ^ 149) := fun k => by ring
  constructor
  · have hc := Int.le_ceil (u / 2 ^ e)
    have hc2 := Int.ceil_lt_add_one (u / 2 ^ e)
    have hcb : ⌈u / 2 ^ e⌉ ≤ 2 ^ 24 := by rw [Int.ceil_le]; exact_mod_cast hlt.le
    have hc0 : 0 ≤ ⌈u / 2 ^ e⌉ := Int.ceil_nonneg hpos
    have := h.le_rep ⌈u / 2 ^ e⌉ e (by omega) (by omega) (by
      rw [hv, div_le_div_iff_of_pos_right (by positivity)]
      rwa [div_le_iff₀ hp] at hc)
    refine this.trans ?_
    rw [hv, div_mul_eq_mul_div, div_le_div_iff_of_pos_right (by positivity)]
    have : (⌈u / 2 ^ e⌉ : ℚ) * 2 ^ e ≤ u + 2 ^ e := by
      have := mul_le_mul_of_nonneg_right hc2.le hp.le
      rw [add_mul, div_mul_cancel₀ _ hp.ne', one_mul] at this
      exact this
    have h3 : (2 : ℚ) ^ e ≤ u * (1 / 2 ^ 23) := by
      rw [mul_one_div, le_div_iff₀ (by positivity)]; exact hpu
    linarith
  · have hc := Int.floor_le (u / 2 ^ e)
    have hc2 := Int.lt_floor_add_one (u / 2 ^ e)
    have hcb : ⌊u / 2 ^ e⌋ < 2 ^ 24 := by rw [Int.floor_lt]; exact_mod_cast hlt
    have hc0 : 0 ≤ ⌊u / 2 ^ e⌋ := Int.floor_nonneg.mpr hpos
    have := h.ge_rep ⌊u / 2 ^ e⌋ e (by omega) (by omega) (by
      rw [hv, div_le_div_iff_of_pos_right (by positivity)]
      rwa [le_div_iff₀ hp] at hc)
    refine le_trans ?_ this
    rw [hv, div_mul_eq_mul_div, div_le_div_iff_of_pos_right (by positivity)]
    have : u - 2 ^ e ≤ (⌊u / 2 ^ e⌋ : ℚ) * 2 ^ e := by
      have := mul_le_mul_of_nonneg_right hc2.le hp.le
      rw [add_mul, div_mul_cancel₀ _ hp.ne', one_mul] at this
      linarith
    have h3 : (2 : ℚ) ^ e ≤ u * (1 / 2 ^ 23) := by
      rw [mul_one_div, le_div_iff₀ (by positivity)]; exact hpu
    linarith

/-- Below the middle between an encoding's value and the next, the rounded value does not exceed it. -/
theorem F32.roundMag_le_of_lt_middle {num den m : Nat} (hden : 0 < den)
    (h : 2 * num < (F32.unitsOfMag m + F32.unitsOfMag (m + 1)) * den) : F32.roundMag num den ≤ m := by
  obtain ⟨k, h1, _, h3⟩ := F32.roundMag_spec num den hden
  have hkm : k ≤ m := by
    by_contra hc
    have a : F32.unitsOfMag (m + 1) ≤ F32.unitsOfMag k := F32.unitsOfMag_le.mpr (by omega)
    have b := F32.unitsOfMag_lt_succ m
    have c : F32.unitsOfMag (m + 1) * den ≤ num := (Nat.mul_le_mul_right den a).trans h1
    have d : F32.unitsOfMag m * den ≤ F32.unitsOfMag (m + 1) * den := Nat.mul_le_mul_right den b.le
    rw [add_mul] at h
    omega
  rcases h3 with ⟨hr, _⟩ | ⟨hr, hup⟩
  · rw [hr]; omega
  · rcases Nat.lt_or_ge k m with hlt | hge
    · rw [hr]; omega
    · obtain rfl : k = m := by omega
      omega

/-- A sum that exceeds 1 by less than half the spacing above 1 rounds to at most 1. -/
theorem F32.add_le_one {x y : F32} (hx : x.isFinite = true) (hy : y.isFinite = true) (h : x.val + y.val < 1 + 1 / 2 ^ 24) :
    (F32.add x y).val ≤ 1 := by
  by_cases h1 : x.val + y.val ≤ 1
  · have := (F32.add_rounds hx hy).le_int 1 (by norm_num) (by push_cast; exact h1)
    exact_mod_cast this
  · rw [not_le] at h1
    have hsum : x.val + y.val = ((x.units + y.units : Int) : ℚ) / 2 ^ 149 := by unfold F32.val; push_cast; ring
    rw [hsum] at h h1
    unfold F32.add
    rw [F32.not_nan_of_finite hx, F32.not_nan_of_finite hy, F32.not_inf_of_finite hx, F32.not_inf_of_finite hy]
    simp only [Bool.or_self, Bool.false_eq_true, if_false]
    unfold F32.addFinite
    dsimp only
    generalize x.units + y.units = z at h h1
    rw [lt_div_iff₀ (by positivity)] at h1
    rw [div_lt_iff₀ (by positivity)] at h
    have hz1 : (2 : Int) ^ 149 < z := by
      have : (((2 : Int) ^ 149 : Int) : ℚ) < z := by push_cast; linarith
      exact_mod_cast this
    have hz2 : z < 2 ^ 149 + 2 ^ 125 := by
      have : (z : ℚ) < (((2 : Int) ^ 149 + 2 ^ 125 : Int) : ℚ) := by push_cast; norm_num at h ⊢; linarith
      exact_mod_cast this
    rw [if_neg (by omega)]
    have hneg : decide (z < 0) = false := by rw [decide_eq_false_iff_not]; omega
    rw [hneg, F32.val_eq, F32.sign_round, F32.mag_round]
    have hu : F32.unitsOfMag 0x3F800000 = 2 ^ 149 ∧ F32.unitsOfMag (0x3F800000 + 1) = 2 ^ 149 + 2 ^ 126 := by
      constructor <;> decide +kernel
    have hm : F32.roundMag z.natAbs 1 ≤ 0x3F800000 :=
      F32.roundMag_le_of_lt_middle one_pos (by rw [hu.1, hu.2]; omega)
    have := F32.unitsOfMag_le.mpr hm
    rw [hu.1] at this
    have hq : (F32.unitsOfMag (F32.roundMag z.natAbs 1) : ℚ) ≤ 2 ^ 149 := by exact_mod_cast this
    rw [if_neg (by simp), one_mul, div_le_one (by positivity)]
    exact hq

/-- Not a NaN, and of magnitude at most 2^n. -/
def F32.Small (n : Nat) (x : F32) : Prop := x.isNaN = false ∧ |x.val| ≤ 2 ^ n

theorem F32.Small.notNaN {n : Nat} {x : F32} (h : F32.Small n x) : x.isNaN = false := h.1

theorem F32.Small.finite {n : Nat} {x : F32} (h : F32.Small n x) (hn : n ≤ 100) : x.isFinite = true :=
  F32.finite_of_abs_le n (by omega) h.2

theorem F32.Small.mono {m n : Nat} {x : F32} (h : F32.Small m x) (hmn : m ≤ n) : F32.Small n x :=
  ⟨h.1, h.2.trans (pow_le_pow_right₀ (by norm_num) hmn)⟩

theorem F32.Small.of_bounds {n : Nat} {x : F32} (hx : x.isNaN = false) (h1 : -2 ^ n ≤ x.val) (h2 : x.val ≤ 2 ^ n) :
    F32.Small n x := ⟨hx, abs_le.mpr ⟨h1, h2⟩⟩

/-- A rounding of a value of magnitude at most 2^n. -/
theorem F32.Rounds.small {v : ℚ} {x : F32} (h : F32.Rounds v x) (n : Nat) (hn : n ≤ 100) (hv : |v| ≤ 2 ^ n) :
    F32.Small n x := ⟨h.notNaN, h.abs_le_pow n hn hv⟩

theorem F32.Small.add {n : Nat} {x y : F32} (hx : F32.Small n x) (hy : F32.Small n y) (hn : n ≤ 99) :
    F32.Small (n + 1) (x.add y) := by
  refine (F32.add_rounds (hx.finite (by omega)) (hy.finite (by omega))).small (n + 1) (by omega) ?_
  rw [pow_succ]
  have := abs_add_le x.val y.val
  have := hx.2
  have := hy.2
  linarith

theorem F32.Small.sub {n : Nat} {x y : F32} (hx : F32.Small n x) (hy : F32.Small n y) (hn : n ≤ 99) :
    F32.Small (n + 1) (x.sub y) := by
  refine (F32.sub_rounds (hx.finite (by omega)) (hy.finite (by omega))).small (n + 1) (by omega) ?_
  rw [pow_succ]
  have := abs_sub x.val y.val
  have := hx.2
  have := hy.2
  linarith

theorem F32.Small.mul {m n : Nat} {x y : F32} (hx : F32.Small m x) (hy : F32.Small n y) (hmn : m + n ≤ 100) :
    F32.Small (m + n) (x.mul y) := by
  refine (F32.mul_rounds (hx.finite (by omega)) (hy.finite (by omega))).small (m + n) hmn ?_
  rw [pow_add, abs_mul]
  exact mul_le_mul hx.2 hy.2 (abs_nonneg _) (by positivity)

/-- A quotient by a value of at least 2^-k. -/
theorem F32.Small.div {n k : Nat} {x y : F32} (hx : F32.Small n x) (hy : y.isFinite = true) (h : 1 / 2 ^ k ≤ |y.val|)
    (hnk : n + k ≤ 100) : F32.Small (n + k) (x.div y) := by
  have hk : (0 : ℚ) < 1 / 2 ^ k := by positivity
  have hy0 : y.val ≠ 0 := fun h0 => by rw [h0, abs_zero] at h; linarith
  refine (F32.div_rounds (hx.finite (by omega)) hy hy0).small (n + k) hnk ?_
  rw [abs_div, div_le_iff₀ (lt_of_lt_of_le hk h), pow_add]
  have h1 : (1 : ℚ) ≤ 2 ^ k * |y.val| := by
    have := mul_le_mul_of_nonneg_left h (show (0 : ℚ) ≤ 2 ^ k by positivity)
    rwa [mul_one_div, div_self (by positivity)] at this
  calc |x.val| ≤ 2 ^ n * 1 := by rw [mul_one]; exact hx.2
    _ ≤ 2 ^ n * (2 ^ k * |y.val|) := mul_le_mul_of_nonneg_left h1 (by positivity)
    _ = _ := by ring

theorem F32.Small.neg {n : Nat} {x : F32} (h : F32.Small n x) : F32.Small n x.neg := by
  refine ⟨by simpa using h.1, ?_⟩
  rw [F32.val_neg, abs_neg]; exact h.2

/-- A clamp of anything that is no NaN lies between its bounds. -/
theorem F32.within_of_clamp {x lo hi : F32} (hx : x.isNaN = false) (hlo : lo.isNaN = false) (hhi : hi.isNaN = false)
    (h : lo.val ≤ hi.val) :
    (F32.clamp x lo hi).isNaN = false ∧ lo.val ≤ (F32.clamp x lo hi).val ∧ (F32.clamp x lo hi).val ≤ hi.val := by
  have := F32.within_iff.mp (F32.clamp_within hx hlo hhi h)
  exact ⟨this.1, this.2.2.2.1, this.2.2.2.2⟩

end Sys2Proof
end

