-- ==== Sys2Proof/Laws/Decode.lean ====
section
/-! SUPPORT. What the field accessors and the transport's byte order do: the fields of a packed word, the word of its own
bytes. -/

namespace Sys2Proof

/-- Appending bit vectors, as values. -/
theorem toNat_append_eq {m n : Nat} (a : BitVec m) (b : BitVec n) : (a ++ b).toNat = a.toNat * 2 ^ n + b.toNat := by
  rw [BitVec.toNat_append, ← Nat.shiftLeft_add_eq_or_of_lt b.isLt, Nat.shiftLeft_eq]

theorem packW0_toNat (op : Nat) (a : BitVec 8) (b : BitVec 16) :
    (packW0 op a b).toNat = op % 2 ^ 8 * 2 ^ 24 + a.toNat * 2 ^ 16 + b.toNat := by
  have : (packW0 op a b).toNat = (BitVec.ofNat 8 op ++ a ++ b).toNat := rfl
  rw [this, toNat_append_eq, toNat_append_eq, BitVec.toNat_ofNat]
  ring

theorem wordOfBytes_toNat (b0 b1 b2 b3 : Byte) :
    (wordOfBytes b0 b1 b2 b3).toNat = b3.toNat * 2 ^ 24 + b2.toNat * 2 ^ 16 + b1.toNat * 2 ^ 8 + b0.toNat := by
  have : (wordOfBytes b0 b1 b2 b3).toNat = (b3 ++ b2 ++ b1 ++ b0).toNat := rfl
  rw [this, toNat_append_eq, toNat_append_eq, toNat_append_eq]
  ring

/-- The fields of a word as digits of its value (30_encoding.md R100). -/
theorem fieldOp_eq (w : Word) : fieldOp w = w.toNat / 2 ^ 24 := by
  have := w.isLt
  simp [fieldOp, BitVec.extractLsb'_toNat, Nat.shiftRight_eq_div_pow]
  omega

theorem fieldA_toNat (w : Word) : (fieldA w).toNat = w.toNat / 2 ^ 16 % 2 ^ 8 := by
  simp [fieldA, BitVec.extractLsb'_toNat, Nat.shiftRight_eq_div_pow]

theorem fieldB_toNat (w : Word) : (fieldB w).toNat = w.toNat % 2 ^ 16 := by
  simp [fieldB, BitVec.extractLsb'_toNat]

@[simp] theorem fieldOp_packW0 (op : Nat) (a : BitVec 8) (b : BitVec 16) : fieldOp (packW0 op a b) = op % 256 := by
  rw [fieldOp_eq, packW0_toNat]
  have := a.isLt
  have := b.isLt
  omega

@[simp] theorem fieldA_packW0 (op : Nat) (a : BitVec 8) (b : BitVec 16) : fieldA (packW0 op a b) = a := by
  apply BitVec.eq_of_toNat_eq
  rw [fieldA_toNat, packW0_toNat]
  have := a.isLt
  have := b.isLt
  omega

@[simp] theorem fieldB_packW0 (op : Nat) (a : BitVec 8) (b : BitVec 16) : fieldB (packW0 op a b) = b := by
  apply BitVec.eq_of_toNat_eq
  rw [fieldB_toNat, packW0_toNat]
  have := b.isLt
  omega

/-- A word is the word of its four bytes. -/
@[simp] theorem wordOfBytes_wordBytes (w : Word) :
    wordOfBytes (w.extractLsb' 0 8) (w.extractLsb' 8 8) (w.extractLsb' 16 8) (w.extractLsb' 24 8) = w := by
  apply BitVec.eq_of_toNat_eq
  rw [wordOfBytes_toNat]
  simp only [BitVec.extractLsb'_toNat, Nat.shiftRight_eq_div_pow]
  have := w.isLt
  omega

/-- The bytes of two words decode as the words do. -/
theorem decodeBytes_wordBytes (w0 w1 : Word) : decodeBytes (wordBytes w0 ++ wordBytes w1) = .ok (decode w0 w1) := by
  simp [decodeBytes, wordBytes]

end Sys2Proof
end

