-- ==== Sys2Proof/Laws/Envelope.lean ====
section
/-! SUPPORT. The ranges of the envelope's times and coefficients (41_envelope.md R171, R172) and of the levels its ticks
give (R173 to R180). -/

namespace Sys2Proof.Machine

/-- A binary32 in [0.0, 1.0], in terms of its value. -/
theorem unit_iff {x : F32} : F32.within c0 c1 x = true ↔ x.isNaN = false ∧ 0 ≤ x.val ∧ x.val ≤ 1 := by
  rw [F32.within_iff]; simp

/-- A finite binary32 from integer bounds of its value. -/
theorem finite_of_int_bounds {x : F32} (a b : Int) (h1 : (a : ℚ) ≤ x.val) (h2 : x.val ≤ b) (ha : -2 ^ 100 ≤ a) (hb : b ≤ 2 ^ 100) :
    x.isFinite = true :=
  F32.finite_of_bounds h1 h2 (by exact_mod_cast ha) (by exact_mod_cast hb)

theorem unit_finite {x : F32} (h0 : 0 ≤ x.val) (h1 : x.val ≤ 1) : x.isFinite = true :=
  finite_of_int_bounds 0 1 (by exact_mod_cast h0) (by exact_mod_cast h1) (by norm_num) (by norm_num)

/-- `ENV_TIME(p)` lies between 2^-10 and 17 seconds. -/
theorem envTime_bounds {lib : TransLib} (hl : LibOk lib) {p : F32} (h0 : 0 ≤ p.val) (h1 : p.val ≤ 1) :
    (envTime lib p).isNaN = false ∧ 1 / 2 ^ 10 ≤ (envTime lib p).val ∧ (envTime lib p).val ≤ 17 := by
  have hm := F32.mul_rounds (unit_finite h0 h1) (y := cLog2_1E4) (by decide)
  have hlog : (0 : ℚ) < cLog2_1E4.val ∧ cLog2_1E4.val ≤ 14 := by constructor <;> norm_num
  have ha : 0 ≤ (p.mul cLog2_1E4).val := hm.nonneg (mul_nonneg h0 hlog.1.le)
  have hb : (p.mul cLog2_1E4).val ≤ 14 := by
    have := hm.le_int 14 (by norm_num) (by push_cast; nlinarith)
    exact_mod_cast this
  have e1 := hl.exp2_ge _ 0 hm.notNaN (by norm_num) (by norm_num) (by push_cast; exact ha)
  have e2 := hl.exp2_le _ 14 hm.notNaN (by norm_num) (by norm_num) (by push_cast; exact hb)
  norm_num at e1 e2
  have ht : cTMin.val = 8589935 / 8589934592 := by simp
  have hr := F32.mul_rounds (x := cTMin) (by decide)
    (finite_of_int_bounds 1 16384 (by exact_mod_cast e1) (by exact_mod_cast e2) (by norm_num) (by norm_num))
  refine ⟨hr.notNaN, ?_, ?_⟩
  · have := hr.ge_rep 1 139 (by norm_num) (by norm_num) (by rw [ht]; norm_num at *; nlinarith)
    norm_num at this ⊢
    exact this
  · have := hr.le_int 17 (by norm_num) (by rw [ht]; push_cast; nlinarith)
    exact_mod_cast this

/-- `ENV_TIME(p) * FS` lies between 7 and 2^22 ticks. -/
theorem envTicks_bounds {lib : TransLib} (hl : LibOk lib) {p fs : F32} (h0 : 0 ≤ p.val) (h1 : p.val ≤ 1)
    (hf0 : 8000 ≤ fs.val) (hf1 : fs.val ≤ 192000) :
    ((envTime lib p).mul fs).isNaN = false ∧ 7 ≤ ((envTime lib p).mul fs).val ∧ ((envTime lib p).mul fs).val ≤ 2 ^ 22 := by
  obtain ⟨_, ht0, ht1⟩ := envTime_bounds hl h0 h1
  have hr := F32.mul_rounds (finite_of_int_bounds 0 17 (by push_cast; linarith [show (0 : ℚ) < 1 / 2 ^ 10 by norm_num])
    (by exact_mod_cast ht1) (by norm_num) (by norm_num))
    (finite_of_int_bounds 8000 192000 (by exact_mod_cast hf0) (by exact_mod_cast hf1) (by norm_num) (by norm_num))
  refine ⟨hr.notNaN, ?_, ?_⟩
  · have := hr.ge_int 7 (by norm_num) (by push_cast; norm_num at ht0; nlinarith)
    exact_mod_cast this
  · have := hr.le_int (2 ^ 22) (by norm_num) (by push_cast; norm_num at ht0 ⊢; nlinarith)
    exact_mod_cast this

/-- Both coefficients lie in [0.0, 1.0]. -/
theorem envCoef_bounds {lib : TransLib} (hl : LibOk lib) {p fs l : F32} (h0 : 0 ≤ p.val) (h1 : p.val ≤ 1)
    (hf0 : 8000 ≤ fs.val) (hf1 : fs.val ≤ 192000) (hl0 : 0 ≤ l.val) (hl1 : l.val ≤ 14) :
    (envCoef lib fs l p).isNaN = false ∧ 0 ≤ (envCoef lib fs l p).val ∧ (envCoef lib fs l p).val ≤ 1 := by
  obtain ⟨_, ht0, ht1⟩ := envTicks_bounds hl h0 h1 hf0 hf1
  set T := (envTime lib p).mul fs
  have hd := F32.div_rounds
    (finite_of_int_bounds 0 14 (by exact_mod_cast hl0) (by exact_mod_cast hl1) (by norm_num) (by norm_num))
    (finite_of_int_bounds 7 (2 ^ 22) (by exact_mod_cast ht0) (by exact_mod_cast ht1) (by norm_num) (by norm_num))
    (by linarith)
  have hq0 : 0 ≤ (l.div T).val := hd.nonneg (div_nonneg hl0 (by linarith))
  have hq1 : (l.div T).val ≤ 2 := by
    have := hd.le_int 2 (by norm_num) (by push_cast; rw [div_le_iff₀ (by linarith)]; linarith)
    exact_mod_cast this
  have hs := F32.sub_rounds (x := c0) (by decide)
    (finite_of_int_bounds 0 2 (by exact_mod_cast hq0) (by exact_mod_cast hq1) (by norm_num) (by norm_num))
  have hn : (c0.sub (l.div T)).val ≤ 0 := hs.nonpos (by rw [c0_val]; linarith)
  have e0 := hl.exp2_nonneg _ hs.notNaN
  have e1 := hl.exp2_le _ 0 hs.notNaN (by norm_num) (by norm_num) (by push_cast; exact hn)
  norm_num at e1
  have hr := F32.sub_rounds (x := c1) (by decide) (unit_finite e0 e1)
  rw [c1_val] at hr
  refine ⟨hr.notNaN, hr.nonneg (by linarith), ?_⟩
  have := hr.le_int 1 (by norm_num) (by push_cast; linarith)
  exact_mod_cast this

theorem coefAtt_bounds {lib : TransLib} (hl : LibOk lib) {p fs : F32} (h0 : 0 ≤ p.val) (h1 : p.val ≤ 1)
    (hf0 : 8000 ≤ fs.val) (hf1 : fs.val ≤ 192000) :
    (coefAtt lib fs p).isNaN = false ∧ 0 ≤ (coefAtt lib fs p).val ∧ (coefAtt lib fs p).val ≤ 1 :=
  envCoef_bounds hl h0 h1 hf0 hf1 (by norm_num) (by norm_num)

theorem coefDr_bounds {lib : TransLib} (hl : LibOk lib) {p fs : F32} (h0 : 0 ≤ p.val) (h1 : p.val ≤ 1)
    (hf0 : 8000 ≤ fs.val) (hf1 : fs.val ≤ 192000) :
    (coefDr lib fs p).isNaN = false ∧ 0 ≤ (coefDr lib fs p).val ∧ (coefDr lib fs p).val ≤ 1 :=
  envCoef_bounds hl h0 h1 hf0 hf1 (by norm_num) (by norm_num)

/-- A rounding of a value between two binary32 values lies between them. -/
theorem rounds_between {v : ℚ} {x a b : F32} (h : F32.Rounds v x) (ha : a.isNaN = false) (hb : b.isNaN = false)
    (h1 : a.val ≤ v) (h2 : v ≤ b.val) : a.val ≤ x.val ∧ x.val ≤ b.val :=
  ⟨h.ge ha h1, h.le hb h2⟩

/-- The step `level + (target - level) * c` with `c` in [0.0, 1.0] goes from a level toward a target, and no further. -/
theorem approach_bounds {level target c : F32} (hl : level.isFinite = true) (ht : target.isFinite = true)
    (hl2 : |level.val| ≤ 2) (ht2 : |target.val| ≤ 2) (hc0 : 0 ≤ c.val) (hc1 : c.val ≤ 1) :
    let x := level.add ((target.sub level).mul c)
    x.isNaN = false ∧ (level.val ≤ target.val → level.val ≤ x.val ∧ x.val ≤ 4) ∧
    (target.val ≤ level.val → x.val ≤ level.val) ∧ (target.val ≤ level.val → 0 ≤ target.val → 0 ≤ x.val) := by
  rw [abs_le] at hl2 ht2
  have hd := F32.sub_rounds ht hl
  have hd4 : |(target.sub level).val| ≤ 2 ^ 2 := hd.abs_le_pow 2 (by norm_num) (by rw [abs_le]; constructor <;> linarith)
  rw [abs_le] at hd4
  have hm := F32.mul_rounds (F32.finite_of_abs_le 2 (by norm_num) (abs_le.mpr hd4)) (unit_finite hc0 hc1)
  have hm4 : |((target.sub level).mul c).val| ≤ 2 ^ 2 := hm.abs_le_pow 2 (by norm_num) (by
    rw [abs_mul, abs_of_nonneg hc0]
    calc _ ≤ |(target.sub level).val| * 1 := mul_le_mul_of_nonneg_left hc1 (abs_nonneg _)
      _ ≤ _ := by rw [mul_one]; exact abs_le.mpr hd4)
  have hmf := F32.finite_of_abs_le 2 (by norm_num) hm4
  have ha := F32.add_rounds hl hmf
  refine ⟨ha.notNaN, ?_, ?_, ?_⟩
  · intro h
    have h1 : 0 ≤ (target.sub level).val := hd.nonneg (by linarith)
    have h2 : 0 ≤ ((target.sub level).mul c).val := hm.nonneg (mul_nonneg h1 hc0)
    have h3 : ((target.sub level).mul c).val ≤ (target.sub level).val :=
      hm.le hd.notNaN (mul_le_of_le_one_right h1 hc1)
    refine ⟨ha.ge (F32.not_nan_of_finite hl) (by linarith), ?_⟩
    have h5 : (target.sub level).val ≤ 4 := by linarith [hd4.2]
    by_cases h6 : level.val ≤ 0
    · have := ha.le_int 4 (by norm_num) (by push_cast; linarith)
      exact_mod_cast this
    · have h7 : (target.sub level).val ≤ 2 := by
        have := hd.le_int 2 (by norm_num) (by push_cast; linarith)
        exact_mod_cast this
      have := ha.le_int 4 (by norm_num) (by push_cast; linarith)
      exact_mod_cast this
  · intro h
    have h1 : (target.sub level).val ≤ 0 := hd.nonpos (by linarith)
    have h2 : ((target.sub level).mul c).val ≤ 0 := hm.nonpos (mul_nonpos_of_nonpos_of_nonneg h1 hc0)
    exact ha.le (F32.not_nan_of_finite hl) (by linarith)
  · intro h h0
    have h1 : (target.sub level).val ≤ 0 := hd.nonpos (by linarith)
    have hneg : level.neg.val = -level.val := F32.val_neg level
    have h2 : level.neg.val ≤ (target.sub level).val :=
      hd.ge (by simpa using F32.not_nan_of_finite hl) (by rw [hneg]; linarith)
    have h3 : (target.sub level).val ≤ ((target.sub level).mul c).val := hm.ge hd.notNaN (by nlinarith)
    exact ha.nonneg (by rw [hneg] at h2; linarith)

/-- `ENV_OUT` lies in [0.0, 1.0]. -/
theorem envOut_unit {e : EnvState} {va vel : F32} (he : F32.within c0 c1 e.level = true) (ha : F32.within c0 c1 va = true)
    (hv : F32.within c0 c1 vel = true) : F32.within c0 c1 (envOut e va vel) = true := by
  rw [unit_iff] at he ha hv ⊢
  obtain ⟨_, he0, he1⟩ := he
  obtain ⟨_, ha0, ha1⟩ := ha
  obtain ⟨_, hv0, hv1⟩ := hv
  have hs := F32.sub_rounds (x := c1) (by decide) (unit_finite ha0 ha1)
  rw [c1_val] at hs
  have hs0 : 0 ≤ (c1.sub va).val := hs.nonneg (by linarith)
  have hs1 : (c1.sub va).val ≤ 1 := by
    have := hs.le_int 1 (by norm_num) (by push_cast; linarith)
    exact_mod_cast this
  have hm := F32.mul_rounds (unit_finite ha0 ha1) (unit_finite hv0 hv1)
  have hm0 : 0 ≤ (va.mul vel).val := hm.nonneg (mul_nonneg ha0 hv0)
  have hm1 : (va.mul vel).val ≤ va.val := by
    refine hm.le (F32.not_nan_of_finite (unit_finite ha0 ha1)) (by nlinarith)
  have hf := F32.add_rounds (unit_finite hs0 hs1) (unit_finite hm0 (hm1.trans ha1))
  have hf0 : 0 ≤ ((c1.sub va).add (va.mul vel)).val := hf.nonneg (by linarith)
  have hs2 : (c1.sub va).val < 1 - va.val + 1 / 2 ^ 24 := by
    have hc := Int.le_ceil ((1 - va.val) * 2 ^ 24)
    have hc2 := Int.ceil_lt_add_one ((1 - va.val) * 2 ^ 24)
    have hcb : ⌈(1 - va.val) * 2 ^ 24⌉ ≤ 2 ^ 24 := by rw [Int.ceil_le]; push_cast; nlinarith
    have hc0 : 0 ≤ ⌈(1 - va.val) * 2 ^ 24⌉ := Int.ceil_nonneg (by nlinarith)
    have e : ∀ k : ℚ, k * 2 ^ 125 / 2 ^ 149 = k / 2 ^ 24 := fun k => by
      rw [show (2 : ℚ) ^ 149 = 2 ^ 24 * 2 ^ 125 by norm_num]; field_simp
    have := hs.le_rep ⌈(1 - va.val) * 2 ^ 24⌉ 125 (by omega) (by norm_num) (by
      rw [e, le_div_iff₀ (by positivity)]; exact hc)
    rw [e] at this
    refine lt_of_le_of_lt this ?_
    rw [div_lt_iff₀ (by positivity), add_mul, one_div_mul_cancel (by positivity)]
    exact hc2
  have hf1 : ((c1.sub va).add (va.mul vel)).val ≤ 1 :=
    F32.add_le_one (unit_finite hs0 hs1) (unit_finite hm0 (hm1.trans ha1)) (by linarith)
  have hr := F32.mul_rounds (unit_finite he0 he1) (unit_finite hf0 hf1)
  refine ⟨hr.notNaN, hr.nonneg (mul_nonneg he0 hf0), ?_⟩
  have := hr.le_int 1 (by norm_num) (by push_cast; nlinarith)
  exact_mod_cast this

end Sys2Proof.Machine
end

