-- ==== Sys2Proof/Laws/Render.lean ====
section
/-! SUPPORT. What one rendered voice, one tick and one RENDER can change (43_voice.md R230, 45_render_mixer.md R310 to
R315). -/

namespace Sys2Proof.Machine

/-! ### One voice -/

/-- A glide step changes the pitch and the counter only. -/
theorem glideStep_frame (s : State) (v : Voice) :
    glideStep s v = { v with gp := (glideStep s v).gp, gn := (glideStep s v).gn } := by
  have h : ∃ x n, glideStep s v = { v with gp := x, gn := n } := by
    unfold glideStep
    dsimp only
    split_ifs <;> exact ⟨_, _, rfl⟩
  obtain ⟨x, n, h⟩ := h
  rw [h]

theorem voiceLfo_frame (s : State) (v : Voice) (noise : F32) (glv : Option F32) :
    (voiceLfo s v noise glv).1 = { v with lfo := (voiceLfo s v noise glv).1.lfo } := by
  cases glv <;> rfl

theorem voiceLfo_congr (s : State) {v w : Voice} (h : v.lfo = w.lfo) (noise : F32) (glv : Option F32) :
    (voiceLfo s v noise glv).1.lfo = (voiceLfo s w noise glv).1.lfo ∧
    (voiceLfo s v noise glv).2 = (voiceLfo s w noise glv).2 := by
  cases glv <;> simp [voiceLfo, h]

/-- The fields of a voice that a render may change, and what they become; every other field is `v`'s. -/
theorem voiceRender_frame (s : State) (v : Voice) (noise : F32) (glv : Option F32) :
    (voiceRender s v noise glv).1 =
      { v with
        gp := (glideStep s v).gp, gn := (glideStep s v).gn
        amp := (advanceEnvelopes s v).amp, flt := (advanceEnvelopes s v).flt
        lfo := (voiceLfo s v noise glv).1.lfo
        osc1 := (voiceRender s v noise glv).1.osc1, osc2 := (voiceRender s v noise glv).1.osc2
        filt := (voiceRender s v noise glv).1.filt } := by
  have hl := voiceLfo_congr s (v := advanceEnvelopes s (glideStep s v)) (w := v)
    (by rw [glideStep_frame s v]; rfl) noise glv
  rw [← hl.1]
  unfold voiceRender renderFilter renderOscillators
  dsimp only
  rw [voiceLfo_frame s (advanceEnvelopes s (glideStep s v))]
  dsimp only
  have hg := glideStep_frame s v
  generalize glideStep s v = w at hg ⊢
  rw [hg]
  rfl

/-- The parts of the state a voice's render reads: library, parameters, `FS`, `BEND`, `WHEEL`. -/
structure SameShared (s t : State) : Prop where
  cfg : s.cfg = t.cfg
  fs : s.fs = t.fs
  bend : s.bend = t.bend
  wheel : s.wheel = t.wheel
  params : s.params = t.params

theorem SameShared.param {s t : State} (h : SameShared s t) (p : Param) : s.param p = t.param p :=
  State.param_congr h.params p

theorem SameShared.paramInt {s t : State} (h : SameShared s t) (p : Param) : s.paramInt p = t.paramInt p := by
  unfold State.paramInt; rw [h.param]

theorem SameShared.switch {s t : State} (h : SameShared s t) (p : Param) : s.switch p = t.switch p := by
  unfold State.switch; rw [h.paramInt]

theorem SameShared.lfoAdvance {s t : State} (h : SameShared s t) (l : LfoState) (noise : F32) :
    lfoAdvance s l noise = lfoAdvance t l noise := by
  unfold Machine.lfoAdvance lfoHz
  simp only [h.cfg, h.fs, h.param, h.paramInt, h.switch]

theorem SameShared.globalLfo {s t : State} (h : SameShared s t) (hg : s.glfo = t.glfo) (noise : F32) :
    globalLfo s noise = globalLfo t noise := by
  unfold Machine.globalLfo
  simp only [h.switch, h.lfoAdvance, hg]

theorem SameShared.voiceRender {s t : State} (h : SameShared s t) (v : Voice) (noise : F32) (glv : Option F32) :
    voiceRender s v noise glv = voiceRender t v noise glv := by
  unfold Machine.voiceRender renderFilter renderOscillators voiceLfo glideStep advanceEnvelopes mixSources pulseWidth pitchDt
    pitch1 pitch2 unisonOffset scaledLfo cutoffHz filterG filterK portaTime
  simp only [h.cfg, h.fs, h.bend, h.wheel, h.param, h.paramInt, h.switch, h.lfoAdvance]

/-! ### The pool -/

/-- A voice after a tick: rendered if active, else unchanged (45_render_mixer.md R312). -/
def tickVoice (s : State) (noise : F32) (glv : Option F32) (v : Voice) : Voice :=
  if v.amp.stage = .idle then v else (voiceRender s v noise glv).1

/-- The pool after a tick, and the ordered sum of the active voices' outputs (R312, R314). -/
theorem renderVoices_eq (s : State) (noise : F32) (glv : Option F32) (vs : List Voice) (acc : F32) :
    renderVoices s noise glv vs acc =
      (vs.map (tickVoice s noise glv),
        ((vs.filter fun v => decide (v.amp.stage ≠ .idle)).map fun v => (voiceRender s v noise glv).2).foldl F32.add acc) := by
  induction vs generalizing acc with
  | nil => rfl
  | cons v vs ih =>
    unfold renderVoices
    by_cases h : v.amp.stage = .idle <;> simp [h, ih, tickVoice]

/-- Two states that agree on what renders read give the same pool and the same sum. -/
theorem SameShared.renderVoices {s t : State} (h : SameShared s t) (noise : F32) (glv : Option F32) (vs : List Voice)
    (acc : F32) : renderVoices s noise glv vs acc = renderVoices t noise glv vs acc := by
  induction vs generalizing acc with
  | nil => rfl
  | cons v vs ih => unfold Machine.renderVoices; simp only [h.voiceRender, ih]

/-! ### The tick -/

/-- The sample of a tick: the ordered sum, through master volume, clamp and conversion. -/
def tickSample (s : State) : Sample :=
  convSample s.cfg.outFmt (masterOut s (renderVoices s (tickNoise s) (tickGlobalValue s) s.voices c0).2)

/-- Everything a tick does. -/
theorem tick_eq (s : State) :
    tick s =
      { s with
        rng := rngNext s.rng, glfo := (globalLfo s (tickNoise s)).1
        voices := s.voices.map (tickVoice s (tickNoise s) (tickGlobalValue s))
        out := s.out ++ [tickSample s, tickSample s] } := by
  have h : tick s =
      { s with
        rng := rngNext s.rng, glfo := (globalLfo s (tickNoise s)).1
        voices := (renderVoices s (tickNoise s) (tickGlobalValue s) s.voices c0).1
        out := s.out ++ [tickSample s, tickSample s] } := rfl
  rw [h, renderVoices_eq]

@[simp] theorem tick_cfg (s : State) : (tick s).cfg = s.cfg := by rw [tick_eq]
@[simp] theorem tick_fs (s : State) : (tick s).fs = s.fs := by rw [tick_eq]
@[simp] theorem tick_pedal (s : State) : (tick s).pedal = s.pedal := by rw [tick_eq]
@[simp] theorem tick_bend (s : State) : (tick s).bend = s.bend := by rw [tick_eq]
@[simp] theorem tick_wheel (s : State) : (tick s).wheel = s.wheel := by rw [tick_eq]
@[simp] theorem tick_age (s : State) : (tick s).age = s.age := by rw [tick_eq]
@[simp] theorem tick_rdata (s : State) : (tick s).rdata = s.rdata := by rw [tick_eq]
@[simp] theorem tick_remain (s : State) : (tick s).remain = s.remain := by rw [tick_eq]
@[simp] theorem tick_params (s : State) : (tick s).params = s.params := by rw [tick_eq]
@[simp] theorem tick_outKept (s : State) : (tick s).outKept = s.outKept := by rw [tick_eq]
@[simp] theorem tick_host (s : State) : (tick s).host = s.host := by rw [tick_eq]
@[simp] theorem tick_hostTakes (s : State) : (tick s).hostTakes = s.hostTakes := by rw [tick_eq]
@[simp] theorem tick_rng (s : State) : (tick s).rng = rngNext s.rng := by rw [tick_eq]
@[simp] theorem tick_glfo (s : State) : (tick s).glfo = (globalLfo s (tickNoise s)).1 := by rw [tick_eq]
@[simp] theorem tick_voices (s : State) :
    (tick s).voices = s.voices.map (tickVoice s (tickNoise s) (tickGlobalValue s)) := by rw [tick_eq]
theorem tick_out (s : State) : (tick s).out = s.out ++ [tickSample s, tickSample s] := by rw [tick_eq]

theorem tick_voices_length (s : State) : (tick s).voices.length = s.voices.length := by simp

theorem tick_out_length (s : State) : (tick s).out.length = s.out.length + 2 := by simp [tick_out]

/-- What a tick reads of the state: everything but the port. -/
theorem tickSample_congr {s t : State} (h : SameShared s t) (hr : s.rng = t.rng) (hg : s.glfo = t.glfo)
    (hv : s.voices = t.voices) : tickSample s = tickSample t := by
  unfold tickSample masterOut tickGlobalValue tickNoise
  rw [h.cfg, hr, h.globalLfo hg, hv, h.renderVoices, h.param]

theorem tickVoice_congr {s t : State} (h : SameShared s t) (noise : F32) (glv : Option F32) :
    tickVoice s noise glv = tickVoice t noise glv := by
  funext v; unfold tickVoice; rw [h.voiceRender]

/-- A tick neither reads nor writes `REMAIN` and the host's side. -/
theorem tick_port (s : State) (r : BitVec 16) (h : List HostEvent) (k : Option Nat) :
    tick { s with remain := r, host := h, hostTakes := k } = { tick s with remain := r, host := h, hostTakes := k } := by
  have hs : SameShared { s with remain := r, host := h, hostTakes := k } s := ⟨rfl, rfl, rfl, rfl, rfl⟩
  rw [tick_eq, tick_eq s, tickSample_congr hs rfl rfl rfl, tickVoice_congr hs, hs.globalLfo rfl]
  unfold tickGlobalValue tickNoise
  rw [hs.globalLfo rfl]

theorem tick_remain_update (s : State) (r : BitVec 16) : tick { s with remain := r } = { tick s with remain := r } := by
  rw [tick_port s r s.host s.hostTakes]
  simp only [tick_host, tick_hostTakes]

theorem iterate_tick_port (n : Nat) (s : State) (r : BitVec 16) (h : List HostEvent) (k : Option Nat) :
    tick^[n] { s with remain := r, host := h, hostTakes := k } =
      { tick^[n] s with remain := r, host := h, hostTakes := k } := by
  induction n generalizing s with
  | zero => rfl
  | succ n ih => rw [Function.iterate_succ_apply, Function.iterate_succ_apply, tick_port, ih]

@[simp] theorem iterate_tick_remain (n : Nat) (s : State) : (tick^[n] s).remain = s.remain := by
  induction n generalizing s with
  | zero => rfl
  | succ n ih => rw [Function.iterate_succ_apply, ih, tick_remain]

@[simp] theorem iterate_tick_host (n : Nat) (s : State) : (tick^[n] s).host = s.host := by
  induction n generalizing s with
  | zero => rfl
  | succ n ih => rw [Function.iterate_succ_apply, ih, tick_host]

@[simp] theorem iterate_tick_hostTakes (n : Nat) (s : State) : (tick^[n] s).hostTakes = s.hostTakes := by
  induction n generalizing s with
  | zero => rfl
  | succ n ih => rw [Function.iterate_succ_apply, ih, tick_hostTakes]

/-! ### RENDER's loop -/

/-- The number of turns that a host which will consume `k` more frames lets a RENDER of `n` frames run. -/
def turnsRun (n : Nat) : Option Nat → Nat
  | none => n
  | some k => min n k

/-- What the host will still consume after `n` frames. -/
def takesLeft (n : Nat) (k : Option Nat) : Option Nat := k.map fun m => m - n

/-- RENDER's loop runs as many ticks as it has left or as the host consumes, whichever is less; it counts them down in
`REMAIN` and in what the host still consumes, and changes nothing else that a tick does not. -/
theorem renderLoop_eq (n : Nat) (s : State) :
    renderLoop n s =
      { tick^[turnsRun n s.hostTakes] s with
        remain := s.remain - BitVec.ofNat 16 (turnsRun n s.hostTakes)
        hostTakes := takesLeft (turnsRun n s.hostTakes) s.hostTakes } := by
  induction n generalizing s with
  | zero =>
    have h0 : turnsRun 0 s.hostTakes = 0 := by cases s.hostTakes <;> simp [turnsRun]
    rw [h0]
    have h1 : takesLeft 0 s.hostTakes = s.hostTakes := by cases h : s.hostTakes <;> simp [takesLeft]
    rw [h1]
    simp [renderLoop]
  | succ n ih =>
    unfold renderLoop
    split
    · rename_i h
      rw [h]
      simp [turnsRun, takesLeft, ← h]
    · rename_i h
      have hturn : renderTurn s = { tick s with remain := s.remain - 1#16, hostTakes := takeFrame s.hostTakes } := by
        unfold renderTurn
        simp only [tick_remain, tick_hostTakes]
      rw [ih, hturn]
      have hk : turnsRun (n + 1) s.hostTakes = turnsRun n (takeFrame s.hostTakes) + 1 ∧
          takesLeft (turnsRun n (takeFrame s.hostTakes)) (takeFrame s.hostTakes)
            = takesLeft (turnsRun (n + 1) s.hostTakes) s.hostTakes := by
        cases hc : s.hostTakes with
        | none => simp [turnsRun, takeFrame, takesLeft]
        | some k =>
          have : k ≠ 0 := fun h0 => h (by rw [hc, h0])
          simp only [turnsRun, takeFrame, takesLeft, Option.map_some]
          constructor
          · omega
          · congr 1; omega
      simp only [hk.2]
      rw [hk.1, Function.iterate_succ_apply]
      have hp := iterate_tick_port (turnsRun n (takeFrame s.hostTakes)) (tick s) (s.remain - 1#16) (tick s).host
        (takeFrame s.hostTakes)
      simp only [hp]
      congr 1
      · rw [BitVec.ofNat_add, add_comm (BitVec.ofNat 16 (turnsRun n (takeFrame s.hostTakes))), ← BitVec.sub_sub]
      all_goals simp

end Sys2Proof.Machine
end

