-- ==== Sys2Proof/Laws/Exec.lean ====
section
/-! SUPPORT. What a step can do, and invariants by cases on it (20_memory.md R86, 45_render_mixer.md R310,
70_reset_and_hazards.md R390, R400). -/

namespace Sys2Proof.Machine

/-- What RENDER's command does: `REMAIN` is set and the loop runs. -/
theorem exec_render (n : Nat) (s : State) : exec (.render n) s = .next (runRender { s with remain := BitVec.ofNat 16 n }) := rfl

/-- Everything a step can do: execute the command offered, reset, learn what the host consumes, stay, or go on with a
RENDER. -/
theorem step_cases {s t : State} (h : step s = .next t) :
    (s.remain = 0#16 ∧ ∃ w0 w1 rest, s.host = .command w0 w1 :: rest ∧
      exec (decode w0 w1) { s with host := rest } = .next t) ∨
    (∃ rest, s.host = .reset :: rest ∧ t = State.applyReset { s with host := rest }) ∨
    (∃ n rest, s.host = .takes n :: rest ∧ t = { s with host := rest, hostTakes := n }) ∨
    t = s ∨
    (s.remain ≠ 0#16 ∧ s.hostTakes ≠ some 0 ∧ t = runRender s) := by
  unfold step portAction at h
  by_cases hr : s.remain = 0#16
  · rw [if_pos hr] at h
    unfold idlePort at h
    cases hh : s.host with
    | nil =>
      rw [hh] at h
      exact .inr (.inr (.inr (.inl (Host.Outcome.next.inj h).symm)))
    | cons e rest =>
      rw [hh] at h
      cases e with
      | command w0 w1 => exact .inl ⟨hr, w0, w1, rest, rfl, h⟩
      | reset => exact .inr (.inl ⟨rest, rfl, (Host.Outcome.next.inj h).symm⟩)
      | takes n => exact .inr (.inr (.inl ⟨n, rest, rfl, (Host.Outcome.next.inj h).symm⟩))
  · rw [if_neg hr] at h
    by_cases hk : s.hostTakes = some 0
    · rw [if_pos hk] at h
      unfold waitingPort at h
      cases hh : s.host with
      | nil =>
        rw [hh] at h
        exact .inr (.inr (.inr (.inl (Host.Outcome.next.inj h).symm)))
      | cons e rest =>
        rw [hh] at h
        cases e with
        | command w0 w1 => exact .inr (.inr (.inr (.inl (Host.Outcome.next.inj h).symm)))
        | reset => exact .inr (.inl ⟨rest, rfl, (Host.Outcome.next.inj h).symm⟩)
        | takes n => exact .inr (.inr (.inl ⟨n, rest, rfl, (Host.Outcome.next.inj h).symm⟩))
    · rw [if_neg hk] at h
      exact .inr (.inr (.inr (.inr ⟨hr, hk, (Host.Outcome.next.inj h).symm⟩)))

/-- A property that no tick and no change of the port's own fields breaks holds after RENDER's loop. -/
theorem runRender_keeps {I : State → Prop}
    (hport : ∀ s r h k, I s → I { s with remain := r, host := h, hostTakes := k }) (htick : ∀ s, I s → I (tick s))
    (s : State) (hs : I s) : I (runRender s) := by
  have hit : ∀ n u, I u → I (tick^[n] u) := by
    intro n
    induction n with
    | zero => exact fun _ hu => hu
    | succ n ih => intro u hu; rw [Function.iterate_succ_apply]; exact ih _ (htick u hu)
  unfold runRender
  rw [renderLoop_eq]
  exact hport _ _ _ _ (hit _ s hs)

/-- An invariant that reset, every tick, every command but RENDER and every change of the port's own fields keep is kept by
every step. -/
theorem step_keeps {I : State → Prop}
    (hport : ∀ s r h k, I s → I { s with remain := r, host := h, hostTakes := k })
    (hreset : ∀ s, I s → I s.applyReset) (htick : ∀ s, I s → I (tick s))
    (hcmd : ∀ w0 w1 s t, (∀ n, decode w0 w1 ≠ .render n) → I s → exec (decode w0 w1) s = .next t → I t)
    (s t : State) (hs : I s) (h : step s = .next t) : I t := by
  rcases step_cases h with ⟨_, w0, w1, rest, _, he⟩ | ⟨rest, _, rfl⟩ | ⟨n, rest, _, rfl⟩ | rfl | ⟨_, _, rfl⟩
  · have h1 : I { s with host := rest } := hport s s.remain rest s.hostTakes hs
    by_cases hc : ∃ n, decode w0 w1 = .render n
    · obtain ⟨n, hn⟩ := hc
      rw [hn, exec_render] at he
      obtain rfl := Host.Outcome.next.inj he
      exact runRender_keeps hport htick _ (hport _ _ _ _ h1)
    · exact hcmd w0 w1 _ t (fun n hn => hc ⟨n, hn⟩) h1 he
  · exact hreset _ (hport s s.remain rest s.hostTakes hs)
  · exact hport s s.remain rest n hs
  · exact hs
  · exact runRender_keeps hport htick s hs

end Sys2Proof.Machine
end

