-- ==== Sys2Proof/Laws/Filter.lean ====
section
/-! SUPPORT. One stage of the filter stays bounded (42_filter.md R206), and the ranges of the damping and of the tangent's
argument (R204, R205). -/

namespace Sys2Proof.Machine

theorem negFiltLim : c0.sub cFiltLim = ⟨0xBF99999A#32⟩ := by decide +kernel

theorem negFiltLim_val : (c0.sub cFiltLim).val = -(5033165 / 4194304) := by
  rw [negFiltLim, F32.val, show (⟨0xBF99999A#32⟩ : F32).units = (-10066330 * 2 ^ 126) by decide +kernel]; norm_num

theorem negFiltLim_notNaN : (c0.sub cFiltLim).isNaN = false := by rw [negFiltLim]; decide

theorem filtLegal_iff {x : F32} :
    filtLegal x = true ↔ x.isNaN = false ∧ -(5033165 / 4194304) ≤ x.val ∧ x.val ≤ 5033165 / 4194304 := by
  unfold filtLegal
  rw [F32.within_iff, negFiltLim_val, cFiltLim_val]
  simp [negFiltLim_notNaN]

theorem clampFilt_legal {x : F32} (h : x.isNaN = false) : filtLegal (clampFilt x) = true :=
  F32.clamp_within h negFiltLim_notNaN cFiltLim_notNaN (by rw [negFiltLim_val, cFiltLim_val]; norm_num)

theorem filtLegal_small {x : F32} (h : filtLegal x = true) : F32.Small 1 x := by
  rw [filtLegal_iff] at h
  exact F32.Small.of_bounds h.1 (by linarith [h.2.1]) (by linarith [h.2.2])

/-- The denominator of a stage is at least 255/256, at every `g` in [0.0, 8.0] and damping in [-0.05, 2.0] (R206). -/
theorem svfDen_bounds {g kk : F32} (hg : g.isNaN = false) (hg0 : 0 ≤ g.val) (hg1 : g.val ≤ 8) (hk : kk.isNaN = false)
    (hk0 : -1 / 20 ≤ kk.val) (hk1 : kk.val ≤ 2) :
    255 / 256 ≤ (c1.add (g.mul (g.add kk))).val ∧ (c1.add (g.mul (g.add kk))).isFinite = true := by
  have sg : F32.Small 3 g := F32.Small.of_bounds hg (by linarith) (by linarith)
  have sk : F32.Small 3 kk := F32.Small.of_bounds hk (by linarith) (by linarith)
  have ss := sg.add sk (by norm_num)
  have sm := sg.mul ss (by norm_num)
  have s1 : F32.Small 7 c1 := F32.Small.of_bounds c1_notNaN (by rw [c1_val]; norm_num) (by rw [c1_val]; norm_num)
  have sd := s1.add (sm.mono (n := 7) (by norm_num)) (by norm_num)
  refine ⟨?_, sd.finite (by norm_num)⟩
  have ra := F32.add_rounds (sg.finite (by norm_num)) (sk.finite (by norm_num))
  have rm := F32.mul_rounds (sg.finite (by norm_num)) (ss.finite (by norm_num))
  have r1 := F32.add_rounds (x := c1) (by decide) (sm.finite (by norm_num))
  rw [c1_val] at r1
  have hprod : -1 / 256 ≤ (g.mul (g.add kk)).val := by
    by_cases h : 0 ≤ g.val + kk.val
    · have h1 := ra.nonneg h
      have h2 := rm.nonneg (mul_nonneg hg0 h1)
      linarith
    · rw [not_le] at h
      have h1 : -1 / 16 ≤ (g.add kk).val := by
        have := ra.ge_rep (-1) 145 (by norm_num) (by norm_num) (by norm_num; linarith)
        norm_num at this ⊢; exact this
      have hg2 : g.val ≤ 1 / 20 := by linarith
      have h2 : -1 / 256 ≤ g.val * (g.add kk).val := by nlinarith
      have := rm.ge_rep (-1) 141 (by norm_num) (by norm_num) (by norm_num at h2 ⊢; linarith)
      norm_num at this ⊢; exact this
  have := r1.ge_rep 255 141 (by norm_num) (by norm_num) (by norm_num at hprod ⊢; linarith)
  norm_num at this ⊢; exact this

/-- Every state and every tap of a stage lies within `[-FILT_LIM, FILT_LIM]` after its step (R206). -/
theorem svf_bounded {s : SvfState} {v0 g kk : F32} (h1 : filtLegal s.ic1 = true) (h2 : filtLegal s.ic2 = true)
    (hv : F32.Small 1 v0) (hg : g.isNaN = false) (hg0 : 0 ≤ g.val) (hg1 : g.val ≤ 8) (hk : kk.isNaN = false)
    (hk0 : -1 / 20 ≤ kk.val) (hk1 : kk.val ≤ 2) :
    filtLegal (svf s v0 g kk).1.ic1 = true ∧ filtLegal (svf s v0 g kk).1.ic2 = true ∧
    filtLegal (svf s v0 g kk).2.lp = true ∧ filtLegal (svf s v0 g kk).2.bp = true ∧
    filtLegal (svf s v0 g kk).2.hp = true := by
  obtain ⟨hd, hdf⟩ := svfDen_bounds hg hg0 hg1 hk hk0 hk1
  have sg : F32.Small 3 g := F32.Small.of_bounds hg (by linarith) (by linarith)
  have sk : F32.Small 1 kk := F32.Small.of_bounds hk (by linarith) (by linarith)
  have s0 : F32.Small 0 c1 := F32.Small.of_bounds c1_notNaN (by rw [c1_val]; norm_num) (by rw [c1_val]; norm_num)
  have sc2 : F32.Small 1 c2 := F32.Small.of_bounds c2_notNaN (by rw [c2_val]; norm_num) (by rw [c2_val]; norm_num)
  have sa1 : F32.Small 1 (c1.div (c1.add (g.mul (g.add kk)))) :=
    s0.div (k := 1) hdf (by rw [abs_of_nonneg (by linarith)]; linarith) (by norm_num)
  have si1 := filtLegal_small h1
  have si2 := filtLegal_small h2
  unfold svf
  dsimp only
  generalize c1.div (c1.add (g.mul (g.add kk))) = a1 at sa1
  have sa2 := sg.mul sa1 (by norm_num)
  have sa3 := sg.mul sa2 (by norm_num)
  have sv3 := hv.sub si2 (by norm_num)
  have sv1 : F32.Small 10 ((a1.mul s.ic1).add ((g.mul a1).mul (v0.sub s.ic2))) :=
    (((sa1.mul si1 (by norm_num)).mono (n := 9) (by norm_num)).add ((sa2.mul sv3 (by norm_num)).mono (by norm_num))
      (by norm_num)).mono (by norm_num)
  have l1 := clampFilt_legal sv1.notNaN
  have sv2 : F32.Small 12 ((s.ic2.add ((g.mul a1).mul s.ic1)).add ((g.mul (g.mul a1)).mul (v0.sub s.ic2))) :=
    ((((si2.mono (n := 9) (by norm_num)).add ((sa2.mul si1 (by norm_num)).mono (by norm_num)) (by norm_num)).mono
      (n := 11) (by norm_num)).add ((sa3.mul sv3 (by norm_num)).mono (by norm_num)) (by norm_num)).mono (by norm_num)
  have l2 := clampFilt_legal sv2.notNaN
  have t1 := filtLegal_small l1
  have t2 := filtLegal_small l2
  refine ⟨clampFilt_legal ?_, clampFilt_legal ?_, l2, l1, clampFilt_legal ?_⟩
  · exact ((sc2.mul t1 (by norm_num)).sub (si1.mono (by norm_num)) (by norm_num)).notNaN
  · exact ((sc2.mul t2 (by norm_num)).sub (si2.mono (by norm_num)) (by norm_num)).notNaN
  · exact (((hv.mono (n := 2) (by norm_num)).sub (sk.mul t1 (by norm_num)) (by norm_num)).sub (t2.mono (by norm_num))
      (by norm_num)).notNaN

/-- The tap a mode picks is one of the three. -/
theorem pickTap_cases (mode : Int) (t : Taps) : pickTap mode t = t.lp ∨ pickTap mode t = t.bp ∨ pickTap mode t = t.hp := by
  unfold pickTap
  split_ifs <;> simp

/-- A frequency no higher than `NYQ_FRAC * FS` gives a tangent's argument in [0.0, 1.414] (R204). -/
theorem tanArg_bounds {fc fs : F32} (h0 : 0 ≤ fc.val) (h1 : fc.val ≤ (cNyqFrac.mul fs).val)
    (hf0 : 8000 ≤ fs.val) (hf1 : fs.val ≤ 192000) :
    (cPi.mul (fc.div fs)).isNaN = false ∧ 0 ≤ (cPi.mul (fc.div fs)).val ∧ (cPi.mul (fc.div fs)).val ≤ 707 / 500 := by
  have hfs := finite_of_int_bounds 8000 192000 (by exact_mod_cast hf0) (by exact_mod_cast hf1) (by norm_num) (by norm_num)
  have rn := F32.mul_rounds (x := cNyqFrac) (by decide) hfs
  have hn : cNyqFrac.val ≤ 450001 / 1000000 ∧ 449999 / 1000000 ≤ cNyqFrac.val := by constructor <;> norm_num
  have hrel := (rn.relative (by norm_num at hn ⊢; nlinarith) (by norm_num at hn ⊢; nlinarith)).1
  have hfc : fc.val ≤ 450003 / 1000000 * fs.val := by norm_num at hrel hn ⊢; nlinarith
  have hfcf : fc.isFinite = true :=
    finite_of_int_bounds 0 192000 (by exact_mod_cast h0) (by push_cast; linarith) (by norm_num) (by norm_num)
  have rd := F32.div_rounds hfcf hfs (by linarith)
  have hq0 : 0 ≤ (fc.div fs).val := rd.nonneg (div_nonneg h0 (by linarith))
  have hq1 : (fc.div fs).val ≤ 450005 / 1000000 := by
    have hv : fc.val / fs.val ≤ 450003 / 1000000 := by rw [div_le_iff₀ (by linarith)]; exact hfc
    by_cases hsm : fc.val / fs.val ≤ 1 / 4
    · have := rd.le_rep 1 147 (by norm_num) (by norm_num) (by norm_num; linarith)
      norm_num at this ⊢; linarith
    · rw [not_le] at hsm
      have := (rd.relative (le_trans (by norm_num) hsm.le) (hv.trans (by norm_num))).1
      norm_num at this ⊢; linarith
  have rp := F32.mul_rounds (x := cPi) (by decide) (unit_finite hq0 (hq1.trans (by norm_num)))
  have hp : cPi.val ≤ 31415928 / 10000000 ∧ 3 ≤ cPi.val := by constructor <;> norm_num
  refine ⟨rp.notNaN, rp.nonneg (mul_nonneg (by linarith [hp.2]) hq0), ?_⟩
  have hv : cPi.val * (fc.div fs).val ≤ 14138 / 10000 := by nlinarith [hp.1, hp.2]
  by_cases hsm : cPi.val * (fc.div fs).val ≤ 1
  · have := rp.le_int 1 (by norm_num) (by push_cast; exact hsm)
    push_cast at this; linarith
  · rw [not_le] at hsm
    have := (rp.relative (le_trans (by norm_num) hsm.le) (hv.trans (by norm_num))).1
    norm_num at this ⊢; linarith

end Sys2Proof.Machine
end

