-- ==== Sys2Proof/Laws/Oscillator.lean ====
section
/-! SUPPORT. The parts of an oscillator's tick: the wrap is exact, naive values lie in [-1.0, 1.0], the residual sums grow by
at most one unit per event (40_oscillator.md R131, R132, R136). -/

namespace Sys2Proof.Machine

/-- Not a NaN, and within [a, b]. -/
def Within (a b : ℚ) (x : F32) : Prop := x.isNaN = false ∧ a ≤ x.val ∧ x.val ≤ b

theorem Within.finite {a b : ℚ} {x : F32} (h : Within a b x) (ha : -2 ^ 100 ≤ a) (hb : b ≤ 2 ^ 100) : x.isFinite = true :=
  F32.finite_of_bounds h.2.1 h.2.2 ha hb

theorem Within.mono {a b a' b' : ℚ} {x : F32} (h : Within a b x) (ha : a' ≤ a) (hb : b ≤ b') : Within a' b' x :=
  ⟨h.1, ha.trans h.2.1, h.2.2.trans hb⟩

/-- A rounding of a value within integer bounds. -/
theorem within_of_rounds {v : ℚ} {x : F32} (h : F32.Rounds v x) (a b : Int) (ha : a.natAbs ≤ 2 ^ 24) (hb : b.natAbs ≤ 2 ^ 24)
    (h1 : (a : ℚ) ≤ v) (h2 : v ≤ b) : Within a b x :=
  ⟨h.notNaN, h.ge_int a ha h1, h.le_int b hb h2⟩

theorem within_c1 : Within (-1) 1 c1 := ⟨c1_notNaN, by rw [c1_val]; norm_num, by rw [c1_val]⟩

theorem within_cNeg1 : Within (-1) 1 cNeg1 := ⟨cNeg1_notNaN, by rw [cNeg1_val], by rw [cNeg1_val]; norm_num⟩

/-- Products of values within [-1.0, 1.0]. -/
theorem Within.mul_unit {x y : F32} (hx : Within (-1) 1 x) (hy : Within (-1) 1 y) : Within (-1) 1 (x.mul y) := by
  have hr := F32.mul_rounds (hx.finite (by norm_num) (by norm_num)) (hy.finite (by norm_num) (by norm_num))
  have h : |x.val * y.val| ≤ 1 := by
    rw [abs_mul]
    exact mul_le_one₀ (abs_le.mpr hx.2) (abs_nonneg _) (abs_le.mpr hy.2)
  rw [abs_le] at h
  have := within_of_rounds hr (-1) 1 (by norm_num) (by norm_num) (by push_cast; exact h.1) (by push_cast; exact h.2)
  simpa using this

/-- One exact subtraction wraps a phase in [1.0, 2.0) (R131). -/
theorem wrap_exact {q : F32} (h1 : 1 ≤ q.val) (h2 : q.val < 2) :
    (q.sub c1).isNaN = false ∧ (q.sub c1).val = q.val - 1 := by
  have hf : q.isFinite = true := finite_of_int_bounds 1 2 (by exact_mod_cast h1) (by push_cast; exact h2.le) (by norm_num) (by norm_num)
  have hr := F32.sub_rounds hf (y := c1) (by decide)
  rw [c1_val] at hr
  refine ⟨hr.notNaN, ?_⟩
  -- every binary32 in [1.0, 2.0) is a multiple of 2^-23, and so is the difference
  have hs : q.sign = false := by
    by_contra hs
    rw [Bool.not_eq_false] at hs
    have := F32.val_eq q
    rw [hs, if_pos rfl] at this
    have hn : (0 : ℚ) ≤ (F32.unitsOfMag q.mag : ℚ) / 2 ^ 149 := by positivity
    linarith
  have hval := F32.val_eq q
  rw [hs, if_neg (by simp), one_mul] at hval
  have hm1 : 0x3F800000 ≤ q.mag := by
    by_contra hc
    have := F32.unitsOfMag_lt.mpr (not_le.mp hc)
    rw [show F32.unitsOfMag 0x3F800000 = 2 ^ 149 by decide +kernel] at this
    have hlt : (F32.unitsOfMag q.mag : ℚ) < 2 ^ 149 := by exact_mod_cast this
    rw [hval, le_div_iff₀ (by positivity)] at h1
    linarith
  have hm2 : q.mag < 0x40000000 := by
    by_contra hc
    have := F32.unitsOfMag_le.mpr (not_lt.mp hc)
    rw [show F32.unitsOfMag 0x40000000 = 2 ^ 150 by decide +kernel] at this
    have hle : (2 : ℚ) ^ 150 ≤ (F32.unitsOfMag q.mag : ℚ) := by exact_mod_cast this
    rw [hval, div_lt_iff₀ (by positivity)] at h2
    norm_num at hle h2; linarith
  have hu : F32.unitsOfMag q.mag = (2 ^ 23 + q.mag % 2 ^ 23) * 2 ^ 126 := by
    unfold F32.unitsOfMag
    have hd : q.mag / 2 ^ 23 = 127 := by omega
    rw [hd, if_neg (by norm_num)]
  have hk : q.mag % 2 ^ 23 < 2 ^ 23 := Nat.mod_lt _ (by norm_num)
  rw [hu] at hval
  generalize q.mag % 2 ^ 23 = m at hval hk
  exact hr.eq_of_rep (m : Int) 126 (by omega) (by norm_num) (by rw [hval]; push_cast; ring)

theorem sawValue_within {x : F32} (h0 : 0 ≤ x.val) (h1 : x.val ≤ 1) : Within (-1) 1 (sawValue x) := by
  have hm := F32.mul_rounds (x := c2) (by decide) (unit_finite h0 h1)
  rw [c2_val] at hm
  have w := within_of_rounds hm 0 2 (by norm_num) (by norm_num) (by push_cast; linarith) (by push_cast; linarith)
  have hs := F32.sub_rounds (w.finite (by norm_num) (by norm_num)) (y := c1) (by decide)
  rw [c1_val] at hs
  have w2 := w.2
  push_cast at w2
  have := within_of_rounds hs (-1) 1 (by norm_num) (by norm_num) (by push_cast; linarith [w2.1]) (by push_cast; linarith [w2.2])
  simpa [sawValue] using this

theorem pulseValue_within (x pw : F32) : Within (-1) 1 (pulseValue x pw) := by
  unfold pulseValue
  split
  · exact within_c1
  · exact within_cNeg1

/-- The naive waveform lies in [-1.0, 1.0] (R132). -/
theorem waveValue_within (w : Waveform) {x : F32} (pw : F32) (h0 : 0 ≤ x.val) (h1 : x.val ≤ 1) :
    Within (-1) 1 (waveValue w x pw) := by
  cases w with
  | saw => exact sawValue_within h0 h1
  | pulse => exact pulseValue_within x pw
  | mix =>
    have a := sawValue_within h0 h1
    have b := pulseValue_within x pw
    have hs := F32.add_rounds (a.finite (by norm_num) (by norm_num)) (b.finite (by norm_num) (by norm_num))
    have w := within_of_rounds hs (-2) 2 (by norm_num) (by norm_num) (by push_cast; linarith [a.2.1, b.2.1])
      (by push_cast; linarith [a.2.2, b.2.2])
    have hm := F32.mul_rounds (w.finite (by norm_num) (by norm_num)) (y := cHalf) (by decide)
    rw [cHalf_val] at hm
    have w2 := w.2
    push_cast at w2
    have := within_of_rounds hm (-1) 1 (by norm_num) (by norm_num) (by push_cast; linarith [w2.1]) (by push_cast; linarith [w2.2])
    simpa [waveValue] using this

/-- The difference of two naive values is at most 2.0. -/
theorem waveStep_within {a b : F32} (ha : Within (-1) 1 a) (hb : Within (-1) 1 b) : Within (-2) 2 (a.sub b) := by
  have hs := F32.sub_rounds (ha.finite (by norm_num) (by norm_num)) (hb.finite (by norm_num) (by norm_num))
  have := within_of_rounds hs (-2) 2 (by norm_num) (by norm_num) (by push_cast; linarith [ha.2.1, hb.2.2])
    (by push_cast; linarith [ha.2.2, hb.2.1])
  simpa using this

/-- A possible event: its distance in [0.0, 1.0], its height at most 2.0. -/
def EventOk (e : StepEvent) : Prop := Within 0 1 e.d ∧ Within (-2) 2 e.h

/-- One event moves each residual sum by at most one unit (R136). -/
theorem blepTerm_within {e : StepEvent} (h : EventOk e) :
    Within (-1) 1 ((e.h.mul cHalf).mul (e.d.mul e.d)) ∧
    Within (-1) 1 ((c0.sub (e.h.mul cHalf)).mul ((c1.sub e.d).mul (c1.sub e.d))) := by
  obtain ⟨hd, hh⟩ := h
  have ra := F32.mul_rounds (hh.finite (by norm_num) (by norm_num)) (y := cHalf) (by decide)
  rw [cHalf_val] at ra
  have wa : Within (-1) 1 (e.h.mul cHalf) := by
    have := within_of_rounds ra (-1) 1 (by norm_num) (by norm_num) (by push_cast; linarith [hh.2.1]) (by push_cast; linarith [hh.2.2])
    simpa using this
  have rn := F32.sub_rounds (x := c0) (by decide) (wa.finite (by norm_num) (by norm_num))
  rw [c0_val] at rn
  have wn : Within (-1) 1 (c0.sub (e.h.mul cHalf)) := by
    have := within_of_rounds rn (-1) 1 (by norm_num) (by norm_num) (by push_cast; linarith [wa.2.2]) (by push_cast; linarith [wa.2.1])
    simpa using this
  have re := F32.sub_rounds (x := c1) (by decide) (hd.finite (by norm_num) (by norm_num))
  rw [c1_val] at re
  have we : Within (-1) 1 (c1.sub e.d) := by
    have := within_of_rounds re (-1) 1 (by norm_num) (by norm_num) (by push_cast; linarith [hd.2.2]) (by push_cast; linarith [hd.2.1])
    simpa using this
  have hd1 : Within (-1) 1 e.d := hd.mono (by norm_num) le_rfl
  exact ⟨wa.mul_unit (hd1.mul_unit hd1), wn.mul_unit (we.mul_unit we)⟩

/-- The residual sums of `n` events stay within `n` (R136). -/
theorem blepSums_within (ev : List StepEvent) (h : ∀ e ∈ ev, EventOk e) (hn : ev.length ≤ 16) :
    Within (-(ev.length : ℚ)) ev.length (blepSums ev).1 ∧ Within (-(ev.length : ℚ)) ev.length (blepSums ev).2 := by
  have step : ∀ (n : Nat) (a t : F32), n ≤ 16 → Within (-(n : ℚ)) n a → Within (-1) 1 t →
      Within (-((n + 1 : Nat) : ℚ)) ((n + 1 : Nat) : ℚ) (a.add t) := by
    intro n a t hn ha ht
    have hnq : (n : ℚ) ≤ 16 := by exact_mod_cast hn
    have hb : (16 : ℚ) ≤ 2 ^ 100 := by norm_num
    have hr := F32.add_rounds (ha.finite (by linarith) (by linarith)) (ht.finite (by norm_num) (by norm_num))
    have := within_of_rounds hr (-((n + 1 : Nat) : Int)) ((n + 1 : Nat) : Int) (by omega) (by omega)
      (by push_cast; linarith [ha.2.1, ht.2.1]) (by push_cast; linarith [ha.2.2, ht.2.2])
    push_cast at this ⊢
    exact this
  have key : ∀ (l : List StepEvent) (n : Nat) (acc : F32 × F32), (∀ e ∈ l, EventOk e) → n + l.length ≤ 16 →
      Within (-(n : ℚ)) n acc.1 → Within (-(n : ℚ)) n acc.2 →
      let r := l.foldl (fun acc x =>
        let a := x.h.mul cHalf
        let e := c1.sub x.d
        (acc.1.add (a.mul (x.d.mul x.d)), acc.2.add ((c0.sub a).mul (e.mul e)))) acc
      Within (-((n + l.length : Nat) : ℚ)) ((n + l.length : Nat) : ℚ) r.1 ∧
      Within (-((n + l.length : Nat) : ℚ)) ((n + l.length : Nat) : ℚ) r.2 := by
    intro l
    induction l with
    | nil => intro n acc _ _ h1 h2; simpa using ⟨h1, h2⟩
    | cons e l ih =>
      intro n acc hl hlen h1 h2
      obtain ⟨t1, t2⟩ := blepTerm_within (hl e List.mem_cons_self)
      rw [List.length_cons] at hlen
      have := ih (n + 1)
        (acc.1.add ((e.h.mul cHalf).mul (e.d.mul e.d)),
          acc.2.add ((c0.sub (e.h.mul cHalf)).mul ((c1.sub e.d).mul (c1.sub e.d))))
        (fun x hx => hl x (List.mem_cons_of_mem _ hx)) (by omega)
        (step n _ _ (by omega) h1 t1) (step n _ _ (by omega) h2 t2)
      rw [List.foldl_cons, List.length_cons, show n + (l.length + 1) = n + 1 + l.length by omega]
      exact this
  have h0 : Within (-((0 : Nat) : ℚ)) ((0 : Nat) : ℚ) c0 := ⟨c0_notNaN, by rw [c0_val]; simp, by rw [c0_val]; simp⟩
  have := key ev 0 (c0, c0) h (by omega) h0 h0
  rw [Nat.zero_add] at this
  exact this

/-- The heights at the wrap and at the pulse width are at most 2.0 (R133). -/
theorem stepAtWrap_within (w : Waveform) : Within (-2) 2 (stepAtWrap w) := by
  cases w <;> refine ⟨by decide, ?_, ?_⟩ <;> simp [stepAtWrap]

theorem stepAtWidth_within {w : Waveform} {h : F32} (hw : stepAtWidth w = some h) : Within (-2) 2 h := by
  cases w <;> simp only [stepAtWidth, Option.some.injEq, reduceCtorEq] at hw <;> subst hw <;>
    refine ⟨by decide, ?_, ?_⟩ <;> norm_num

/-- `min(d, 1.0)` of a value that is not negative. -/
theorem fmin_unit {d : F32} (hd : d.isNaN = false) (h0 : 0 ≤ d.val) : Within 0 1 (F32.fmin d c1) := by
  refine ⟨F32.fmin_notNaN hd c1_notNaN, ?_, ?_⟩ <;> rw [F32.fmin_val hd c1_notNaN, c1_val]
  · exact le_min h0 (by norm_num)
  · exact min_le_right _ _

/-- The event at the pulse width, if any, is possible when its distance is not negative (R134, R135). -/
theorem widthEvent_ok {w : Waveform} {crossed : Bool} {d : F32} (h : crossed = true → d.isNaN = false ∧ 0 ≤ d.val) :
    (widthEvent w crossed d).length ≤ 1 ∧ ∀ e ∈ widthEvent w crossed d, EventOk e := by
  unfold widthEvent
  cases hw : stepAtWidth w with
  | none => simp
  | some hh =>
    dsimp only
    split
    · rename_i hc
      obtain ⟨h1, h2⟩ := h hc
      refine ⟨by simp, ?_⟩
      intro e he
      rw [List.mem_singleton] at he
      subst he
      exact ⟨fmin_unit h1 h2, stepAtWidth_within hw⟩
    · simp

end Sys2Proof.Machine
end

