-- ==== Sys2Proof/Laws/PerInstr.lean ====
section
/-! SUPPORT. One lemma per constructor of `Instr`: a well-formed command decodes from its own encoding. -/

namespace Sys2Proof.Laws.RoundTrip

open Sys2Proof

/-- Decoding the encoding of a well-formed command gives it back (30_encoding.md R100 to R106). -/
def Statement (i : Instr) : Prop := i.wellFormed = true → decode (encode i).1 (encode i).2 = i

/-- The key field holds every key -128..127 (R101). -/
theorem key_field {key : Int} (h : -128 ≤ key ∧ key ≤ 127) : (BitVec.ofInt 8 key).toInt = key := by
  rw [BitVec.toInt_ofInt, Int.bmod_def]
  omega

/-- The id field holds every id 0..255 (R101). -/
theorem id_field {id : Nat} (h : id ≤ 255) : id % 256 = id := by omega

theorem nop : Statement .nop := fun _ => by simp [encode, decode]

theorem noteOn (key : Int) (x : F32) : Statement (.noteOn key x) := fun h => by
  simp only [Instr.wellFormed, decide_eq_true_eq] at h
  simp [encode, decode, key_field h]

theorem noteOff (key : Int) : Statement (.noteOff key) := fun h => by
  simp only [Instr.wellFormed, decide_eq_true_eq] at h
  simp [encode, decode, key_field h]

theorem allNotesOff : Statement .allNotesOff := fun _ => by simp [encode, decode]

theorem allSoundOff : Statement .allSoundOff := fun _ => by simp [encode, decode]

theorem sustain (down : Bool) : Statement (.sustain down) := fun _ => by cases down <;> simp [encode, decode]

theorem pitchBend (x : F32) : Statement (.pitchBend x) := fun _ => by simp [encode, decode]

theorem modWheel (x : F32) : Statement (.modWheel x) := fun _ => by simp [encode, decode]

theorem setParam (id : Nat) (x : F32) : Statement (.setParam id x) := fun h => by
  simp only [Instr.wellFormed, decide_eq_true_eq] at h
  simp [encode, decode, id_field h]

theorem getParam (id : Nat) : Statement (.getParam id) := fun h => by
  simp only [Instr.wellFormed, decide_eq_true_eq] at h
  simp [encode, decode, id_field h]

theorem setSampleRate (x : F32) : Statement (.setSampleRate x) := fun _ => by simp [encode, decode]

theorem render (frames : Nat) : Statement (.render frames) := fun h => by
  simp only [Instr.wellFormed, decide_eq_true_eq] at h
  simp only [encode, decode, fieldOp_packW0, fieldB_packW0, BitVec.toNat_ofNat]
  simp [show frames % 65536 = frames by omega]

/-- No opcode from 0x0C on is one of the twelve commands, so a reserved opcode's row is the one its range selects (R104). -/
theorem reserved {op : Nat} (h : 0x0C ≤ op) (h' : op ≤ 0xFF) :
    decode (packW0 op 0 0) 0 =
      if op < 0x10 then .reserved0C op
      else if op < 0x20 then .reserved10 op
      else if op < 0x40 then .reserved20 op
      else if op < 0x80 then .reserved40 op
      else .reserved80 op := by
  have hne : ∀ k, k < 0x0C → op ≠ k := fun k hk he => by omega
  simp [decode, Nat.mod_eq_of_lt (Nat.lt_succ_of_le h'), hne]

theorem reserved0C (op : Nat) : Statement (.reserved0C op) := fun h => by
  simp only [Instr.wellFormed, decide_eq_true_eq] at h
  rw [encode, reserved (by omega) (by omega)]
  split_ifs <;> first | rfl | omega

theorem reserved10 (op : Nat) : Statement (.reserved10 op) := fun h => by
  simp only [Instr.wellFormed, decide_eq_true_eq] at h
  rw [encode, reserved (by omega) (by omega)]
  split_ifs <;> first | rfl | omega

theorem reserved20 (op : Nat) : Statement (.reserved20 op) := fun h => by
  simp only [Instr.wellFormed, decide_eq_true_eq] at h
  rw [encode, reserved (by omega) (by omega)]
  split_ifs <;> first | rfl | omega

theorem reserved40 (op : Nat) : Statement (.reserved40 op) := fun h => by
  simp only [Instr.wellFormed, decide_eq_true_eq] at h
  rw [encode, reserved (by omega) (by omega)]
  split_ifs <;> first | rfl | omega

theorem reserved80 (op : Nat) : Statement (.reserved80 op) := fun h => by
  simp only [Instr.wellFormed, decide_eq_true_eq] at h
  rw [encode, reserved (by omega) (by omega)]
  split_ifs <;> first | rfl | omega

end Sys2Proof.Laws.RoundTrip
end

