-- ==== Sys2Proof/Laws/PhasePath.lean ====
section
/-! SUPPORT. The phase path of a tick, with and without sync: its new phase and its events (40_oscillator.md R131, R134,
R135). -/

namespace Sys2Proof.Machine

theorem phaseLegal_iff {x : F32} : phaseLegal x = true ↔ x.isNaN = false ∧ 0 ≤ x.val ∧ x.val < 1 := by
  unfold phaseLegal
  rw [Bool.and_eq_true, F32.le_iff, F32.lt_iff]
  simp
  tauto

/-- A phase increment in [`DT_MIN`, `DT_MAX`]. -/
theorem dt_bounds {dt : F32} (h : F32.within cDtMin cDtMax dt = true) :
    dt.isFinite = true ∧ 1 / 2 ^ 20 ≤ dt.val ∧ dt.val ≤ 1 / 2 := by
  rw [F32.within_iff] at h
  obtain ⟨_, _, _, h1, h2⟩ := h
  have a : cDtMin.val = 1 / 2 ^ 20 := by rw [cDtMin_val]; norm_num
  have b : cDtMax.val ≤ 1 / 2 := by rw [cDtMax_val]; norm_num
  rw [a] at h1
  exact ⟨unit_finite (le_trans (by positivity) h1) (by linarith), h1, h2.trans b⟩

/-- A pulse width in [`PW_MIN`, `PW_MAX`]. -/
theorem pw_bounds {pw : F32} (h : F32.within cPwMin cPwMax pw = true) :
    pw.isNaN = false ∧ pw.isFinite = true ∧ 1 / 32 ≤ pw.val ∧ pw.val < 1 := by
  rw [F32.within_iff] at h
  obtain ⟨h0, _, _, h1, h2⟩ := h
  have a : (1 : ℚ) / 32 ≤ cPwMin.val := by rw [cPwMin_val]; norm_num
  have b : cPwMax.val < 1 := by rw [cPwMax_val]; norm_num
  exact ⟨h0, unit_finite (by linarith) (by linarith), by linarith, by linarith⟩

/-- The distance `(a - b) / dt` of a point `b` at or before `a`. -/
theorem distance_nonneg {a b dt : F32} (ha : Within 0 2 a) (hb : Within 0 2 b) (hab : b.val ≤ a.val)
    (hd : dt.isFinite = true) (hd0 : 1 / 2 ^ 20 ≤ dt.val) :
    ((a.sub b).div dt).isNaN = false ∧ 0 ≤ ((a.sub b).div dt).val ∧ ((a.sub b).div dt).isFinite = true := by
  have hs := F32.sub_rounds (ha.finite (by norm_num) (by norm_num)) (hb.finite (by norm_num) (by norm_num))
  have w := within_of_rounds hs 0 2 (by norm_num) (by norm_num) (by push_cast; linarith) (by push_cast; linarith [ha.2.2, hb.2.1])
  push_cast at w
  have sm : F32.Small 1 (a.sub b) := F32.Small.of_bounds w.1 (by linarith [w.2.1]) (by linarith [w.2.2])
  have hp : (0 : ℚ) < dt.val := lt_of_lt_of_le (by positivity) hd0
  have hr := F32.div_rounds (sm.finite (by norm_num)) hd hp.ne'
  have sd := sm.div (k := 20) hd (by rw [abs_of_pos hp]; exact hd0) (by norm_num)
  exact ⟨sd.notNaN, hr.nonneg (div_nonneg w.2.1 hp.le), sd.finite (by norm_num)⟩

/-- The sum of a phase and at most one increment stays within [0.0, 1.5]. -/
theorem phaseSum_within {ph d : F32} (hp : phaseLegal ph = true) (hd : Within 0 (1 / 2) d) :
    Within 0 (3 / 2) (ph.add d) ∧ ph.val ≤ (ph.add d).val := by
  rw [phaseLegal_iff] at hp
  have hr := F32.add_rounds (unit_finite hp.2.1 hp.2.2.le) (hd.finite (by norm_num) (by norm_num))
  refine ⟨⟨hr.notNaN, hr.nonneg (by linarith [hp.2.1, hd.2.1]), ?_⟩, hr.ge hp.1 (by linarith [hd.2.1])⟩
  have := hr.le_rep 3 148 (by norm_num) (by norm_num) (by norm_num; linarith [hp.2.2, hd.2.2])
  norm_num at this ⊢
  exact this

/-- The path without sync: the new phase is in [0.0, 1.0), every event is possible, and so is the wrap position. -/
theorem freePath_ok {o : OscState} {dt : F32} (w : Waveform) {pw : F32} (hp : phaseLegal o.phase = true)
    (hd : F32.within cDtMin cDtMax dt = true) (hw : F32.within cPwMin cPwMax pw = true) :
    phaseLegal (freePath o dt w pw).newPhase = true ∧ (freePath o dt w pw).events.length ≤ 3 ∧
    (∀ e ∈ (freePath o dt w pw).events, EventOk e) ∧ ∀ md, (freePath o dt w pw).md = some md → Within 0 1 md := by
  obtain ⟨hdf, hd0, hd1⟩ := dt_bounds hd
  obtain ⟨hwn, hwf, hw0, hw1⟩ := pw_bounds hw
  have hdw : Within 0 (1 / 2) dt := ⟨F32.not_nan_of_finite hdf, le_trans (by positivity) hd0, hd1⟩
  have hww : Within 0 2 pw := ⟨hwn, by linarith, by linarith⟩
  obtain ⟨hq, _⟩ := phaseSum_within hp hdw
  have hq2 : Within 0 2 (o.phase.add dt) := hq.mono le_rfl (by norm_num)
  unfold freePath
  dsimp only
  split
  · rename_i hc
    rw [F32.le_iff, c1_val] at hc
    obtain ⟨hn1, hv1⟩ := wrap_exact hc.2.2 (by linarith [hq.2.2])
    have hq1 : Within 0 2 ((o.phase.add dt).sub c1) := ⟨hn1, by rw [hv1]; linarith [hc.2.2], by rw [hv1]; linarith [hq.2.2]⟩
    have hdw' : Within 0 1 (F32.fmin (((o.phase.add dt).sub c1).div dt) c1) := by
      have hp0 : (0 : ℚ) < dt.val := lt_of_lt_of_le (by positivity) hd0
      have hr := F32.div_rounds (hq1.finite (by norm_num) (by norm_num)) hdf hp0.ne'
      exact fmin_unit hr.notNaN (hr.nonneg (div_nonneg hq1.2.1 hp0.le))
    have e1 := widthEvent_ok (w := w) (crossed := F32.lt o.phase pw) (d := ((o.phase.add dt).sub pw).div dt)
      (fun _ => by
        have := distance_nonneg hq2 hww (by linarith [hc.2.2]) hdf hd0
        exact ⟨this.1, this.2.1⟩)
    have e3 := widthEvent_ok (w := w) (crossed := F32.le pw ((o.phase.add dt).sub c1))
      (d := (((o.phase.add dt).sub c1).sub pw).div dt) (fun hcr => by
        have := distance_nonneg hq1 hww (F32.le_iff.mp hcr).2.2 hdf hd0
        exact ⟨this.1, this.2.1⟩)
    refine ⟨phaseLegal_iff.mpr ⟨hn1, by rw [hv1]; linarith [hc.2.2], by rw [hv1]; linarith [hq.2.2]⟩, ?_, ?_, ?_⟩
    · simp only [List.length_append, List.length_singleton]
      have := e1.1
      have := e3.1
      omega
    · intro e he
      simp only [List.mem_append, List.mem_singleton] at he
      rcases he with (he | rfl) | he
      · exact e1.2 e he
      · exact ⟨hdw', stepAtWrap_within w⟩
      · exact e3.2 e he
    · intro md hmd
      rw [← Option.some.inj hmd]
      exact hdw'
  · rename_i hc
    rw [F32.le_iff, c1_val] at hc
    have hlt : (o.phase.add dt).val < 1 := not_le.mp fun h => hc ⟨c1_notNaN, hq.1, h⟩
    have e1 := widthEvent_ok (w := w) (crossed := F32.lt o.phase pw && F32.le pw (o.phase.add dt))
      (d := ((o.phase.add dt).sub pw).div dt) (fun hcr => by
        rw [Bool.and_eq_true, F32.le_iff] at hcr
        have := distance_nonneg hq2 hww hcr.2.2.2 hdf hd0
        exact ⟨this.1, this.2.1⟩)
    refine ⟨phaseLegal_iff.mpr ⟨hq.1, hq.2.1, hlt⟩, le_trans e1.1 (by norm_num), e1.2, ?_⟩
    intro md hmd
    cases hmd

/-- The path of a synchronised tick: the new phase is in [0.0, 1.0) and every event is possible. -/
theorem syncPath_ok {o : OscState} {dt : F32} (w : Waveform) {pw sd : F32} (hp : phaseLegal o.phase = true)
    (hd : F32.within cDtMin cDtMax dt = true) (hw : F32.within cPwMin cPwMax pw = true) (hsd : Within 0 1 sd) :
    phaseLegal (syncPath o dt w pw sd).newPhase = true ∧ (syncPath o dt w pw sd).events.length ≤ 5 ∧
    ∀ e ∈ (syncPath o dt w pw sd).events, EventOk e := by
  obtain ⟨hdf, hd0, hd1⟩ := dt_bounds hd
  obtain ⟨hwn, hwf, hw0, hw1⟩ := pw_bounds hw
  have hdp : (0 : ℚ) < dt.val := lt_of_lt_of_le (by positivity) hd0
  have hww : Within 0 2 pw := ⟨hwn, by linarith, by linarith⟩
  have hsf := hsd.finite (by norm_num) (by norm_num)
  have rs := F32.sub_rounds (x := c1) (by decide) hsf
  rw [c1_val] at rs
  have ws := within_of_rounds rs 0 1 (by norm_num) (by norm_num) (by push_cast; linarith [hsd.2.2]) (by push_cast; linarith [hsd.2.1])
  push_cast at ws
  have part : ∀ {f : F32}, Within 0 1 f → Within 0 (1 / 2) (dt.mul f) := by
    intro f hf
    have hr := F32.mul_rounds hdf (hf.finite (by norm_num) (by norm_num))
    refine ⟨hr.notNaN, hr.nonneg (mul_nonneg hdp.le hf.2.1), ?_⟩
    have := hr.le_rep 1 148 (by norm_num) (by norm_num) (by norm_num; nlinarith [hf.2.1, hf.2.2])
    norm_num at this ⊢
    exact this
  obtain ⟨hpre, _⟩ := phaseSum_within hp (part ws)
  have hpre2 : Within 0 2 (o.phase.add (dt.mul (c1.sub sd))) := hpre.mono le_rfl (by norm_num)
  have hq1 := part hsd
  -- a distance after the reset's own: `sd + (a - pw) / dt`
  have late : ∀ {a : F32}, Within 0 2 a → pw.val ≤ a.val →
      (sd.add ((a.sub pw).div dt)).isNaN = false ∧ 0 ≤ (sd.add ((a.sub pw).div dt)).val := by
    intro a ha hab
    obtain ⟨_, h2, h3⟩ := distance_nonneg ha hww hab hdf hd0
    have hr := F32.add_rounds hsf h3
    exact ⟨hr.notNaN, hr.nonneg (by linarith [hsd.2.1])⟩
  unfold syncPath
  dsimp only
  generalize o.phase.add (dt.mul (c1.sub sd)) = pre at hpre hpre2
  have last := widthEvent_ok (w := w) (crossed := F32.le pw (dt.mul sd)) (d := ((dt.mul sd).sub pw).div dt) (fun hcr => by
    have := distance_nonneg (hq1.mono le_rfl (by norm_num)) hww (F32.le_iff.mp hcr).2.2 hdf hd0
    exact ⟨this.1, this.2.1⟩)
  have reset : ∀ {f : F32}, Within 0 1 f → EventOk ⟨sd, (waveValue w c0 pw).sub (waveValue w f pw)⟩ := fun hf =>
    ⟨hsd, waveStep_within (waveValue_within w pw (by rw [c0_val]) (by rw [c0_val]; norm_num)) (waveValue_within w pw hf.2.1 hf.2.2)⟩
  refine ⟨phaseLegal_iff.mpr ⟨hq1.1, hq1.2.1, by linarith [hq1.2.2]⟩, ?_⟩
  by_cases hc : F32.le c1 pre = true
  · rw [if_pos hc, if_pos hc]
    rw [F32.le_iff, c1_val] at hc
    obtain ⟨hn1, hv1⟩ := wrap_exact hc.2.2 (by linarith [hpre.2.2])
    have hw1' : Within 0 1 (pre.sub c1) := ⟨hn1, by rw [hv1]; linarith [hc.2.2], by rw [hv1]; linarith [hpre.2.2]⟩
    have e1 := widthEvent_ok (w := w) (crossed := F32.lt o.phase pw) (d := sd.add ((pre.sub pw).div dt))
      (fun _ => late hpre2 (by linarith [hc.2.2]))
    have e3 := widthEvent_ok (w := w) (crossed := F32.le pw (pre.sub c1)) (d := sd.add (((pre.sub c1).sub pw).div dt))
      (fun hcr => late (hw1'.mono le_rfl (by norm_num)) (F32.le_iff.mp hcr).2.2)
    have wrap : Within 0 1 (F32.fmin (sd.add ((pre.sub c1).div dt)) c1) := by
      have sm : F32.Small 0 (pre.sub c1) := F32.Small.of_bounds hn1 (by linarith [hw1'.2.1]) (by simpa using hw1'.2.2)
      have sq := sm.div (k := 20) hdf (by rw [abs_of_pos hdp]; exact hd0) (by norm_num)
      have hr := F32.div_rounds (sm.finite (by norm_num)) hdf hdp.ne'
      have ha := F32.add_rounds hsf (sq.finite (by norm_num))
      exact fmin_unit ha.notNaN (ha.nonneg (by linarith [hsd.2.1, hr.nonneg (div_nonneg hw1'.2.1 hdp.le)]))
    constructor
    · simp only [List.length_append, List.length_singleton]
      have := e1.1
      have := e3.1
      have := last.1
      omega
    · intro e he
      simp only [List.mem_append, List.mem_singleton] at he
      rcases he with ((((he | rfl) | he) | rfl) | he)
      · exact e1.2 e he
      · exact ⟨wrap, stepAtWrap_within w⟩
      · exact e3.2 e he
      · exact reset hw1'
      · exact last.2 e he
  · rw [if_neg hc, if_neg hc]
    rw [F32.le_iff, c1_val] at hc
    have hlt : pre.val < 1 := not_le.mp fun h => hc ⟨c1_notNaN, hpre.1, h⟩
    have e1 := widthEvent_ok (w := w) (crossed := F32.lt o.phase pw && F32.le pw pre) (d := sd.add ((pre.sub pw).div dt))
      (fun hcr => by
        rw [Bool.and_eq_true, F32.le_iff] at hcr
        exact late hpre2 hcr.2.2.2)
    constructor
    · simp only [List.length_append, List.length_singleton]
      have := e1.1
      have := last.1
      omega
    · intro e he
      simp only [List.mem_append, List.mem_singleton] at he
      rcases he with ((he | rfl) | he)
      · exact e1.2 e he
      · exact reset ⟨hpre.1, hpre.2.1, hlt.le⟩
      · exact last.2 e he

end Sys2Proof.Machine
end

