-- ==== Sys2Proof/Laws/Port.lean ====
section
/-! SUPPORT. Bytes of samples and of `RDATA` (20_memory.md R83): lengths, and what the bytes determine. -/

namespace Sys2Proof.Machine

@[simp] theorem sampleBytes_s16_length (v : BitVec 16) : (sampleBytes (.s16 v)).length = 2 := rfl

@[simp] theorem sampleBytes_f32_length (x : F32) : (sampleBytes (.f32 x)).length = 4 := rfl

@[simp] theorem rdataBytes_length (s : State) : s.rdataBytes.length = 4 := rfl

@[simp] theorem streamBytes_nil : streamBytes [] = [] := rfl

@[simp] theorem streamBytes_cons (x : Sample) (xs : List Sample) : streamBytes (x :: xs) = sampleBytes x ++ streamBytes xs := rfl

@[simp] theorem streamBytes_append (xs ys : List Sample) : streamBytes (xs ++ ys) = streamBytes xs ++ streamBytes ys := by
  simp [streamBytes]

/-- An `S16` sample is its low byte and, 256 times, its high byte. -/
theorem sampleBytes_s16 (v : BitVec 16) : ∃ lo hi : Byte, sampleBytes (.s16 v) = [lo, hi] ∧ v.toNat = lo.toNat + 256 * hi.toNat := by
  refine ⟨_, _, rfl, ?_⟩
  have := v.isLt
  simp only [BitVec.extractLsb'_toNat, Nat.shiftRight_eq_div_pow]
  omega

end Sys2Proof.Machine
end

