-- ==== Sys2Proof/Laws/Transcendental.lean ====
section
/-! SUPPORT. The reference construction functions of Machine/Transcendental.lean have the properties `LibOk` names. Only bounds
are proved here, not correct rounding (log entry 6). -/

namespace Sys2Proof

/-! ### Powers of two -/

/-- Every power of two from 2^-149 to 2^128 is the value of a binary32 that is no NaN (2^128 of infinity). -/
theorem F32.exists_pow2 (j : Nat) (hj : j ≤ 277) : ∃ b : F32, b.isNaN = false ∧ b.val = (2 : ℚ) ^ j / 2 ^ 149 := by
  rcases Nat.le_total j 253 with h | h
  · obtain ⟨b, h1, h2⟩ := F32.exists_rep 1 (by norm_num) j h
    exact ⟨b, h1, by rw [h2]; push_cast; ring⟩
  · have hk : (2 : Int) ^ (j - 253) = ((2 ^ (j - 253) : Nat) : Int) := by push_cast; rfl
    obtain ⟨b, h1, h2⟩ := F32.exists_rep ((2 : Int) ^ (j - 253))
      (by rw [hk, Int.natAbs_natCast]; exact Nat.pow_le_pow_right (by norm_num) (by omega)) 253 le_rfl
    refine ⟨b, h1, ?_⟩
    rw [h2]
    push_cast
    rw [← pow_add, show j - 253 + 253 = j by omega]

/-- A rounding of a value between two powers of two lies between them. -/
theorem F32.Rounds.between_pow2 {v : ℚ} {x : F32} (h : F32.Rounds v x) {i j : Nat} (hi : i ≤ 277) (hj : j ≤ 277)
    (h1 : (2 : ℚ) ^ i / 2 ^ 149 ≤ v) (h2 : v ≤ (2 : ℚ) ^ j / 2 ^ 149) :
    (2 : ℚ) ^ i / 2 ^ 149 ≤ x.val ∧ x.val ≤ (2 : ℚ) ^ j / 2 ^ 149 := by
  obtain ⟨a, ha, hav⟩ := F32.exists_pow2 i hi
  obtain ⟨b, hb, hbv⟩ := F32.exists_pow2 j hj
  rw [← hav, ← hbv]
  exact ⟨h.ge ha (hav.le.trans h1), h.le hb (h2.trans hbv.ge)⟩

/-! ### `exp2f` -/

theorem F32.le_expSeriesLo (p y k acc : Nat) (h : 2 ^ p ≤ acc) : 2 ^ p ≤ F32.expSeriesLo p y k acc := by
  induction k generalizing acc with
  | zero => exact h
  | succ k ih => exact ih _ (Nat.le_add_right _ _)

theorem F32.le_expSeriesHi (p y k acc : Nat) (h : 2 ^ p ≤ acc) : 2 ^ p ≤ F32.expSeriesHi p y k acc := by
  induction k generalizing acc with
  | zero => exact h
  | succ k ih => exact ih _ (Nat.le_add_right _ _)

/-- Both bounds of `2 ^ f` lie in [1, 2]. -/
theorem F32.exp2Bounds_between (p terms fr : Nat) :
    (2 ^ p ≤ (F32.exp2Bounds p terms fr).1 ∧ (F32.exp2Bounds p terms fr).1 ≤ 2 ^ (p + 1)) ∧
    (2 ^ p ≤ (F32.exp2Bounds p terms fr).2 ∧ (F32.exp2Bounds p terms fr).2 ≤ 2 ^ (p + 1)) := by
  have hp : 2 ^ p ≤ 2 ^ (p + 1) := Nat.pow_le_pow_right (by norm_num) (by omega)
  unfold F32.exp2Bounds
  exact ⟨⟨le_min (F32.le_expSeriesLo _ _ _ _ le_rfl) hp, min_le_right _ _⟩,
    ⟨le_min (F32.le_expSeriesHi _ _ _ _ hp) hp, min_le_right _ _⟩⟩

theorem F32.round_exp2_between (p b e : Nat) (h1 : 2 ^ p ≤ b) (h2 : b ≤ 2 ^ (p + 1)) (he : 1 ≤ e) (he2 : e ≤ 277) :
    (2 : ℚ) ^ (e - 1) / 2 ^ 149 ≤ (F32.round false (b * 2 ^ e) (2 ^ (p + 1))).val ∧
    (F32.round false (b * 2 ^ e) (2 ^ (p + 1))).val ≤ (2 : ℚ) ^ e / 2 ^ 149 := by
  have hr := F32.round_rounds false (b * 2 ^ e) (2 ^ (p + 1)) (by positivity)
  have hb1 : (2 : ℚ) ^ p ≤ b := by exact_mod_cast h1
  have hb2 : (b : ℚ) ≤ 2 ^ (p + 1) := by exact_mod_cast h2
  have hpp : (0 : ℚ) < 2 ^ (p + 1) := by positivity
  obtain ⟨d, rfl⟩ : ∃ d, e = d + 1 := ⟨e - 1, by omega⟩
  refine hr.between_pow2 (by omega) he2 ?_ ?_
  · simp only [Bool.false_eq_true, if_false, one_mul, Nat.add_sub_cancel]
    rw [div_le_div_iff_of_pos_right (by positivity)]
    push_cast
    rw [le_div_iff₀ hpp]
    calc (2 : ℚ) ^ d * 2 ^ (p + 1) = 2 ^ p * 2 ^ (d + 1) := by ring
      _ ≤ b * 2 ^ (d + 1) := by gcongr
  · simp only [Bool.false_eq_true, if_false, one_mul]
    rw [div_le_div_iff_of_pos_right (by positivity)]
    push_cast
    rw [div_le_iff₀ hpp]
    calc (b : ℚ) * 2 ^ (d + 1) ≤ 2 ^ (p + 1) * 2 ^ (d + 1) := by gcongr
      _ = 2 ^ (d + 1) * 2 ^ (p + 1) := by ring

theorem F32.agreeOr_cases (ends : F32 × F32) (finer : F32) :
    (ends.1 = ends.2 ∧ F32.agreeOr ends finer = ends.2) ∨ F32.agreeOr ends finer = finer := by
  unfold F32.agreeOr
  split
  · rename_i h; exact .inl ⟨h, h⟩
  · exact .inr rfl

/-- What the reference `exp2f` does: zero at or below -150, infinity at or above 128, exact at integers, and between the
powers of two around the argument elsewhere. -/
theorem F32.exp2Ref_cases {x : F32} (hx : x.isNaN = false) :
    (x.val ≤ -150 ∧ F32.exp2Ref x = F32.zero false) ∨ (128 ≤ x.val ∧ F32.exp2Ref x = F32.inf false) ∨
    (-150 < x.val ∧ x.val < 128 ∧ (F32.exp2Ref x).isNaN = false ∧
      ∃ e : Nat, 0 < e + 1 ∧ e ≤ 277 ∧ (e : Int) = ⌊x.val⌋ + 150 ∧
        (x.val = ⌊x.val⌋ → 1 ≤ e ∧ (F32.exp2Ref x).val = (2 : ℚ) ^ (e - 1) / 2 ^ 149) ∧
        (1 ≤ e → (2 : ℚ) ^ (e - 1) / 2 ^ 149 ≤ (F32.exp2Ref x).val) ∧
        0 ≤ (F32.exp2Ref x).val ∧ (F32.exp2Ref x).val ≤ (2 : ℚ) ^ e / 2 ^ 149) := by
  have hu := F32.units_eq_val x
  have hone : ((F32.one149 : Int) : ℚ) = 2 ^ 149 := by norm_num [F32.one149]
  have hp : (0 : ℚ) < 2 ^ 149 := by positivity
  by_cases h1 : x.units ≤ -150 * (F32.one149 : Int)
  · left
    have h1' : (x.units : ℚ) ≤ -150 * 2 ^ 149 := by rw [← hone]; exact_mod_cast h1
    rw [hu] at h1'
    exact ⟨le_of_mul_le_mul_right h1' hp, by unfold F32.exp2Ref; rw [hx, if_neg (by simp), if_pos h1]⟩
  · by_cases h2 : 128 * (F32.one149 : Int) ≤ x.units
    · right; left
      have h2' : (128 : ℚ) * 2 ^ 149 ≤ x.units := by rw [← hone]; exact_mod_cast h2
      rw [hu] at h2'
      exact ⟨le_of_mul_le_mul_right h2' hp, by
        unfold F32.exp2Ref; rw [hx, if_neg (by simp), if_neg h1, if_pos h2]⟩
    · right; right
      have h1' : (-150 : ℚ) * 2 ^ 149 < x.units := by rw [← hone]; exact_mod_cast not_le.mp h1
      have h2' : (x.units : ℚ) < 128 * 2 ^ 149 := by rw [← hone]; exact_mod_cast not_le.mp h2
      rw [hu] at h1' h2'
      have hlo : -150 < x.val := lt_of_mul_lt_mul_right h1' hp.le
      have hhi : x.val < 128 := lt_of_mul_lt_mul_right h2' hp.le
      have hfl : -150 ≤ ⌊x.val⌋ := by rw [Int.le_floor]; push_cast; exact hlo.le
      have hfh : ⌊x.val⌋ < 128 := by rw [Int.floor_lt]; push_cast; exact hhi
      obtain ⟨e, he⟩ : ∃ e : Nat, e = (x.floor + 150).toNat := ⟨_, rfl⟩
      have heI : (e : Int) = ⌊x.val⌋ + 150 := by rw [he, F32.floor_eq]; omega
      obtain ⟨fr, hfr⟩ : ∃ fr : Nat, fr = (x.units % (F32.one149 : Int)).toNat := ⟨_, rfl⟩
      have hexp : F32.exp2Ref x = if fr = 0 then F32.round false (2 ^ e) 2
          else F32.agreeOr (F32.exp2Ends 128 34 e fr) (F32.exp2Ends 400 84 e fr).1 := by
        unfold F32.exp2Ref
        rw [hx, if_neg (by simp), if_neg h1, if_neg h2, ← he, ← hfr]
      have honeI : (0 : Int) < (F32.one149 : Int) := by norm_num [F32.one149]
      have hfr0 : fr = 0 ↔ x.val = ⌊x.val⌋ := by
        have hmod := Int.emod_nonneg x.units honeI.ne'
        have hdm := Int.mul_ediv_add_emod x.units (F32.one149 : Int)
        have hfloor : x.units / (F32.one149 : Int) = ⌊x.val⌋ := by rw [← F32.floor_eq]; rfl
        rw [hfloor] at hdm
        have hq : (2 : ℚ) ^ 149 * ⌊x.val⌋ + ((x.units % (F32.one149 : Int) : Int) : ℚ) = x.val * 2 ^ 149 := by
          rw [← hu, ← hone]; exact_mod_cast hdm
        constructor
        · intro h
          have : x.units % (F32.one149 : Int) = 0 := by omega
          rw [this] at hq
          push_cast at hq
          nlinarith
        · intro h
          have : ((x.units % (F32.one149 : Int) : Int) : ℚ) = 0 := by
            have h3 : x.val * 2 ^ 149 = ⌊x.val⌋ * 2 ^ 149 := by rw [← h]
            linarith
          have : x.units % (F32.one149 : Int) = 0 := by exact_mod_cast this
          omega
      refine ⟨hlo, hhi, ?_, e, by omega, by omega, heI, ?_⟩
      · rw [hexp]
        split
        · exact F32.isNaN_round _ _ _
        · rcases F32.agreeOr_cases (F32.exp2Ends 128 34 e fr) (F32.exp2Ends 400 84 e fr).1 with ⟨_, h⟩ | h <;>
            (rw [h]; exact F32.isNaN_round _ _ _)
      · by_cases hz : fr = 0
        · have hx0 := hfr0.mp hz
          have hep : 1 ≤ e := by
            have : -150 < ⌊x.val⌋ := by
              have : (-150 : ℚ) < (⌊x.val⌋ : ℚ) := by rw [← hx0]; exact hlo
              exact_mod_cast this
            omega
          have hval : (F32.exp2Ref x).val = (2 : ℚ) ^ (e - 1) / 2 ^ 149 := by
            rw [hexp, if_pos hz]
            obtain ⟨b, hb, hbv⟩ := F32.exists_pow2 (e - 1) (by omega)
            rw [(F32.round_rounds false (2 ^ e) 2 (by norm_num)).exact hb ?_, hbv]
            rw [hbv]
            obtain ⟨d, rfl⟩ : ∃ d, e = d + 1 := ⟨e - 1, by omega⟩
            simp only [Bool.false_eq_true, if_false, one_mul, Nat.add_sub_cancel]
            push_cast
            rw [pow_succ]
            field_simp
          refine ⟨fun _ => ⟨hep, hval⟩, fun _ => hval.ge, by rw [hval]; positivity, ?_⟩
          rw [hval, div_le_div_iff_of_pos_right hp]
          exact pow_le_pow_right₀ (by norm_num) (by omega)
        · have hne : ¬x.val = ⌊x.val⌋ := fun h => hz (hfr0.mpr h)
          have key : ∀ y : F32, (∃ p b, y = F32.round false (b * 2 ^ e) (2 ^ (p + 1)) ∧ 2 ^ p ≤ b ∧ b ≤ 2 ^ (p + 1)) →
              (1 ≤ e → (2 : ℚ) ^ (e - 1) / 2 ^ 149 ≤ y.val) ∧ 0 ≤ y.val ∧ y.val ≤ (2 : ℚ) ^ e / 2 ^ 149 := by
            rintro y ⟨p, b, rfl, hb1, hb2⟩
            have hr := F32.round_rounds false (b * 2 ^ e) (2 ^ (p + 1)) (by positivity)
            refine ⟨fun h => (F32.round_exp2_between p b e hb1 hb2 h (by omega)).1, hr.nonneg ?_, ?_⟩
            · simp only [Bool.false_eq_true, if_false, one_mul]; positivity
            · rcases Nat.eq_zero_or_pos e with h0 | h0
              · obtain ⟨c, hc, hcv⟩ := F32.exists_pow2 e (by omega)
                rw [← hcv]
                refine hr.le hc ?_
                rw [hcv]
                have hb2' : (b : ℚ) ≤ 2 ^ (p + 1) := by exact_mod_cast hb2
                simp only [Bool.false_eq_true, if_false, one_mul]
                rw [div_le_div_iff_of_pos_right hp]
                push_cast
                rw [div_le_iff₀ (by positivity)]
                calc (b : ℚ) * 2 ^ e ≤ 2 ^ (p + 1) * 2 ^ e := by gcongr
                  _ = 2 ^ e * 2 ^ (p + 1) := by ring
              · exact (F32.round_exp2_between p b e hb1 hb2 h0 (by omega)).2
          have hend : ∃ p b, F32.exp2Ref x = F32.round false (b * 2 ^ e) (2 ^ (p + 1)) ∧ 2 ^ p ≤ b ∧ b ≤ 2 ^ (p + 1) := by
            rw [hexp, if_neg hz]
            rcases F32.agreeOr_cases (F32.exp2Ends 128 34 e fr) (F32.exp2Ends 400 84 e fr).1 with ⟨_, h⟩ | h
            · exact ⟨128, _, h, (F32.exp2Bounds_between 128 34 fr).2⟩
            · exact ⟨400, _, h, (F32.exp2Bounds_between 400 84 fr).1⟩
          exact ⟨fun h => absurd h hne, key _ hend⟩

/-! ### `sinf` -/

theorem F32.altSeries_le (p a b : Nat) (hab : a ≤ b) (odd : Bool) (k : Nat) (acc : Nat × Nat) (h : acc.1 ≤ acc.2)
    (h2 : acc.2 ≤ 2 ^ p) :
    (F32.altSeries p a b odd k acc).1 ≤ (F32.altSeries p a b odd k acc).2 ∧
      (F32.altSeries p a b odd k acc).2 ≤ 2 ^ p := by
  induction k generalizing acc with
  | zero => exact ⟨h, h2⟩
  | succ k ih =>
    refine ih _ ?_ (Nat.sub_le _ _)
    have : a * acc.1 ≤ b * acc.2 := Nat.mul_le_mul hab h
    have := Nat.div_le_div_right (c := (2 * k + 2) * (if odd then 2 * k + 3 else 2 * k + 1) * 2 ^ (2 * p)) this
    simp only
    omega

theorem F32.sinBounds_le (p terms lo hi : Nat) : (F32.sinBounds p terms lo hi).1 ≤ 2 ^ p ∧ (F32.sinBounds p terms lo hi).2 ≤ 2 ^ p :=
  ⟨min_le_right _ _, min_le_right _ _⟩

theorem F32.cosBounds_le (p terms lo hi : Nat) (h : lo ≤ hi) :
    (F32.cosBounds p terms lo hi).1 ≤ (F32.cosBounds p terms lo hi).2 ∧ (F32.cosBounds p terms lo hi).2 ≤ 2 ^ p :=
  F32.altSeries_le _ _ _ (Nat.mul_le_mul h h) _ _ _ (Nat.zero_le _) le_rfl

theorem F32.round_unit_bounds (s : Bool) (p b : Nat) (h : b ≤ 2 ^ p) :
    (F32.round s (b * F32.one149) (2 ^ p)).isNaN = false ∧ -1 ≤ (F32.round s (b * F32.one149) (2 ^ p)).val ∧
      (F32.round s (b * F32.one149) (2 ^ p)).val ≤ 1 := by
  have hr := F32.round_rounds s (b * F32.one149) (2 ^ p) (by positivity)
  have hb : (b : ℚ) ≤ 2 ^ p := by exact_mod_cast h
  have hv : ((b * F32.one149 : Nat) : ℚ) / ((2 ^ p : Nat) : ℚ) / 2 ^ 149 = b / 2 ^ p := by
    rw [Nat.cast_mul, show (F32.one149 : ℚ) = 2 ^ 149 by norm_num [F32.one149], Nat.cast_pow]
    push_cast
    field_simp
  have h1 : (b : ℚ) / 2 ^ p ≤ 1 := by rw [div_le_one (by positivity)]; exact hb
  have h0 : (0 : ℚ) ≤ b / 2 ^ p := by positivity
  rw [hv] at hr
  have hle := hr.le_int 1 (by norm_num) (by push_cast; split <;> linarith)
  have hge := hr.ge_int (-1) (by norm_num) (by push_cast; split <;> linarith)
  push_cast at hle hge
  exact ⟨hr.notNaN, hge, hle⟩

theorem F32.reduceHalfPi_le (p u : Nat) : (F32.reduceHalfPi p u).2.1 ≤ (F32.reduceHalfPi p u).2.2 := by
  unfold F32.reduceHalfPi
  simp only
  refine le_trans (Nat.div_le_div_right (c := 2 ^ (F32.constBits - p)) (Nat.sub_le_sub_left ?_ _)) (Nat.le_succ _)
  exact Nat.mul_le_mul_left _ (Nat.le_succ _)

theorem F32.sinEnds_bounds (p terms u : Nat) (neg : Bool) :
    ((F32.sinEnds p terms u neg).1.isNaN = false ∧ -1 ≤ (F32.sinEnds p terms u neg).1.val ∧ (F32.sinEnds p terms u neg).1.val ≤ 1) ∧
    ((F32.sinEnds p terms u neg).2.isNaN = false ∧ -1 ≤ (F32.sinEnds p terms u neg).2.val ∧ (F32.sinEnds p terms u neg).2.val ≤ 1) := by
  have hs := F32.sinBounds_le p terms (F32.reduceHalfPi p u).2.1 (F32.reduceHalfPi p u).2.2
  have hc := F32.cosBounds_le p terms _ _ (F32.reduceHalfPi_le p u)
  unfold F32.sinEnds
  simp only
  split
  · exact ⟨F32.round_unit_bounds _ _ _ hs.1, F32.round_unit_bounds _ _ _ hs.2⟩
  · exact ⟨F32.round_unit_bounds _ _ _ (hc.1.trans hc.2), F32.round_unit_bounds _ _ _ hc.2⟩

theorem F32.not_inf_of_abs_lt {x : F32} (h : |x.val| < 2 ^ 128) : x.isInf = false :=
  F32.not_inf_of_finite (F32.finite_of_abs_lt h)

/-- A tiny angle has a tiny value. -/
theorem F32.abs_val_le_of_tiny {x : F32} (h : x.units.natAbs < F32.tinyAngle) : |x.val| ≤ 1 := by
  rw [F32.abs_val, ← F32.natAbs_units, div_le_one (by positivity)]
  have : x.units.natAbs ≤ 2 ^ 149 := by
    unfold F32.tinyAngle at h
    exact h.le.trans (Nat.pow_le_pow_right (by norm_num) (by norm_num))
  exact_mod_cast this

theorem F32.sinRef_bounds {x : F32} (hx : x.isNaN = false) (hf : x.isInf = false) :
    (F32.sinRef x).isNaN = false ∧ -1 ≤ (F32.sinRef x).val ∧ (F32.sinRef x).val ≤ 1 := by
  unfold F32.sinRef
  rw [hx, hf, if_neg (by simp)]
  simp only
  split
  · rename_i h
    have := abs_le.mp (F32.abs_val_le_of_tiny h)
    exact ⟨hx, this.1, this.2⟩
  · rcases F32.agreeOr_cases (F32.sinEnds 128 22 x.units.natAbs x.sign) (F32.sinEnds 400 48 x.units.natAbs x.sign).1
      with ⟨_, h⟩ | h
    · rw [h]; exact (F32.sinEnds_bounds _ _ _ _).2
    · rw [h]; exact (F32.sinEnds_bounds _ _ _ _).1

/-! ### `tanf` -/

theorem natDiv_cast_le (a b : Nat) : ((a / b : Nat) : ℚ) ≤ a / b := Nat.cast_div_le

theorem lt_natDiv_cast (a : Nat) {b : Nat} (hb : 0 < b) : (a : ℚ) / b < ((a / b : Nat) : ℚ) + 1 := by
  rw [div_lt_iff₀ (by exact_mod_cast hb)]
  have := Nat.lt_succ_iff.mpr (le_refl (a / b))
  have h := Nat.lt_mul_div_succ a hb
  have : a < (a / b + 1) * b := by rw [mul_comm]; exact h
  exact_mod_cast this

/-- The core of the bound on the cosine series, with `h = hi / N` and its fellows: `x0 <= 0.845 + 1.3 e`. -/
theorem cos_chain_scaled {e h l b x1 x0 : ℚ} (he : 0 < e) (he2 : e ≤ 1 / 1000) (hl0 : 0 ≤ l) (hlh : l ≤ h)
    (hhl : h ≤ l + e) (hh : h * h ≤ 2) (hb : 93 / 100 ≤ b) (e1 : l * l * b ≤ (x1 + e) * 12)
    (e0 : x0 * 2 ≤ h * h * (1 - x1)) : x0 ≤ 845 / 1000 + 2 * e := by
  have hh2 : h ≤ 3 / 2 := by nlinarith
  have h1 : l * l * (93 / 100) ≤ (x1 + e) * 12 := le_trans (mul_le_mul_of_nonneg_left hb (by positivity)) e1
  have h2 : h * h - 3 * e ≤ l * l := by nlinarith
  have h3 : 1 - x1 ≤ 1 - h * h * (93 / 1200) + 2 * e := by nlinarith
  have h4 : x0 * 2 ≤ h * h * (1 - h * h * (93 / 1200) + 2 * e) :=
    e0.trans (mul_le_mul_of_nonneg_left h3 (mul_self_nonneg h))
  obtain ⟨t, ht⟩ : ∃ t, t = h * h := ⟨_, rfl⟩
  rw [← ht] at h4 hh
  have ht0 : 0 ≤ t := by rw [ht]; exact mul_self_nonneg h
  have h5 : t * (1 - t * (93 / 1200)) ≤ 169 / 100 := by nlinarith
  nlinarith

theorem cos_chain {N hi lo B q1 A q0 : ℚ} (hN : 1000 ≤ N) (hlo0 : 0 ≤ lo) (hloq : lo ≤ hi) (hhiq : hi ≤ lo + 1)
    (hsq : hi * hi ≤ 2 * (N * N)) (hBq : N * (93 / 100) ≤ B) (e1 : lo * lo * B < (q1 + 1) * (12 * (N * N)))
    (hAq : A = N - q1) (e0 : q0 * (2 * (N * N)) ≤ hi * hi * A) : q0 ≤ N * (845 / 1000) + 2 := by
  have hNpos : 0 < N := by linarith
  have hN0 : N ≠ 0 := hNpos.ne'
  have hNN : 0 < N * N := by positivity
  have key := cos_chain_scaled (e := 1 / N) (h := hi / N) (l := lo / N) (b := B / N) (x1 := q1 / N) (x0 := q0 / N)
    (by positivity) (by rw [div_le_div_iff₀ hNpos (by norm_num)]; linarith) (by positivity)
    (by rw [div_le_div_iff_of_pos_right hNpos]; exact hloq)
    (by rw [← add_div, div_le_div_iff_of_pos_right hNpos]; exact hhiq)
    (by rw [div_mul_div_comm, div_le_iff₀ hNN]; exact hsq)
    (by rw [le_div_iff₀ hNpos]; linarith)
    (by
      rw [← add_div, div_mul_div_comm, div_mul_div_comm, div_mul_eq_mul_div, div_le_div_iff₀ (by positivity) hNpos]
      have := mul_le_mul_of_nonneg_right e1.le hNpos.le
      calc _ = lo * lo * B * N := by ring
        _ ≤ _ := this
        _ = _ := by ring)
    (by
      rw [show (1 : ℚ) - q1 / N = A / N by rw [hAq]; field_simp, div_mul_div_comm, div_mul_div_comm, div_mul_eq_mul_div,
        div_le_div_iff₀ hNpos (by positivity)]
      have := mul_le_mul_of_nonneg_right e0 hNpos.le
      calc _ = q0 * (2 * (N * N)) * N := by ring
        _ ≤ _ := this
        _ = _ := by ring)
  rw [div_le_iff₀ hNpos] at key
  have : (845 / 1000 + 2 * (1 / N)) * N = N * (845 / 1000) + 2 := by field_simp
  linarith

/-- The last three steps of the cosine series bound `cos y` away from 0 for `y` up to about 1.414. -/
theorem F32.cosBounds_ge (p terms lo hi : Nat) (hp : 20 ≤ p) (hlo : lo ≤ hi) (hhi : hi ≤ lo + 1)
    (hsq : (hi : ℚ) * hi ≤ 2 * (2 ^ p) ^ 2) :
    (2 : ℚ) ^ p * (3 / 20) ≤ (F32.cosBounds p (terms + 3) lo hi).1 := by
  have hstep : ∀ k acc, F32.altSeries p (lo * lo) (hi * hi) false (k + 1) acc =
      F32.altSeries p (lo * lo) (hi * hi) false k
        (2 ^ p - (hi * hi * acc.2 / ((2 * k + 2) * (2 * k + 1) * 2 ^ (2 * p)) + 1),
          2 ^ p - lo * lo * acc.1 / ((2 * k + 2) * (2 * k + 1) * 2 ^ (2 * p))) := fun k acc => rfl
  -- the accumulator before the last three steps
  obtain ⟨C, hC, hC2⟩ : ∃ C : Nat × Nat, F32.cosBounds p (terms + 3) lo hi =
      F32.altSeries p (lo * lo) (hi * hi) false 3 C ∧ C.2 ≤ 2 ^ p := by
    unfold F32.cosBounds
    have hgen : ∀ (n : Nat) (acc : Nat × Nat), acc.2 ≤ 2 ^ p → ∃ C : Nat × Nat,
        F32.altSeries p (lo * lo) (hi * hi) false (n + 3) acc = F32.altSeries p (lo * lo) (hi * hi) false 3 C ∧
          C.2 ≤ 2 ^ p := by
      intro n
      induction n with
      | zero => intro acc h; exact ⟨acc, rfl, h⟩
      | succ n ih => intro acc h; rw [show n + 1 + 3 = (n + 3) + 1 by ring, hstep]; exact ih _ (Nat.sub_le _ _)
    exact hgen terms (0, 2 ^ p) le_rfl
  rw [hC, hstep, hstep, hstep]
  simp only [F32.altSeries]
  have hN : (2 : ℚ) ^ 20 ≤ 2 ^ p := pow_le_pow_right₀ (by norm_num) hp
  have hNn : 2 ^ 20 ≤ 2 ^ p := Nat.pow_le_pow_right (by norm_num) hp
  obtain ⟨N, hNdef⟩ : ∃ N : Nat, N = 2 ^ p := ⟨_, rfl⟩
  have hNq : (N : ℚ) = 2 ^ p := by rw [hNdef]; push_cast; rfl
  have h2p : 2 ^ (2 * p) = N * N := by rw [hNdef, ← pow_add]; congr 1; ring
  rw [h2p, ← hNdef, ← hNq]
  rw [← hNq] at hN hsq
  rw [← hNdef] at hC2
  have hNpos : (0 : ℚ) < N := by linarith [show (0 : ℚ) < 2 ^ 20 by norm_num]
  have hN0 : 0 < N := by exact_mod_cast hNpos
  -- names for the three quotients
  obtain ⟨q2, hq2⟩ : ∃ q2 : Nat, q2 = hi * hi * C.2 / ((2 * 2 + 2) * (2 * 2 + 1) * (N * N)) := ⟨_, rfl⟩
  rw [← hq2]
  obtain ⟨B, hB⟩ : ∃ B : Nat, B = N - (q2 + 1) := ⟨_, rfl⟩
  rw [← hB]
  obtain ⟨q1, hq1⟩ : ∃ q1 : Nat, q1 = lo * lo * B / ((2 * 1 + 2) * (2 * 1 + 1) * (N * N)) := ⟨_, rfl⟩
  rw [← hq1]
  obtain ⟨A, hA⟩ : ∃ A : Nat, A = N - q1 := ⟨_, rfl⟩
  rw [← hA]
  obtain ⟨q0, hq0⟩ : ∃ q0 : Nat, q0 = hi * hi * A / ((2 * 0 + 2) * (2 * 0 + 1) * (N * N)) := ⟨_, rfl⟩
  rw [← hq0]
  -- exact bounds over the rationals
  have hCq : (C.2 : ℚ) ≤ N := by exact_mod_cast hC2
  have hloq : (lo : ℚ) ≤ hi := by exact_mod_cast hlo
  have hhiq : (hi : ℚ) ≤ lo + 1 := by exact_mod_cast hhi
  have hlo0 : (0 : ℚ) ≤ lo := by positivity
  have hhi0 : (0 : ℚ) ≤ hi := by positivity
  have hNN : (0 : ℚ) < N * N := by positivity
  have e2 : (q2 : ℚ) * 30 ≤ 2 * N := by
    have h := natDiv_cast_le (hi * hi * C.2) ((2 * 2 + 2) * (2 * 2 + 1) * (N * N))
    rw [← hq2] at h
    push_cast at h
    rw [le_div_iff₀ (by positivity)] at h
    have h3 : (hi : ℚ) * hi * C.2 ≤ 2 * N ^ 2 * N := by
      calc (hi : ℚ) * hi * C.2 ≤ (2 * N ^ 2) * N := by gcongr
        _ = _ := by ring
    nlinarith
  have hBq : (N : ℚ) * (93 / 100) ≤ B := by
    have : (q2 : ℚ) + 1 ≤ N := by linarith
    have hle : q2 + 1 ≤ N := by exact_mod_cast this
    rw [hB, Nat.cast_sub hle]
    push_cast
    linarith
  have hBN : (B : ℚ) ≤ N := by rw [hB]; exact_mod_cast Nat.sub_le _ _
  have e1 : (lo : ℚ) * lo * B < (q1 + 1) * (12 * (N * N)) := by
    have h := lt_natDiv_cast (lo * lo * B) (b := (2 * 1 + 2) * (2 * 1 + 1) * (N * N)) (by positivity)
    rw [← hq1] at h
    push_cast at h
    rw [div_lt_iff₀ (by positivity)] at h
    linarith
  have hlolo : (lo : ℚ) * lo ≤ 2 * N ^ 2 := le_trans (mul_le_mul hloq hloq hlo0 hhi0) hsq
  have hq1N : (q1 : ℚ) ≤ N := by
    have h := natDiv_cast_le (lo * lo * B) ((2 * 1 + 2) * (2 * 1 + 1) * (N * N))
    rw [← hq1] at h
    push_cast at h
    rw [le_div_iff₀ (by positivity)] at h
    have h3 : (lo : ℚ) * lo * B ≤ 2 * N ^ 2 * N := mul_le_mul hlolo hBN (by positivity) (by positivity)
    nlinarith
  have hAq : (A : ℚ) = N - q1 := by rw [hA, Nat.cast_sub (by exact_mod_cast hq1N)]
  have e0 : (q0 : ℚ) * (2 * (N * N)) ≤ hi * hi * A := by
    have h := natDiv_cast_le (hi * hi * A) ((2 * 0 + 2) * (2 * 0 + 1) * (N * N))
    rw [← hq0] at h
    push_cast at h
    rw [le_div_iff₀ (by positivity)] at h
    linarith
  have hq0le : (q0 : ℚ) ≤ N * (845 / 1000) + 2 :=
    cos_chain (le_trans (by norm_num) hN) hlo0 hloq hhiq (by linarith [hsq, sq (N : ℚ)]) hBq e1 hAq e0
  have hN20 : (1048576 : ℚ) ≤ N := by linarith [show (2 : ℚ) ^ 20 = 1048576 by norm_num]
  have hle : q0 + 1 ≤ N := by
    have : (q0 : ℚ) + 1 ≤ N := by linarith
    exact_mod_cast this
  rw [Nat.cast_sub hle]
  push_cast
  linarith

/-- A quotient of naturals in units, at most 8 times over, rounds to a value in [0, 8]. -/
theorem F32.round_quot_bounds (n d : Nat) (hd : 0 < d) (h : (n : ℚ) ≤ 8 * d) :
    (F32.round false (n * F32.one149) d).isNaN = false ∧ 0 ≤ (F32.round false (n * F32.one149) d).val ∧
      (F32.round false (n * F32.one149) d).val ≤ 8 := by
  have hr := F32.round_rounds false (n * F32.one149) d hd
  have hdq : (0 : ℚ) < d := by exact_mod_cast hd
  have hv : (if false then (-1 : ℚ) else 1) * (((n * F32.one149 : Nat) : ℚ) / d / 2 ^ 149) = n / d := by
    rw [Nat.cast_mul, show (F32.one149 : ℚ) = 2 ^ 149 by norm_num [F32.one149]]
    simp only [Bool.false_eq_true, if_false, one_mul]
    field_simp
  have h8 : (n : ℚ) / d ≤ 8 := by rw [div_le_iff₀ hdq]; exact h
  rw [hv] at hr
  have hle := hr.le_int 8 (by norm_num) (by push_cast; exact h8)
  push_cast at hle
  exact ⟨hr.notNaN, hr.nonneg (by positivity), hle⟩

theorem F32.tanEnds_bounds (p terms u : Nat) (hp : 20 ≤ p) (hp2 : p ≤ 544) (hu : (u : ℚ) ≤ 707 / 500 * 2 ^ 149) :
    ((F32.tanEnds p (terms + 3) u false).1.isNaN = false ∧ 0 ≤ (F32.tanEnds p (terms + 3) u false).1.val ∧
      (F32.tanEnds p (terms + 3) u false).1.val ≤ 8) ∧
    ((F32.tanEnds p (terms + 3) u false).2.isNaN = false ∧ 0 ≤ (F32.tanEnds p (terms + 3) u false).2.val ∧
      (F32.tanEnds p (terms + 3) u false).2.val ≤ 8) := by
  have huN : u * 500 ≤ 707 * 2 ^ 149 := by
    have : (u : ℚ) * 500 ≤ 707 * 2 ^ 149 := by linarith
    exact_mod_cast this
  obtain ⟨v, hv⟩ : ∃ v, v = u * 2 ^ (F32.constBits - 149) := ⟨_, rfl⟩
  have hpi : 707 * 2 ^ 544 ≤ 500 * (F32.halfPiUnits + 1) - 500 := by decide +kernel
  have hvlt : v * 500 ≤ 707 * 2 ^ 544 := by
    obtain ⟨c, hc⟩ : ∃ c, c = F32.constBits - 149 := ⟨_, rfl⟩
    have h544 : 149 + c = 544 := by rw [hc]; rfl
    rw [hv, ← hc]
    calc u * 2 ^ c * 500 = (u * 500) * 2 ^ c := by ring
      _ ≤ (707 * 2 ^ 149) * 2 ^ c := Nat.mul_le_mul_right _ huN
      _ = 707 * 2 ^ (149 + c) := by rw [mul_assoc, ← pow_add]
      _ = 707 * 2 ^ 544 := by rw [h544]
  have hk : v / (F32.halfPiUnits + 1) = 0 := Nat.div_eq_of_lt (by omega)
  have hred : F32.reduceHalfPi p u = (0, v / 2 ^ (544 - p), v / 2 ^ (544 - p) + 1) := by
    unfold F32.reduceHalfPi
    simp only [← hv, hk]
    simp [F32.constBits]
  obtain ⟨lo, hlo⟩ : ∃ lo, lo = v / 2 ^ (544 - p) := ⟨_, rfl⟩
  rw [← hlo] at hred
  have hN : (2 : ℚ) ^ 20 ≤ 2 ^ p := pow_le_pow_right₀ (by norm_num) hp
  have hloN : (lo : ℚ) ≤ 707 / 500 * 2 ^ p := by
    have h1 := natDiv_cast_le v (2 ^ (544 - p))
    rw [← hlo] at h1
    have h2 : (v : ℚ) * 500 ≤ 707 * 2 ^ 544 := by exact_mod_cast hvlt
    have h3 : (2 : ℚ) ^ 544 = 2 ^ p * 2 ^ (544 - p) := by rw [← pow_add]; congr 1; omega
    push_cast at h1
    rw [le_div_iff₀ (by positivity)] at h1
    have h4 : (lo : ℚ) * 2 ^ (544 - p) ≤ 707 / 500 * 2 ^ p * 2 ^ (544 - p) := by
      rw [h3] at h2; linarith
    exact le_of_mul_le_mul_right h4 (by positivity)
  have hsq : ((lo + 1 : Nat) : ℚ) * ((lo + 1 : Nat) : ℚ) ≤ 2 * (2 ^ p) ^ 2 := by
    have h5 : ((lo + 1 : Nat) : ℚ) ≤ 14141 / 10000 * 2 ^ p := by push_cast; norm_num at hN ⊢; linarith
    have h0 : (0 : ℚ) ≤ ((lo + 1 : Nat) : ℚ) := by positivity
    calc _ ≤ (14141 / 10000 * 2 ^ p) * (14141 / 10000 * (2 : ℚ) ^ p) := mul_le_mul h5 h5 h0 (by positivity)
      _ = (14141 / 10000 * (14141 / 10000)) * (2 ^ p) ^ 2 := by ring
      _ ≤ 2 * (2 ^ p) ^ 2 := by gcongr; norm_num
  have hc := F32.cosBounds_ge p terms lo (lo + 1) hp (Nat.le_succ _) le_rfl hsq
  have hc2 := F32.cosBounds_le p (terms + 3) lo (lo + 1) (Nat.le_succ _)
  have hs := F32.sinBounds_le p (terms + 3) lo (lo + 1)
  have hpos : (0 : ℚ) < 2 ^ p * (3 / 20) := by positivity
  have hc1q : (0 : ℚ) < ((F32.cosBounds p (terms + 3) lo (lo + 1)).1 : ℚ) := lt_of_lt_of_le hpos hc
  have hc1 : 0 < (F32.cosBounds p (terms + 3) lo (lo + 1)).1 := by exact_mod_cast hc1q
  have hs1 : ((F32.sinBounds p (terms + 3) lo (lo + 1)).1 : ℚ) ≤ 2 ^ p := by exact_mod_cast hs.1
  have hs2 : ((F32.sinBounds p (terms + 3) lo (lo + 1)).2 : ℚ) ≤ 2 ^ p := by exact_mod_cast hs.2
  have hcc : ((F32.cosBounds p (terms + 3) lo (lo + 1)).1 : ℚ) ≤ (F32.cosBounds p (terms + 3) lo (lo + 1)).2 := by
    exact_mod_cast hc2.1
  have hends : F32.tanEnds p (terms + 3) u false =
      (F32.round false ((F32.sinBounds p (terms + 3) lo (lo + 1)).1 * F32.one149) (F32.cosBounds p (terms + 3) lo (lo + 1)).2,
        F32.round false ((F32.sinBounds p (terms + 3) lo (lo + 1)).2 * F32.one149)
          (F32.cosBounds p (terms + 3) lo (lo + 1)).1) := by
    unfold F32.tanEnds
    rw [hred]
    simp
  rw [hends]
  exact ⟨F32.round_quot_bounds _ _ (lt_of_lt_of_le hc1 hc2.1) (by linarith),
    F32.round_quot_bounds _ _ hc1 (by linarith)⟩

/-! ### The properties of the reference functions -/

/-- The reference functions have the properties the rules use. -/
theorem libOk_correctlyRounded : LibOk .correctlyRounded where
  exp2_notNaN x hx := by
    show (F32.exp2Ref x).isNaN = false
    rcases F32.exp2Ref_cases hx with ⟨_, h⟩ | ⟨_, h⟩ | ⟨_, _, h, _⟩
    · rw [h]; exact F32.isNaN_zero _
    · rw [h]; exact F32.isNaN_inf _
    · exact h
  exp2_nonneg x hx := by
    show 0 ≤ (F32.exp2Ref x).val
    rcases F32.exp2Ref_cases hx with ⟨_, h⟩ | ⟨_, h⟩ | ⟨_, _, _, e, _, _, _, _, _, h, _⟩
    · rw [h, F32.val_zero]
    · rw [h, F32.val_inf]; norm_num
    · exact h
  exp2_ge x k hx hk1 hk2 h := by
    show (2 : ℚ) ^ k ≤ (F32.exp2Ref x).val
    rcases F32.exp2Ref_cases hx with ⟨h1, _⟩ | ⟨_, h2⟩ | ⟨_, _, _, e, _, _, he, _, hlo, _, _⟩
    · have : (k : ℚ) ≤ -150 := h.trans h1
      have : k ≤ -150 := by exact_mod_cast this
      omega
    · rw [h2, F32.val_inf]
      simp only [Bool.false_eq_true, if_false, one_mul]
      rw [← zpow_natCast]
      exact zpow_le_zpow_right₀ (by norm_num) (by push_cast; omega)
    · have hkf : k ≤ ⌊x.val⌋ := Int.le_floor.mpr h
      refine le_trans ?_ (hlo (by omega))
      rw [← zpow_natCast, ← zpow_natCast, ← zpow_sub₀ (by norm_num)]
      exact zpow_le_zpow_right₀ (by norm_num) (by push_cast; omega)
  exp2_le x k hx hk1 hk2 h := by
    show (F32.exp2Ref x).val ≤ (2 : ℚ) ^ k
    rcases F32.exp2Ref_cases hx with ⟨_, h1⟩ | ⟨h2, _⟩ | ⟨_, _, _, e, _, _, he, hex, _, _, hhi⟩
    · rw [h1, F32.val_zero]; positivity
    · have : (128 : ℚ) ≤ k := h2.trans h
      have : (128 : Int) ≤ k := by exact_mod_cast this
      omega
    · have hfk : ⌊x.val⌋ ≤ k := by
        have := (Int.floor_le x.val).trans h
        exact_mod_cast this
      by_cases hz : x.val = ⌊x.val⌋
      · obtain ⟨he1, hv⟩ := hex hz
        rw [hv, ← zpow_natCast, ← zpow_natCast, ← zpow_sub₀ (by norm_num)]
        exact zpow_le_zpow_right₀ (by norm_num) (by push_cast; omega)
      · have hlt : ⌊x.val⌋ < k := by
          refine lt_of_le_of_ne hfk fun hc => hz ?_
          rw [← hc] at h
          exact le_antisymm h (Int.floor_le _)
        refine hhi.trans ?_
        rw [← zpow_natCast, ← zpow_natCast, ← zpow_sub₀ (by norm_num)]
        exact zpow_le_zpow_right₀ (by norm_num) (by push_cast; omega)
  sin_bounds x hx h0 h7 :=
    F32.sinRef_bounds hx (F32.not_inf_of_abs_lt (by rw [abs_of_nonneg h0]; exact lt_of_le_of_lt h7 (by norm_num)))
  tan_bounds x hx h0 hb := by
    show (F32.tanRef x).isNaN = false ∧ 0 ≤ (F32.tanRef x).val ∧ (F32.tanRef x).val ≤ 8
    unfold F32.tanRef
    rw [hx, F32.not_inf_of_abs_lt (by rw [abs_of_nonneg h0]; exact lt_of_le_of_lt hb (by norm_num)), if_neg (by simp)]
    simp only
    split
    · exact ⟨hx, h0, by linarith⟩
    · rename_i hbig
      have hpos : 0 ≤ x.units := by
        have := F32.units_eq_val x
        have h3 : (0 : ℚ) ≤ x.units := by rw [this]; positivity
        exact_mod_cast h3
      have hun : ((x.units.natAbs : Nat) : ℚ) ≤ 707 / 500 * 2 ^ 149 := by
        have h4 : ((x.units.natAbs : Nat) : ℚ) = x.units := by
          rw [Nat.cast_natAbs, abs_of_nonneg hpos]
        rw [h4, F32.units_eq_val]
        gcongr
      have hsign : x.sign = false := by
        by_contra hs
        rw [Bool.not_eq_false] at hs
        have h5 := F32.units_eq x
        rw [hs] at h5
        have h6 := F32.natAbs_units x
        have : F32.unitsOfMag x.mag = 0 := by
          have : (0 : Int) ≤ (F32.unitsOfMag x.mag : Int) := by positivity
          simp at h5
          omega
        rw [this] at h6
        rw [h6] at hbig
        exact hbig (by norm_num [F32.tinyAngle])
      rw [hsign]
      rcases F32.agreeOr_cases (F32.tanEnds 128 22 x.units.natAbs false) (F32.tanEnds 400 48 x.units.natAbs false).1
        with ⟨_, h⟩ | h
      · rw [h]; exact (F32.tanEnds_bounds 128 19 _ (by norm_num) (by norm_num) hun).2
      · rw [h]; exact (F32.tanEnds_bounds 400 45 _ (by norm_num) (by norm_num) hun).1

end Sys2Proof
end

