-- ==== Sys2Proof/Laws/Voice.lean ====
section
/-! SUPPORT. The ranges of what a voice's render computes before its oscillators and its filter: portamento time, LFO rate,
modulation, pitches, mix (43_voice.md R231 to R246). -/

namespace Sys2Proof.Machine

/-! ### Interval arithmetic with one rounding per operation -/

theorem Within.add {a b c d : Int} {x y : F32} (hx : Within a b x) (hy : Within c d y)
    (ha : a.natAbs ≤ 2 ^ 23 := by norm_num) (hb : b.natAbs ≤ 2 ^ 23 := by norm_num)
    (hc : c.natAbs ≤ 2 ^ 23 := by norm_num) (hd : d.natAbs ≤ 2 ^ 23 := by norm_num) :
    Within (a + c : Int) (b + d : Int) (x.add y) := by
  have fin : ∀ {e f : Int} {z : F32}, Within e f z → e.natAbs ≤ 2 ^ 23 → f.natAbs ≤ 2 ^ 23 → z.isFinite = true :=
    fun {e f z} h he hf => finite_of_int_bounds e f h.2.1 h.2.2 (by omega) (by omega)
  refine within_of_rounds (F32.add_rounds (fin hx ha hb) (fin hy hc hd)) _ _ (by omega) (by omega) ?_ ?_
  · push_cast; linarith [hx.2.1, hy.2.1]
  · push_cast; linarith [hx.2.2, hy.2.2]

theorem Within.sub {a b c d : Int} {x y : F32} (hx : Within a b x) (hy : Within c d y)
    (ha : a.natAbs ≤ 2 ^ 23 := by norm_num) (hb : b.natAbs ≤ 2 ^ 23 := by norm_num)
    (hc : c.natAbs ≤ 2 ^ 23 := by norm_num) (hd : d.natAbs ≤ 2 ^ 23 := by norm_num) :
    Within (a - d : Int) (b - c : Int) (x.sub y) := by
  have fin : ∀ {e f : Int} {z : F32}, Within e f z → e.natAbs ≤ 2 ^ 23 → f.natAbs ≤ 2 ^ 23 → z.isFinite = true :=
    fun {e f z} h he hf => finite_of_int_bounds e f h.2.1 h.2.2 (by omega) (by omega)
  refine within_of_rounds (F32.sub_rounds (fin hx ha hb) (fin hy hc hd)) _ _ (by omega) (by omega) ?_ ?_
  · push_cast; linarith [hx.2.1, hy.2.2]
  · push_cast; linarith [hx.2.2, hy.2.1]

/-- A product of values within `[-m, m]` and `[-n, n]`. -/
theorem Within.mul {m n : Nat} {x y : F32} (hx : Within (-(m : ℚ)) m x) (hy : Within (-(n : ℚ)) n y)
    (h : m * n ≤ 2 ^ 23 := by norm_num) (hm : m ≤ 2 ^ 23 := by norm_num) (hn : n ≤ 2 ^ 23 := by norm_num) :
    Within (-((m * n : Nat) : ℚ)) ((m * n : Nat) : ℚ) (x.mul y) := by
  have fin : ∀ {k : Nat} {z : F32}, Within (-(k : ℚ)) k z → k ≤ 2 ^ 23 → z.isFinite = true := fun {k z} hz hk =>
    finite_of_int_bounds (-(k : Int)) k (by push_cast; exact hz.2.1) (by exact_mod_cast hz.2.2) (by omega) (by omega)
  have hr := F32.mul_rounds (fin hx hm) (fin hy hn)
  have hb : |x.val * y.val| ≤ (m * n : Nat) := by
    rw [abs_mul]; push_cast
    exact mul_le_mul (abs_le.mpr hx.2) (abs_le.mpr hy.2) (abs_nonneg _) (by positivity)
  rw [abs_le] at hb
  have := within_of_rounds hr (-((m * n : Nat) : Int)) ((m * n : Nat) : Int) (by omega) (by omega)
    (by push_cast at hb ⊢; exact hb.1) (by push_cast at hb ⊢; exact hb.2)
  push_cast at this ⊢
  exact this

/-- A legal parameter register within its row's bounds. -/
theorem param_within {s : State} (h : registersLegal s = true) (p : Param) :
    Within (paramRow s.cfg.poolSize p).lo.val (paramRow s.cfg.poolSize p).hi.val (s.param p) :=
  ⟨(param_bounds h p).1, (param_bounds h p).2.1, (param_bounds h p).2.2.1⟩

/-- Between two values one of which a switch selects. -/
theorem within_ite {a b : ℚ} {c : Bool} {x y : F32} (hx : Within a b x) (hy : Within a b y) :
    Within a b (if c = true then x else y) := by split <;> assumption

theorem within_c0 : Within 0 0 c0 := ⟨c0_notNaN, by rw [c0_val], by rw [c0_val]⟩

/-! ### Times and rates -/

/-- With portamento on, the glide lasts between 7 and 2^22 ticks (R231, R232). -/
theorem portaTime_cases {s : State} (hl : LibOk s.cfg.lib) (h : registersLegal s = true) :
    (F32.eq (s.param .portamento) c0 = true ∧ portaTime s = c0) ∨
    (F32.eq (s.param .portamento) c0 = false ∧ F32.eq (portaTime s) c0 = false ∧
      Within 7 (2 ^ 22) ((portaTime s).mul s.fs)) := by
  unfold portaTime
  cases hz : F32.eq (s.param .portamento) c0 with
  | true => left; simp
  | false =>
    right
    obtain ⟨_, _, _, ⟨_, hf0, hf1⟩, _⟩ := globals_bounds h
    have hp := param_within h .portamento
    simp only [paramRow, c0_val, c1_val] at hp
    rw [if_neg (by simp)]
    refine ⟨rfl, ?_, envTicks_bounds hl hp.2.1 hp.2.2 hf0 hf1⟩
    rw [← Bool.not_eq_true, F32.eq_iff, c0_val]
    rintro ⟨_, _, he⟩
    have := (envTime_bounds hl hp.2.1 hp.2.2).2.1
    rw [he] at this
    norm_num at this

/-- The LFO rate lies in [0.0, 82.0] Hz (R240). -/
theorem lfoHz_within {s : State} (hl : LibOk s.cfg.lib) (h : registersLegal s = true) : Within 0 82 (lfoHz s) := by
  have hr := param_within h .lfoRate
  simp only [paramRow, c0_val, c1_val] at hr
  have hrf := unit_finite hr.2.1 hr.2.2
  unfold lfoHz
  split
  · dsimp only
    have ht := param_within h .tempo
    simp only [paramRow, c20_val, c300_val] at ht
    have m8 := F32.mul_rounds hrf (y := c8) (by decide)
    rw [c8_val] at m8
    have w8 := within_of_rounds m8 0 8 (by norm_num) (by norm_num) (by push_cast; linarith [hr.2.1]) (by push_cast; linarith [hr.2.2])
    push_cast at w8
    have a8 := F32.add_rounds (w8.finite (by norm_num) (by norm_num)) (y := cHalf) (by decide)
    rw [cHalf_val] at a8
    have k0 : (0 : ℚ) ≤ (((s.param .lfoRate).mul c8).add cHalf).val := a8.nonneg (by linarith [w8.2.1])
    have k1 : (((s.param .lfoRate).mul c8).add cHalf).val < 9 := by
      have := a8.le_rep 17 148 (by norm_num) (by norm_num) (by norm_num; linarith [w8.2.2])
      norm_num at this; linarith
    rw [F32.floor_eq]
    have f0 : 0 ≤ ⌊(((s.param .lfoRate).mul c8).add cHalf).val⌋ := Int.floor_nonneg.mpr k0
    have f1 : ⌊(((s.param .lfoRate).mul c8).add cHalf).val⌋ < 9 := Int.floor_lt.mpr (by exact_mod_cast k1)
    generalize ⌊(((s.param .lfoRate).mul c8).add cHalf).val⌋ = m at f0 f1
    have hpow : ∀ j ∈ List.range 9, (F32.le c0 (F32.pow2 ((j : Int) - 4)) &&
        F32.le (F32.pow2 ((j : Int) - 4)) ⟨0x41800000#32⟩) = true := by decide +kernel
    have hj := hpow m.toNat (by rw [List.mem_range]; omega)
    rw [Int.toNat_of_nonneg f0, Bool.and_eq_true, F32.le_iff, F32.le_iff, c0_val,
      show (⟨0x41800000#32⟩ : F32).val = 16 by
        rw [F32.val, show (⟨0x41800000#32⟩ : F32).units = 16 * 2 ^ 149 by decide +kernel]; norm_num] at hj
    have d60 := F32.div_rounds (ht.finite (by norm_num) (by norm_num)) (y := c60) (by decide) (by rw [c60_val]; norm_num)
    rw [c60_val] at d60
    have wd := within_of_rounds d60 0 5 (by norm_num) (by norm_num) (by push_cast; linarith [ht.2.1]) (by push_cast; linarith [ht.2.2])
    push_cast at wd
    have hp := F32.mul_rounds (wd.finite (by norm_num) (by norm_num))
      (finite_of_int_bounds 0 16 (by push_cast; exact hj.1.2.2) (by push_cast; exact hj.2.2.2) (by norm_num) (by norm_num))
    have := within_of_rounds hp 0 82 (by norm_num) (by norm_num) (by push_cast; exact mul_nonneg wd.2.1 hj.1.2.2)
      (by push_cast; nlinarith [wd.2.1, wd.2.2, hj.1.2.2, hj.2.2.2])
    simpa using this
  · have hm := F32.mul_rounds hrf (y := cLog2_400) (by decide)
    have hlog : (0 : ℚ) ≤ cLog2_400.val ∧ cLog2_400.val ≤ 9 := by constructor <;> norm_num
    have w9 := within_of_rounds hm 0 9 (by norm_num) (by norm_num) (by push_cast; exact mul_nonneg hr.2.1 hlog.1)
      (by push_cast; nlinarith [hr.2.1, hr.2.2])
    have e0 := hl.exp2_nonneg _ w9.1
    have e1 := hl.exp2_le _ 9 w9.1 (by norm_num) (by norm_num) (by exact_mod_cast w9.2.2)
    norm_num at e1
    have hq := F32.mul_rounds (x := cLfoRateMin) (by decide)
      (finite_of_int_bounds 0 512 (by exact_mod_cast e0) (by exact_mod_cast e1) (by norm_num) (by norm_num))
    have hmin : (0 : ℚ) ≤ cLfoRateMin.val ∧ cLfoRateMin.val ≤ 1 / 10 := by constructor <;> norm_num
    have := within_of_rounds hq 0 82 (by norm_num) (by norm_num) (by push_cast; exact mul_nonneg hmin.1 e0)
      (by push_cast; nlinarith [hmin.1, hmin.2])
    simpa using this

/-- The LFO's phase increment is at most 1/64 (R241). -/
theorem lfoInc_within {s : State} (hl : LibOk s.cfg.lib) (h : registersLegal s = true) :
    Within 0 (1 / 64) ((lfoHz s).div s.fs) := by
  obtain ⟨_, _, _, ⟨_, hf0, hf1⟩, _⟩ := globals_bounds h
  have hz := lfoHz_within hl h
  have hd := F32.div_rounds (hz.finite (by norm_num) (by norm_num))
    (finite_of_int_bounds 8000 192000 (by exact_mod_cast hf0) (by exact_mod_cast hf1) (by norm_num) (by norm_num)) (by linarith)
  refine ⟨hd.notNaN, hd.nonneg (div_nonneg hz.2.1 (by linarith)), ?_⟩
  have := hd.le_rep 1 143 (by norm_num) (by norm_num) (by
    rw [div_le_iff₀ (by linarith)]; norm_num; linarith [hz.2.2])
  norm_num at this ⊢
  exact this

/-- The scaled LFO lies in [-1.0, 1.0] (R243). -/
theorem scaledLfo_within {s : State} (h : registersLegal s = true) {lv : F32} (hv : Within (-1) 1 lv) :
    Within (-1) 1 (scaledLfo s lv) := by
  obtain ⟨_, _, _, _, _, hw, hw0, hw1⟩ := globals_bounds h
  have hd := param_within h .lfoDepth
  simp only [paramRow, c0_val, c1_val] at hd
  have ha := F32.add_rounds (unit_finite hd.2.1 hd.2.2) (unit_finite hw0 hw1)
  have hm := fmin_unit ha.notNaN (ha.nonneg (by linarith [hd.2.1]))
  exact hv.mul_unit (hm.mono (by norm_num) le_rfl)

/-! ### Pitches -/

/-- The unison offset lies in [-1.0, 1.0] semitones (R246). -/
theorem unisonOffset_within {s : State} {v : Voice} (h : registersLegal s = true) (hc : v.copy < v.uniN) (hN : v.uniN ≤ 32) :
    Within (-1) 1 (unisonOffset s v) := by
  unfold unisonOffset
  split
  · exact within_c0.mono (by norm_num) (by norm_num)
  · rename_i h1
    have hu := param_within h .unisonDetune
    simp only [paramRow, c0_val, c1_val] at hu
    have hh : Within (-1) 1 cHalf := ⟨cHalf_notNaN, by rw [cHalf_val]; norm_num, by rw [cHalf_val]; norm_num⟩
    have wd := (hu.mono (by norm_num) le_rfl : Within (-1) 1 _).mul_unit hh
    have e1 : (F32.ofInt (2 * (v.copy : Int))).val = ((2 * (v.copy : Int) : Int) : ℚ) := F32.ofInt_val (by omega)
    have e2 : (F32.ofInt ((v.uniN : Int) - 1)).val = (((v.uniN : Int) - 1 : Int) : ℚ) := F32.ofInt_val (by omega)
    have c0' : (0 : ℚ) ≤ v.copy := by positivity
    have n1 : (1 : ℚ) ≤ (((v.uniN : Int) - 1 : Int) : ℚ) := by
      have : (1 : Int) ≤ (v.uniN : Int) - 1 := by omega
      exact_mod_cast this
    have n31 : (((v.uniN : Int) - 1 : Int) : ℚ) ≤ 31 := by
      have : (v.uniN : Int) - 1 ≤ 31 := by omega
      exact_mod_cast this
    have cn : (v.copy : ℚ) ≤ (((v.uniN : Int) - 1 : Int) : ℚ) := by
      have : (v.copy : Int) ≤ (v.uniN : Int) - 1 := by omega
      exact_mod_cast this
    have f1 : (F32.ofInt (2 * (v.copy : Int))).isFinite = true :=
      finite_of_int_bounds 0 62 (by rw [e1]; push_cast; linarith) (by rw [e1]; push_cast; linarith) (by norm_num) (by norm_num)
    have f2 : (F32.ofInt ((v.uniN : Int) - 1)).isFinite = true :=
      finite_of_int_bounds 1 31 (by rw [e2]; push_cast at n1 ⊢; exact n1) (by rw [e2]; push_cast at n31 ⊢; exact n31)
        (by norm_num) (by norm_num)
    have hd := F32.div_rounds f1 f2 (by rw [e2]; linarith)
    rw [e1, e2] at hd
    have wq := within_of_rounds hd 0 2 (by norm_num) (by norm_num)
      (by push_cast at n1 ⊢; exact div_nonneg (by linarith) (by linarith))
      (by rw [div_le_iff₀ (by linarith)]; push_cast at cn ⊢; linarith)
    have w1 : Within ((1 : Int) : ℚ) ((1 : Int) : ℚ) c1 := ⟨c1_notNaN, by rw [c1_val]; norm_num, by rw [c1_val]; norm_num⟩
    have := wq.sub w1
    norm_num at this
    exact wd.mul_unit this

/-- Bend and envelope modulation of a pitch lie within 24 semitones, the LFO's within 12 (R235). -/
theorem pitchMod_within {s : State} (h : registersLegal s = true) {fenv lm : F32} (hf : F32.within c0 c1 fenv = true)
    (hm : Within (-1) 1 lm) (c : Bool) :
    Within (-24) 24 (s.bend.mul (s.param .bendRange)) ∧ Within (-24) 24 (((s.param .envPitchAmt).mul c24).mul fenv) ∧
    Within (-12) 12 (if c = true then lm.mul c12 else c0) := by
  obtain ⟨_, _, _, _, ⟨hb, hb0, hb1⟩, _⟩ := globals_bounds h
  have hr := param_within h .bendRange
  have he := param_within h .envPitchAmt
  simp only [paramRow, c0_val, c1_val, c24_val] at hr he
  rw [unit_iff] at hf
  have w24 : Within (-((24 : Nat) : ℚ)) ((24 : Nat) : ℚ) c24 := ⟨c24_notNaN, by rw [c24_val]; norm_num, by rw [c24_val]; norm_num⟩
  have w12 : Within (-((12 : Nat) : ℚ)) ((12 : Nat) : ℚ) c12 := ⟨c12_notNaN, by rw [c12_val]; norm_num, by rw [c12_val]; norm_num⟩
  have one : ∀ {x : F32}, Within (-1) 1 x → Within (-((1 : Nat) : ℚ)) ((1 : Nat) : ℚ) x := fun hx => hx.mono (by norm_num) (by norm_num)
  refine ⟨?_, ?_, ?_⟩
  · have := (one ⟨hb, hb0, hb1⟩).mul (n := 24) (hr.mono (by norm_num) (by norm_num))
    norm_num at this; exact this
  · have := ((one (he.mono (by norm_num) (by norm_num))).mul w24).mul (one ⟨hf.1, by linarith [hf.2.1], hf.2.2⟩)
    norm_num at this; exact this
  · refine within_ite ?_ (within_c0.mono (by norm_num) (by norm_num))
    have := (one hm).mul w12
    norm_num at this; exact this

theorem pitchLegal_iff {x : F32} : pitchLegal x = true ↔ Within (-1) 128 x := by
  have h : (⟨0x43000000#32⟩ : F32).val = 128 := by
    rw [F32.val, show (⟨0x43000000#32⟩ : F32).units = 128 * 2 ^ 149 by decide +kernel]; norm_num
  have hn : (⟨0x43000000#32⟩ : F32).isNaN = false := by decide
  unfold pitchLegal Within
  rw [F32.within_iff, cNeg1_val, h, hn]
  simp

/-- Both pitches lie between -87 and 214 semitones (R235, R236). -/
theorem pitches_within {s : State} {v : Voice} (h : registersLegal s = true) {fenv lm : F32} (hf : F32.within c0 c1 fenv = true)
    (hm : Within (-1) 1 lm) (hg : pitchLegal v.gp = true) (hc : v.copy < v.uniN) (hN : v.uniN ≤ 32) :
    Within (-87) 214 (pitch1 s v fenv lm) ∧ Within (-87) 214 (pitch2 s v fenv lm) := by
  have cast : ∀ {a b : Int} {a' b' : ℚ} {x : F32}, Within a' b' x → ((a : ℚ) ≤ a') → (b' ≤ (b : ℚ)) → Within (a : ℚ) (b : ℚ) x :=
    fun hx ha hb => hx.mono ha hb
  have uo : Within ((-1 : Int) : ℚ) ((1 : Int) : ℚ) (unisonOffset s v) :=
    cast (unisonOffset_within h hc hN) (by norm_num) (by norm_num)
  have gp : Within ((-1 : Int) : ℚ) ((128 : Int) : ℚ) v.gp := cast (pitchLegal_iff.mp hg) (by norm_num) (by norm_num)
  have p1 := param_within h .osc1Pitch
  have p2 := param_within h .osc2Pitch
  have dt := param_within h .osc2Detune
  have mt := param_within h .masterTune
  simp only [paramRow, c24_val, cNeg24_val, cNeg1_val, c1_val] at p1 p2 dt mt
  have q1 : Within ((-24 : Int) : ℚ) ((24 : Int) : ℚ) (s.param .osc1Pitch) := cast p1 (by norm_num) (by norm_num)
  have q2 : Within ((-24 : Int) : ℚ) ((24 : Int) : ℚ) (s.param .osc2Pitch) := cast p2 (by norm_num) (by norm_num)
  have hh : Within (-1) 1 cHalf := ⟨cHalf_notNaN, by rw [cHalf_val]; norm_num, by rw [cHalf_val]; norm_num⟩
  have det : Within ((-1 : Int) : ℚ) ((1 : Int) : ℚ) ((s.param .osc2Detune).mul cHalf) :=
    cast (dt.mul_unit hh) (by norm_num) (by norm_num)
  have mt' : Within ((-1 : Int) : ℚ) ((1 : Int) : ℚ) (s.param .masterTune) := cast mt (by norm_num) (by norm_num)
  have w60 : Within ((60 : Int) : ℚ) ((60 : Int) : ℚ) c60 := ⟨c60_notNaN, by rw [c60_val]; norm_num, by rw [c60_val]; norm_num⟩
  have base : Within ((-1 : Int) : ℚ) ((128 : Int) : ℚ)
      (if s.switch .osc2Keytrack = true then v.gp else c60.add (s.param .masterTune)) :=
    within_ite gp ((w60.add mt').mono (by norm_num) (by norm_num))
  have sum : ∀ {b0 : F32} (c : Bool), Within ((-1 : Int) : ℚ) ((128 : Int) : ℚ) b0 →
      Within ((-62 : Int) : ℚ) ((189 : Int) : ℚ)
        ((((b0.add (s.bend.mul (s.param .bendRange))).add (if c = true then lm.mul c12 else c0)).add
          (((s.param .envPitchAmt).mul c24).mul fenv)).add (unisonOffset s v)) := by
    intro b0 c hb
    obtain ⟨m1, m2, m3⟩ := pitchMod_within h hf hm c
    have m1' : Within ((-24 : Int) : ℚ) ((24 : Int) : ℚ) _ := cast m1 (by norm_num) (by norm_num)
    have m2' : Within ((-24 : Int) : ℚ) ((24 : Int) : ℚ) _ := cast m2 (by norm_num) (by norm_num)
    have m3' : Within ((-12 : Int) : ℚ) ((12 : Int) : ℚ) _ := cast m3 (by norm_num) (by norm_num)
    exact (((hb.add m1').add m3').add m2').add uo
  constructor
  · exact (((sum (s.switch .lfoDestOsc1) gp).add q1)).mono (by norm_num) (by norm_num)
  · exact (((sum (s.switch .lfoDestOsc2) base).add q2).add det).mono (by norm_num) (by norm_num)

/-- The mix lies in [-1.0, 1.0] (R239). -/
theorem mixSources_within {s : State} (h : registersLegal s = true) {o1 o2 noise : F32} (h1 : Within (-1) 1 o1)
    (h2 : Within (-1) 1 o2) (h3 : Within (-1) 1 noise) : Within (-1) 1 (mixSources s o1 o2 noise) := by
  have m1 := param_within h .osc1Level
  have m2 := param_within h .osc2Level
  have mn := param_within h .noiseLevel
  simp only [paramRow, c0_val, c1_val] at m1 m2 mn
  have t : ∀ {m o : F32}, Within 0 1 m → Within (-1) 1 o → Within ((-1 : Int) : ℚ) ((1 : Int) : ℚ) (m.mul o) := fun a b =>
    ((a.mono (by norm_num) le_rfl : Within (-1) 1 _).mul_unit b).mono (by norm_num) (by norm_num)
  have sum := ((t m1 h1).add (t m2 h2)).add (t mn h3)
  have i1 : Within ((0 : Int) : ℚ) ((1 : Int) : ℚ) (s.param .osc1Level) := m1.mono (by norm_num) (by norm_num)
  have i2 : Within ((0 : Int) : ℚ) ((1 : Int) : ℚ) (s.param .osc2Level) := m2.mono (by norm_num) (by norm_num)
  have i3 : Within ((0 : Int) : ℚ) ((1 : Int) : ℚ) (s.param .noiseLevel) := mn.mono (by norm_num) (by norm_num)
  have den := (i1.add i2).add i3
  unfold mixSources
  dsimp only
  generalize (((s.param .osc1Level).mul o1).add ((s.param .osc2Level).mul o2)).add ((s.param .noiseLevel).mul noise) = x at sum
  generalize ((s.param .osc1Level).add (s.param .osc2Level)).add (s.param .noiseLevel) = y at den
  have hm : Within 1 3 (F32.fmax y c1) := by
    refine ⟨F32.fmax_notNaN den.1 c1_notNaN, ?_, ?_⟩ <;> rw [F32.fmax_val den.1 c1_notNaN, c1_val]
    · exact le_max_right _ _
    · exact max_le (by have := den.2.2; push_cast at this; linarith) (by norm_num)
  have hd := F32.div_rounds (sum.finite (by norm_num) (by norm_num)) (hm.finite (by norm_num) (by norm_num))
    (by linarith [hm.2.1])
  have := F32.within_of_clamp (lo := cNeg1) (hi := c1) hd.notNaN cNeg1_notNaN c1_notNaN (by rw [cNeg1_val, c1_val]; norm_num)
  rw [cNeg1_val, c1_val] at this
  exact this

end Sys2Proof.Machine
end

