-- ==== Sys2Proof/Tests/Slice0.lean ====
section
/-! SUPPORT. Tests: the ill-formed terms each check refuses, the decoding of words written out from the spec's encodings,
small checks of single commands against the spec's worked values, and one witness for the hypotheses of every statement. -/

namespace Sys2Proof.Tests

open Sys2Proof Sys2Proof.Machine

set_option Elab.async false

/-- The state a command leaves. -/
def after (i : Instr) (s : State) : State :=
  match exec i s with
  | .next t => t
  | .fault _ => s
  | .refused _ => s

/-- The state a step leaves. -/
def stepped (s : State) : State :=
  match step s with
  | .next t => t
  | .fault _ => s
  | .refused _ => s

/-! ### WellFormed refuses what no field can hold (30_encoding.md R101, R102, R104) -/

theorem test_illformed_noteOn : (Instr.noteOn 128 c1).wellFormed = false ∧ (Instr.noteOn (-129) c1).wellFormed = false := by decide
theorem test_illformed_noteOff : (Instr.noteOff 128).wellFormed = false ∧ (Instr.noteOff (-129)).wellFormed = false := by decide
theorem test_illformed_setParam : (Instr.setParam 256 c1).wellFormed = false := by decide
theorem test_illformed_getParam : (Instr.getParam 256).wellFormed = false := by decide
theorem test_illformed_render : (Instr.render 65536).wellFormed = false := by decide
theorem test_illformed_reserved0C : (Instr.reserved0C 0x0B).wellFormed = false ∧ (Instr.reserved0C 0x10).wellFormed = false := by decide
theorem test_illformed_reserved10 : (Instr.reserved10 0x0F).wellFormed = false ∧ (Instr.reserved10 0x20).wellFormed = false := by decide
theorem test_illformed_reserved20 : (Instr.reserved20 0x1F).wellFormed = false ∧ (Instr.reserved20 0x40).wellFormed = false := by decide
theorem test_illformed_reserved40 : (Instr.reserved40 0x3F).wellFormed = false ∧ (Instr.reserved40 0x80).wellFormed = false := by decide
theorem test_illformed_reserved80 : (Instr.reserved80 0x7F).wellFormed = false ∧ (Instr.reserved80 0x100).wellFormed = false := by decide
theorem test_partial_command_refused : decodeBytes [0#8, 0#8, 0#8, 1#8] = .error (.notOneCommand 4) := by decide

/-! ### Decoding: words written out from R100 to R104 (the unused fields filled with ones where R106 says they are ignored) -/

theorem test_decode_nop : decode 0x00FFFFFF#32 0xFFFFFFFF#32 = .nop := by decide
theorem test_decode_noteOn : decode 0x01FDFFFF#32 0x3F000000#32 = .noteOn (-3) ⟨0x3F000000#32⟩ := by decide
theorem test_decode_noteOff : decode 0x0280FFFF#32 0xFFFFFFFF#32 = .noteOff (-128) := by decide
theorem test_decode_allNotesOff : decode 0x03FFFFFF#32 0xFFFFFFFF#32 = .allNotesOff := by decide
theorem test_decode_allSoundOff : decode 0x04FFFFFF#32 0xFFFFFFFF#32 = .allSoundOff := by decide
theorem test_decode_sustain : decode 0x0500FFFE#32 0#32 = .sustain false ∧ decode 0x05FF0001#32 0#32 = .sustain true := by decide
theorem test_decode_pitchBend : decode 0x06FFFFFF#32 0xBF800000#32 = .pitchBend ⟨0xBF800000#32⟩ := by decide
theorem test_decode_modWheel : decode 0x07FFFFFF#32 0x3F800000#32 = .modWheel ⟨0x3F800000#32⟩ := by decide
theorem test_decode_setParam : decode 0x08FFFFFF#32 0x3F000000#32 = .setParam 255 ⟨0x3F000000#32⟩ := by decide
theorem test_decode_getParam : decode 0x0921FFFF#32 0xFFFFFFFF#32 = .getParam 0x21 := by decide
theorem test_decode_setSampleRate : decode 0x0AFFFFFF#32 0x473B8000#32 = .setSampleRate ⟨0x473B8000#32⟩ := by decide
theorem test_decode_render : decode 0x0BFF8001#32 0xFFFFFFFF#32 = .render 0x8001 := by decide
theorem test_decode_reserved0C : decode 0x0C000000#32 0#32 = .reserved0C 0x0C ∧ decode 0x0FFFFFFF#32 0#32 = .reserved0C 0x0F := by decide
theorem test_decode_reserved10 : decode 0x10000000#32 0#32 = .reserved10 0x10 ∧ decode 0x1FFFFFFF#32 0#32 = .reserved10 0x1F := by decide
theorem test_decode_reserved20 : decode 0x20000000#32 0#32 = .reserved20 0x20 ∧ decode 0x3FFFFFFF#32 0#32 = .reserved20 0x3F := by decide
theorem test_decode_reserved40 : decode 0x40000000#32 0#32 = .reserved40 0x40 ∧ decode 0x7FFFFFFF#32 0#32 = .reserved40 0x7F := by decide
theorem test_decode_reserved80 : decode 0x80000000#32 0#32 = .reserved80 0x80 ∧ decode 0xFF123456#32 0#32 = .reserved80 0xFF := by decide
theorem test_decode_table_word : decodeTableWord 64 0x3F800000013C0000 = some (.noteOn 60 c1) := by decide +kernel
theorem test_decode_bytes_little_endian :
    decodeBytes [0x00#8, 0x00#8, 0x3C#8, 0x01#8, 0x00#8, 0x00#8, 0x80#8, 0x3F#8] = .ok (.noteOn 60 c1) := by decide

/-- R83: the sample -3 as a transport carries it. -/
theorem test_sample_bytes : sampleBytes (.s16 (BitVec.ofInt 16 (-3))) = [0xFD#8, 0xFF#8] := by decide

/-! ### Commands, one each, against the examples of the spec -/

/-- A voice as NOTE_ON 60, 1.0 leaves it (R270). -/
def heldVoice : Voice :=
  { Voice.reset with
    assigned := true, key := 60, note := 60, vel := c1, gate := .held, age := 1#32
    gp := c60, gfrom := c60, gto := c60, gvalid := true, amp := ⟨.attack, c0⟩, flt := ⟨.attack, c0⟩ }

/-- The state after NOTE_ON 60, 1.0 from reset. -/
def demo : State := { State.reset.setVoice 0 heldVoice with age := 1#32 }

/-- R270, example: from reset, NOTE_ON 60, 1.0. -/
theorem test_noteOn_from_reset : after (.noteOn 60 c1) State.reset = demo := by decide +kernel
/-- R273 step 1: the same key again re-uses voice 0, with the next age. -/
theorem test_noteOn_same_key : ((after (.noteOn 60 c1) demo).voices[0]?.map (·.age) = some 2#32) ∧
    ((after (.noteOn 60 c1) demo).voices[1]? = some Voice.reset) := by decide +kernel
/-- R276, example: NOTE_OFF 60 releases it. -/
theorem test_noteOff : ((after (.noteOff 60) demo).voices[0]?.map fun v => (v.gate, v.amp.stage)) = some (.released, .release) := by
  decide +kernel
/-- R276: with the pedal down it is sustained and its envelope goes on. -/
theorem test_noteOff_pedal : ((after (.noteOff 60) { demo with pedal := true }).voices[0]?.map fun v => (v.gate, v.amp.stage)) =
    some (.sustained, .attack) := by decide +kernel
/-- R278: a sustained voice is released, the pedal stays. -/
theorem test_allNotesOff :
    let s := { demo.setVoice 0 { heldVoice with gate := .sustained } with pedal := true }
    ((after .allNotesOff s).voices[0]?.map fun v => (v.gate, v.amp.stage)) = some (.released, .release) ∧
      (after .allNotesOff s).pedal = true := by decide +kernel
/-- R279: voices reset, `AGE` kept. -/
theorem test_allSoundOff : after .allSoundOff demo = { State.reset with age := 1#32 } := by decide +kernel
/-- R277, example: lifting the pedal releases a sustained voice and leaves a held one. -/
theorem test_sustain_lift :
    let s := (demo.setVoice 0 { heldVoice with gate := .sustained }).setVoice 1 heldVoice
    ((after (.sustain false) { s with pedal := true }).voices.map (·.gate)).take 2 = [.released, .held] := by decide +kernel
theorem test_sustain_press : after (.sustain true) demo = { demo with pedal := true } := by decide +kernel
/-- R345: PITCH_BEND -0.0 is stored as +0.0. -/
theorem test_pitchBend_negZero : (after (.pitchBend ⟨0x80000000#32⟩) { State.reset with bend := c1 }).bend = c0 := by decide +kernel
/-- R346: a value above 1.0 stores 1.0. -/
theorem test_modWheel_above : (after (.modWheel c2) State.reset).wheel = c1 := by decide +kernel
/-- R350: FILTER_MODE 2.6 gives 3.0, TRANSPOSE -24.5 gives -24.0. -/
theorem test_setParam_quantized : (after (.setParam 0x24 ⟨0x40266666#32⟩) State.reset).param .filterMode = ⟨0x40400000#32⟩ ∧
    (after (.setParam 0x02 ⟨0xC1C40000#32⟩) State.reset).param .transpose = ⟨0xC1C00000#32⟩ := by decide +kernel
/-- R341: a signalling NaN operand stops the command, `AGE` too. -/
theorem test_nan_operand : after (.noteOn 60 ⟨0xFFA00001#32⟩) State.reset = State.reset := by decide +kernel
/-- R344: RESONANCE after reset; an undefined id gives 0. -/
theorem test_getParam : (after (.getParam 0x21) State.reset).rdata = 0x3E4CCCCD#32 ∧
    (after (.getParam 0x0B) { State.reset with rdata := 7#32 }).rdata = 0#32 := by decide +kernel
/-- R347: SET_SAMPLE_RATE minus infinity gives 8000.0. -/
theorem test_setSampleRate : (after (.setSampleRate ⟨0xFF800000#32⟩) State.reset).fs = c8000 := by decide +kernel
/-- R310, example: RENDER 2 from reset. -/
theorem test_render_silent : (after (.render 2) State.reset).out = List.replicate 4 (.s16 0#16) ∧
    (after (.render 2) State.reset).rng = 0x5E8885DB#32 := by decide +kernel
/-- R270, example: frames 0 and 1 after NOTE_ON 60, 1.0. -/
theorem test_render_note : (after (.render 2) demo).out =
    [.s16 0#16, .s16 0#16, .s16 (BitVec.ofInt 16 (-3)), .s16 (BitVec.ofInt 16 (-3))] := by decide +kernel
theorem test_nop : after .nop demo = demo := by decide +kernel
theorem test_reserved : after (.reserved0C 0x0C) demo = demo ∧ after (.reserved10 0x10) demo = demo ∧
    after (.reserved20 0x20) demo = demo ∧ after (.reserved40 0x40) demo = demo ∧ after (.reserved80 0xFF) demo = demo := by
  decide +kernel
/-- The host's presentation of a table word runs it as the next step. -/
theorem test_withFetchWord : stepped (State.reset.withFetchWord 64 0x3F800000013C0000) = demo := by decide +kernel
/-- R171, R172, table: `ENV_TIME(0.25)`, `COEF_ATT(0.25)` and `COEF_DR(0.5)` at 44100.0. -/
theorem test_envelope_coefficients : envTime .correctlyRounded cQuarter = ⟨0x3C23D70A#32⟩ ∧
    coefAtt .correctlyRounded ⟨0x472C4400#32⟩ cQuarter = ⟨0x3B230F00#32⟩ ∧
    coefDr .correctlyRounded ⟨0x472C4400#32⟩ cHalf = ⟨0x3B08BB00#32⟩ := by decide +kernel
/-- R183: the first two ticks of the attack. -/
theorem test_envelope_attack :
    envAdvance .correctlyRounded ⟨0x472C4400#32⟩ ⟨.attack, c0⟩ cQuarter cHalf cReset0_7 cHalf = ⟨.attack, ⟨0x3B749680#32⟩⟩ ∧
    envAdvance .correctlyRounded ⟨0x472C4400#32⟩ ⟨.attack, ⟨0x3B749680#32⟩⟩ cQuarter cHalf cReset0_7 cHalf =
      ⟨.attack, ⟨0x3BF4489B#32⟩⟩ := by decide +kernel
/-- R210: cutoff 0.5 and cutoff 1.0 (clamped) at 44100.0. -/
theorem test_filter_coefficients :
    (let s := State.reset.setParamReg .cutoff cHalf
     cutoffHz s c0 c60 c0 = ⟨0x441E1D26#32⟩ ∧ filterG s (cutoffHz s c0 c60 c0) = ⟨0x3D38AB65#32⟩) ∧
    (let s := State.reset.setParamReg .cutoff c1
     cutoffHz s c0 c60 c0 = ⟨0x469B0A00#32⟩ ∧ filterG s (cutoffHz s c0 c60 c0) = ⟨0x40CA0A3F#32⟩) := by decide +kernel
/-- R236 and R246: the phase increment of note 60; the offsets of four copies at full detune. -/
theorem test_pitch_and_unison : pitchDt State.reset c60 = ⟨0x3BC265DB#32⟩ ∧
    ((List.range 4).map fun c => unisonOffset (State.reset.setParamReg .unisonDetune c1) { heldVoice with copy := c, uniN := 4 }) =
      [⟨0xBF000000#32⟩, ⟨0xBE2AAAAA#32⟩, ⟨0x3E2AAAAC#32⟩, ⟨0x3F000000#32⟩] := by decide +kernel

/-! ### Witnesses: for every statement with hypotheses, values that meet them all -/

/-- A RENDER of three frames that waits for the host, with some samples out. -/
def waiting (host : List HostEvent) : State :=
  { demo with remain := 3#16, hostTakes := some 0, host := host, out := [.s16 1#16, .s16 1#16] }

theorem witness_DecodeEncodeAgree :
    (Instr.noteOn (-128) c1).wellFormed = true ∧ (Instr.noteOn 127 c1).wellFormed = true ∧
    (Instr.setParam 255 c1).wellFormed = true ∧ (Instr.getParam 0).wellFormed = true ∧ (Instr.render 65535).wellFormed = true ∧
    (Instr.reserved0C 0x0F).wellFormed = true ∧ (Instr.reserved80 0xFF).wellFormed = true := by decide

/-- One word for each clause, at the ends of the clause's range. -/
theorem witness_OpcodeSelectsRow :
    ([0x00FFFFFF#32, 0x01800000#32, 0x027F0000#32, 0x03000000#32, 0x04000000#32, 0x0500FFFF#32, 0x06000000#32, 0x07000000#32,
      0x08FF0000#32, 0x09000000#32, 0x0A000000#32, 0x0B00FFFF#32, 0x0C000000#32, 0x0FFFFFFF#32, 0x10000000#32, 0x1FFFFFFF#32,
      0x20000000#32, 0x3FFFFFFF#32, 0x40000000#32, 0x7FFFFFFF#32, 0x80000000#32, 0xFFFFFFFF#32].map fun w : Word => w.toNat / 2 ^ 24) =
    [0, 1, 2, 3, 4, 5, 6, 7, 8, 9, 0x0A, 0x0B, 0x0C, 0x0F, 0x10, 0x1F, 0x20, 0x3F, 0x40, 0x7F, 0x80, 0xFF] := by decide

theorem witness_UnusedFieldsAreIgnored :
    (0x0500FFFE#32 : Word).toNat / 2 ^ 24 = 5 ∧ (0x05AA0000#32 : Word).toNat / 2 ^ 24 = 5 ∧
    (0x0500FFFE#32 : Word).toNat % 2 = (0x05AA0000#32 : Word).toNat % 2 ∧ (0x0500FFFE#32 : Word) ≠ 0x05AA0000#32 ∧
    (Instr.sustain true).wellFormed = true ∧ (encode (.sustain true)).1.toNat / 2 ^ 24 = 5 := by decide

theorem witness_TransportByteOrder : ([] : List Byte).length ≠ 8 ∧ (Instr.noteOff (-128)).wellFormed = true := by decide

theorem witness_StepRunsDecodedCommand :
    { demo with host := [.command 0x023C0000#32 0#32] }.remain = 0#16 ∧
    { demo with host := [.command 0x023C0000#32 0#32] }.host = .command 0x023C0000#32 0#32 :: [] ∧
    (Instr.noteOff 60).wellFormed = true := ⟨rfl, rfl, rfl⟩

theorem witness_ResetValues : { demo with host := [.reset] }.remain = 0#16 ∧ { demo with host := [.reset] }.host = .reset :: [] :=
  ⟨rfl, rfl⟩

theorem witness_ConstructionAndSamplesSurvive :
    { waiting [.reset] with remain := 0#16 }.remain = 0#16 ∧ { waiting [.reset] with remain := 0#16 }.host = .reset :: [] ∧
    (waiting [.reset]).out ≠ [] := by decide +kernel

theorem witness_WaitingRenderTakesOnlyReset :
    (waiting []).remain ≠ 0#16 ∧ (waiting []).hostTakes = some 0 ∧ (waiting []).host = [] ∧
    (waiting [.command 0#32 0#32]).host = .command 0#32 0#32 :: [] ∧ (waiting [.reset]).host = .reset :: [] ∧
    (waiting [.takes (some 1)]).host = .takes (some 1) :: [] ∧
    demo.remain = 0#16 ∧ demo.host = [] ∧ { demo with host := [.takes none] }.host = .takes none :: [] := by decide +kernel

theorem witness_BackPressureIsTransparent : (65535 : Nat) ≤ 65535 ∧ (0 : Nat) < 65535 ∧ (65534 : Nat) < 65535 ∧
    (65535 : Nat) ≤ 65536 ∧ (0 : Nat) ≤ 0 := by decide

theorem witness_RenderRunsItsTicks : (65535 : Nat) ≤ 65535 ∧ demo.hostTakes = none ∧ demo.remain = 0#16 ∧ 65534 + 1 = 65535 :=
  ⟨le_rfl, rfl, rfl, rfl⟩

theorem witness_TickFrame : demo.voices[0]? = some heldVoice := by decide +kernel

theorem witness_TickRendersActiveVoices :
    demo.voices[0]? = some heldVoice ∧ heldVoice.amp.stage ≠ .idle ∧
    demo.voices[7]? = some Voice.reset ∧ Voice.reset.amp.stage = .idle := by decide +kernel

theorem witness_GlobalLfoRuns : (demo.setParamReg .lfoSync c1).paramInt .lfoSync = 1 ∧ demo.paramInt .lfoSync ≠ 1 ∧
    (demo.setParamReg .lfoSync c1).voices[0]? = some heldVoice := by decide +kernel

theorem witness_SilentWithoutActiveVoices : registersLegal { demo with voices := State.reset.voices } = true ∧
    (∀ v ∈ { demo with voices := State.reset.voices }.voices, v.amp.stage = .idle) := by decide +kernel

theorem witness_SampleConversion : F32.within ⟨0xBF800000#32⟩ ⟨0x3F800000#32⟩ ⟨0xBF800000#32⟩ = true ∧
    F32.within ⟨0xBF800000#32⟩ ⟨0x3F800000#32⟩ ⟨0x80000001#32⟩ = true ∧
    F32.within ⟨0xBF800000#32⟩ ⟨0x3F800000#32⟩ ⟨0x3F800000#32⟩ = true ∧ c2.isNaN = false ∧
    (⟨0xFF800000#32⟩ : F32).isNaN = false := by decide +kernel

theorem witness_ArithmeticRoundsToNearest : c1.isFinite = true ∧ cFiltLim.isFinite = true ∧
    |c1.val + cFiltLim.val| < 2 ^ 128 - 2 ^ 103 ∧ |c1.val - cFiltLim.val| < 2 ^ 128 - 2 ^ 103 ∧
    |c1.val * cFiltLim.val| < 2 ^ 128 - 2 ^ 103 ∧ cFiltLim.val ≠ 0 ∧ |c1.val / cFiltLim.val| < 2 ^ 128 - 2 ^ 103 := by
  refine ⟨by decide +kernel, by decide +kernel, ?_⟩
  rw [c1_val, cFiltLim_val]
  norm_num [abs_of_pos, abs_of_neg]

theorem witness_Exp2ExactAtIntegers : (-149 : Int) ≤ -149 ∧ (-149 : Int) ≤ 127 ∧ (-149 : Int) ≤ 127 ∧ (127 : Int) ≤ 127 := by decide

/-- Legal phase, increment and width, at the ends of their ranges (the largest binary32 below 1.0 among them). -/
theorem witness_OscillatorPhase : phaseLegal c0 = true ∧ phaseLegal ⟨0x3F7FFFFF#32⟩ = true ∧
    F32.within cDtMin cDtMax cDtMin = true ∧ F32.within cDtMin cDtMax cDtMax = true := by decide +kernel

theorem witness_OscillatorEvents : phaseLegal ⟨0x3F7FFFFF#32⟩ = true ∧ F32.within cDtMin cDtMax cDtMax = true ∧
    F32.within cPwMin cPwMax cPwMin = true ∧ F32.within cPwMin cPwMax cPwMax = true ∧
    F32.within c0 c1 c0 = true ∧ F32.within c0 c1 c1 = true ∧
    (freePath ⟨⟨0x3F7FFFFF#32⟩, c0⟩ cDtMax .pulse cPwMin).md.isSome = true ∧
    (freePath ⟨⟨0x3F7FFFFF#32⟩, c0⟩ cDtMax .pulse cPwMin).events.length = 2 := by decide +kernel

theorem witness_OscillatorOutputBounded : phaseLegal ⟨0x3F7FFFFF#32⟩ = true ∧ F32.within (c0.sub c8) c8 (c0.sub c8) = true ∧
    F32.within cDtMin cDtMax cDtMax = true ∧ F32.within cPwMin cPwMax cPwMin = true ∧
    (∀ d, some cHalf = some d → F32.within c0 c1 d = true) := by
  refine ⟨by decide +kernel, by decide +kernel, by decide +kernel, by decide +kernel, ?_⟩
  rintro d ⟨⟩
  decide +kernel

/-- Each pair of opposite conditions of the envelope's tick occurs. -/
theorem witness_EnvelopeStages :
    F32.le ⟨0x3F800000#32⟩ (c1.add (((⟨0x3FC00000#32⟩ : F32).sub c1).mul (coefAtt .correctlyRounded c8000 c0))) = true ∧
    F32.le ⟨0x3F800000#32⟩ (c0.add (((⟨0x3FC00000#32⟩ : F32).sub c0).mul (coefAtt .correctlyRounded c8000 c0))) = false ∧
    F32.le ((c0.add ((c1.sub c0).mul (coefDr .correctlyRounded c8000 c0))).sub c1) ⟨0x38D1B717#32⟩ = true ∧
    F32.le ((c1.add ((c0.sub c1).mul (coefDr .correctlyRounded c8000 c0))).sub c0) ⟨0x38D1B717#32⟩ = false ∧
    F32.eq (c1.add ((c0.sub c1).mul (coefDr .correctlyRounded c8000 c0))) c1 = false ∧
    F32.le (c0.sub (c0.mul (coefDr .correctlyRounded c8000 c0))) ⟨0x38D1B717#32⟩ = true ∧
    F32.le (c1.sub (c1.mul (coefDr .correctlyRounded c8000 c0))) ⟨0x38D1B717#32⟩ = false := by decide +kernel

theorem witness_EnvelopeBoundedAndMonotone : LibOk .correctlyRounded ∧
    F32.within c8000 c192000 c8000 = true ∧ F32.within c0 c1 c1 = true ∧ F32.within c0 c1 c0 = true ∧ c0.val ≤ c1.val :=
  ⟨libOk_correctlyRounded, by decide +kernel, by decide +kernel, by decide +kernel, by rw [c0_val, c1_val]; norm_num⟩

theorem witness_FilterCoefficientRanges : LibOk demo.cfg.lib ∧ registersLegal demo = true ∧ F32.within c0 c1 c1 = true ∧
    pitchLegal ⟨0x43000000#32⟩ = true ∧ F32.within cNeg1 c1 cNeg1 = true ∧ demo.paramInt .selfOsc = 0 ∧
    registersLegal (demo.setParamReg .selfOsc c1) = true ∧ (demo.setParamReg .selfOsc c1).paramInt .selfOsc = 1 :=
  ⟨libOk_correctlyRounded, by decide +kernel⟩

theorem witness_FilterBounded : c8.isNaN = false ∧ 0 ≤ c8.val ∧ c8.val ≤ 8 ∧
    (⟨0xBD23D700#32⟩ : F32).isNaN = false ∧ -1 / 20 ≤ (⟨0xBD23D700#32⟩ : F32).val ∧ (⟨0xBD23D700#32⟩ : F32).val ≤ 2 ∧
    filtLegal cFiltLim = true ∧ filtLegal (c0.sub cFiltLim) = true ∧ F32.within cNeg1 c1 cNeg1 = true := by
  have hk : (⟨0xBD23D700#32⟩ : F32).units = -(2 ^ 121 * 0xA3D700) := by decide +kernel
  refine ⟨by decide +kernel, by rw [c8_val]; norm_num, by rw [c8_val], by decide +kernel, ?_, ?_,
    by decide +kernel, by decide +kernel, by decide +kernel⟩ <;> (rw [F32.val, hk]; norm_num)

/-- A two-pole mode, for the last clause. -/
theorem witness_FilterExamples : (2 : Int) < 3 ∧ (0 : Int) < 3 := by decide

theorem witness_TriggerWritesVoice :
    Voice.reset.gvalid = false ∧ heldVoice.gvalid = true ∧
    F32.eq (portaTime demo) ⟨0x00000000#32⟩ = true ∧ F32.eq (portaTime (demo.setParamReg .portamento cHalf)) ⟨0x00000000#32⟩ = false ∧
    (demo.setParamReg .oscReset c1).paramInt .oscReset = 1 ∧ demo.paramInt .oscReset ≠ 1 := by decide +kernel

theorem witness_GlideNeverPassesTarget : LibOk demo.cfg.lib ∧ registersLegal demo = true ∧
    pitchLegal c60 = true ∧ pitchLegal c69 = true ∧ pitchLegal cNeg1 = true ∧ heldVoice.gn < 2 ^ 22 ∧
    F32.eq c60 c69 = false ∧ F32.eq c60 c60 = true ∧ F32.eq (demo.param .portamento) c0 = true :=
  ⟨libOk_correctlyRounded, by decide +kernel, by decide +kernel, by decide +kernel, by decide +kernel, by decide +kernel,
    by decide +kernel, by decide +kernel, by decide +kernel⟩

theorem witness_ModulatedPitchAndWidthBounded : LibOk demo.cfg.lib ∧ registersLegal demo = true ∧ pitchLegal heldVoice.gp = true ∧
    F32.within c0 c1 c1 = true ∧ F32.within cNeg1 c1 c1 = true ∧ heldVoice.copy < heldVoice.uniN ∧ heldVoice.uniN ≤ 32 :=
  ⟨libOk_correctlyRounded, by decide +kernel, by decide +kernel, by decide +kernel, by decide +kernel, by decide +kernel,
    by decide +kernel⟩

theorem witness_LfoAdvances : LibOk demo.cfg.lib ∧ registersLegal demo = true ∧ lfoLegal ⟨⟨0x3F7FFFFF#32⟩, cNeg1⟩ = true ∧
    F32.le cNeg1 cNeg1 = true ∧ F32.lt cNeg1 c1 = true :=
  ⟨libOk_correctlyRounded, by decide +kernel, by decide +kernel, by decide +kernel, by decide +kernel⟩

/-- Each of the four steps of the allocation decides somewhere, and it fails only with no candidate. -/
theorem witness_AllocationOrder :
    allocate demo 60 0 8 [] = some (heldVoice, 0) ∧ allocate demo 62 0 8 [] = some (Voice.reset, 1) ∧
    allocate (demo.setVoice 0 (voiceRelease heldVoice)) 62 0 1 [] = some (voiceRelease heldVoice, 0) ∧
    allocate demo 62 0 1 [] = some (heldVoice, 0) ∧ allocate demo 62 0 1 [0] = none := by decide +kernel

theorem witness_NoteOnTriggersDistinctVoices : registersLegal demo = true ∧ voicesLegal demo = true ∧ c1.isNaN = false := by
  decide +kernel

theorem witness_NoteOffReleasesOrSustains :
    demo.voices[0]? = some heldVoice ∧ (heldVoice.assigned = true ∧ heldVoice.key = 60 ∧ heldVoice.gate = .held) ∧
    demo.pedal = false ∧ { demo with pedal := true }.pedal = true ∧ ¬(heldVoice.key = 61) := by decide +kernel

theorem witness_SustainPedal : (demo.setVoice 0 { heldVoice with gate := .sustained }).voices[0]? =
      some { heldVoice with gate := .sustained } ∧ demo.voices[0]? = some heldVoice ∧ heldVoice.gate ≠ .sustained := by
  decide +kernel

theorem witness_AllNotesOffReleasesAll : demo.voices[0]? = some heldVoice ∧ heldVoice.gate = .held ∧
    demo.voices[1]? = some Voice.reset ∧ Voice.reset.gate = .released := by decide +kernel

theorem witness_AllSoundOffSilences : registersLegal demo = true ∧
    (∀ i ∈ [Instr.render 2, .setParam 0x20 c1, .noteOff 60], ∀ key x, i ≠ .noteOn key x) :=
  ⟨by decide +kernel, by intro i hi key x; simp only [List.mem_cons, List.not_mem_nil, or_false] at hi; rcases hi with rfl | rfl | rfl <;> simp⟩

theorem witness_NoStuckNotes : demo.pedal = false ∧ heldVoice ∈ demo.voices ∧
    (heldVoice.assigned = true ∧ heldVoice.key = 60 ∧ heldVoice.gate = .held) ∧
    (∃ v ∈ (after (.noteOff 60) demo).voices, v.assigned = true ∧ v.key = 60) := by decide +kernel

theorem witness_OnlyNoteOnHolds : (∀ key x, Instr.render 1 ≠ .noteOn key x) ∧
    (after (.noteOff 61) demo).voices[0]? = some heldVoice ∧ heldVoice.gate = .held :=
  ⟨fun _ _ h => (nomatch h), by decide +kernel, rfl⟩

theorem witness_EventParametersDoNotSound : Param.legato = .voiceCount ∨ Param.legato = .unisonCount ∨
    Param.legato = .transpose ∨ Param.legato = .legato := by decide

theorem witness_VoicesAreIndependent : (0 : Nat) ≠ 1 := by decide

theorem witness_NopAndReservedChangeNothing : (0x00FFFFFF#32 : Word).toNat / 2 ^ 24 = 0x00 ∧
    0x0C ≤ (0x0C000000#32 : Word).toNat / 2 ^ 24 ∧ 0x0C ≤ (0xFFFFFFFF#32 : Word).toNat / 2 ^ 24 := by decide

theorem witness_NaNOperandHasNoEffect : (⟨0x7F800001#32⟩ : F32).isNaN = true ∧ (⟨0xFFFFFFFF#32⟩ : F32).isNaN = true ∧
    paramOfId 0x0B = none ∧ paramOfId 0x48 = none := by decide +kernel

theorem witness_ParameterTable : paramOfId 0x00 = some .masterVolume ∧ paramOfId 0x47 = some .lfoDestPw := by decide

theorem witness_SetParamStoresClamped : constructionLegal demo.cfg = true ∧ paramOfId 0x20 = some .cutoff ∧
    paramOfId 0x03 = some .voiceCount ∧ c2.isNaN = false ∧ (demo.row .cutoff).kind = .continuous ∧
    (demo.row .voiceCount).kind = .discrete ∧ Param.cutoff ≠ .voiceCount := by decide +kernel

theorem witness_GetParamReadsRegister : paramOfId 0x47 = some .lfoDestPw ∧ paramOfId 0x48 = none ∧ c1.isNaN = false := by
  decide +kernel

theorem witness_ControllersStoreClamped : c2.isNaN = false ∧ (⟨0x7FC00000#32⟩ : F32).isNaN = true := by decide +kernel

theorem witness_SampleRateStoresClamped : c8000.isNaN = false ∧ (⟨0xFF800001#32⟩ : F32).isNaN = true := by decide +kernel

theorem witness_RegistersHaveOneWriter : (∀ x, Instr.nop ≠ .setSampleRate x) ∧ (∀ d, Instr.nop ≠ .sustain d) ∧
    (∀ x, Instr.nop ≠ .pitchBend x) ∧ (∀ x, Instr.nop ≠ .modWheel x) ∧ (∀ k x, Instr.nop ≠ .noteOn k x) ∧
    (∀ k, Instr.nop ≠ .getParam k) ∧ (∀ k x, Instr.nop ≠ .setParam k x) ∧ (∀ n, Instr.nop ≠ .render n) := by
  refine ⟨?_, ?_, ?_, ?_, ?_, ?_, ?_, ?_⟩ <;> intros <;> simp

theorem witness_OnlyRenderEmits : ∀ n, Instr.allSoundOff ≠ .render n := fun _ h => nomatch h

theorem witness_RegistersStayLegal : registersLegal (waiting [.reset]) = true := by decide +kernel

theorem witness_VoicesStayLegal : registersLegal demo = true ∧ voicesLegal demo = true := by decide +kernel

theorem witness_DatapathStaysBounded : LibOk demo.cfg.lib ∧ stateLegal demo = true := ⟨libOk_correctlyRounded, by decide +kernel⟩

theorem witness_InvariantsHoldAtReset : constructionLegal ⟨32, c192000, .f32, 0#32, .other 0⟩ = true ∧
    constructionLegal ⟨1, c8000, .s16, 7#32, .correctlyRounded⟩ = true := by decide +kernel

end Sys2Proof.Tests
end

section
/-! PROOFS of the statements about arithmetic and the construction functions (00_scope.md R9, R10). -/

namespace Sys2Proof

/-! ### Nearest values -/

/-- Of two bounds `a ≤ v ≤ b` with no binary32 strictly between them, the nearer one is the nearest value of
all, on a tie when its significand is even. -/
theorem F32.nearest_of_gap {v a b : ℚ} {x : F32} (hx : x.isFinite = true)
    (hgap : ∀ y : F32, y.val ≤ a ∨ b ≤ y.val) (hav : a ≤ v) (hvb : v ≤ b)
    (h : (x.val = a ∧ (2 * v < a + b ∨ 2 * v = a + b ∧ x.mag % 2 = 0)) ∨
      (x.val = b ∧ (a + b < 2 * v ∨ 2 * v = a + b ∧ x.mag % 2 = 0))) : F32.nearest v x := by
  refine ⟨hx, fun y _ => ?_⟩
  have hy : (y.val ≤ a ∧ |y.val - v| = v - y.val) ∨ (b ≤ y.val ∧ |y.val - v| = y.val - v) :=
    (hgap y).imp (fun hya => ⟨hya, by rw [abs_of_nonpos (by linarith)]; ring⟩)
      (fun hby => ⟨hby, abs_of_nonneg (by linarith)⟩)
  rcases h with ⟨hxa, hnear⟩ | ⟨hxb, hnear⟩
  · have hd : |x.val - v| = v - a := by rw [hxa, abs_of_nonpos (by linarith)]; ring
    rw [hd, hxa]
    rcases hy with ⟨hya, hdy⟩ | ⟨hby, hdy⟩ <;> rw [hdy]
    · exact ⟨by linarith, fun heq => .inl (by linarith)⟩
    · rcases hnear with hlt | ⟨htie, heven⟩
      · exact ⟨by linarith, fun heq => by linarith⟩
      · exact ⟨by linarith, fun _ => .inr heven⟩
  · have hd : |x.val - v| = b - v := by rw [hxb, abs_of_nonneg (by linarith)]
    rw [hd, hxb]
    rcases hy with ⟨hya, hdy⟩ | ⟨hby, hdy⟩ <;> rw [hdy]
    · rcases hnear with hlt | ⟨htie, heven⟩
      · exact ⟨by linarith, fun heq => by linarith⟩
      · exact ⟨by linarith, fun _ => .inr heven⟩
    · exact ⟨by linarith, fun heq => .inl (by linarith)⟩

/-- No binary32 lies strictly between the values of two successive encodings. -/
theorem F32.val_gap (k : Nat) (y : F32) :
    y.val ≤ (F32.unitsOfMag k : ℚ) / 2 ^ 149 ∨ (F32.unitsOfMag (k + 1) : ℚ) / 2 ^ 149 ≤ y.val := by
  have hk : (0 : ℚ) ≤ (F32.unitsOfMag k : ℚ) / 2 ^ 149 := by positivity
  have hy : (0 : ℚ) ≤ (F32.unitsOfMag y.mag : ℚ) / 2 ^ 149 := by positivity
  rw [F32.val_eq y]
  cases y.sign
  · simp only [Bool.false_eq_true, if_false, one_mul]
    rcases Nat.lt_or_ge k y.mag with h | h
    · right
      have := F32.unitsOfMag_le.mpr (Nat.succ_le_of_lt h)
      gcongr
    · left
      have := F32.unitsOfMag_le.mpr h
      gcongr
  · left
    simp only [if_true]
    linarith

/-- Negation carries a nearest value to a nearest value. -/
theorem F32.nearest_neg {v : ℚ} {x : F32} (h : F32.nearest v x) : F32.nearest (-v) x.neg := by
  obtain ⟨hfin, hbest⟩ := h
  refine ⟨by rwa [F32.isFinite_neg], fun y hy => ?_⟩
  obtain ⟨hle, htie⟩ := hbest y.neg (by rwa [F32.isFinite_neg])
  have hdist : |y.neg.val - v| = |y.val - -v| := by
    rw [F32.val_neg, ← abs_neg]; congr 1; ring
  have hdistx : |x.neg.val - -v| = |x.val - v| := by
    rw [F32.val_neg, ← abs_neg]; congr 1; ring
  rw [hdist] at hle htie
  rw [hdistx, F32.mag_neg, F32.val_neg]
  refine ⟨hle, fun heq => (htie heq).imp_left fun hv => ?_⟩
  rw [F32.val_neg] at hv
  linarith

/-! ### Rounding gives the nearest value -/

/-- The overflow threshold of R9: halfway between the largest finite binary32 and 2^128. -/
theorem F32.unitsOfMag_overflow :
    F32.unitsOfMag (F32.infMag - 1) + F32.unitsOfMag F32.infMag = 2 * ((2 ^ 128 - 2 ^ 103) * 2 ^ 149) := by
  decide +kernel

/-- Below the overflow threshold `roundMag` never reaches infinity: it is the nearer of two successive encodings, and on
a tie the even one. -/
theorem F32.roundMag_finite_cases (num den : Nat) (hden : 0 < den) (h : num < (2 ^ 128 - 2 ^ 103) * 2 ^ 149 * den) :
    ∃ k, F32.unitsOfMag k * den ≤ num ∧ num ≤ F32.unitsOfMag (k + 1) * den ∧ F32.roundMag num den < F32.infMag ∧
      ((F32.roundMag num den = k ∧
          (2 * num < (F32.unitsOfMag k + F32.unitsOfMag (k + 1)) * den ∨
            (2 * num = (F32.unitsOfMag k + F32.unitsOfMag (k + 1)) * den ∧ F32.roundMag num den % 2 = 0))) ∨
       (F32.roundMag num den = k + 1 ∧
          ((F32.unitsOfMag k + F32.unitsOfMag (k + 1)) * den < 2 * num ∨
            (2 * num = (F32.unitsOfMag k + F32.unitsOfMag (k + 1)) * den ∧ F32.roundMag num den % 2 = 0)))) := by
  obtain ⟨k, hlo, hhi, hcase⟩ := F32.roundMag_spec num den hden
  have hbelow : ∀ i j, (F32.unitsOfMag i + F32.unitsOfMag j) * den ≤ 2 * num →
      ¬(F32.infMag - 1 ≤ i ∧ F32.infMag ≤ j) := by
    rintro i j hle ⟨hi, hj⟩
    have hge := Nat.mul_le_mul_right den (Nat.add_le_add (F32.unitsOfMag_le.mpr hi) (F32.unitsOfMag_le.mpr hj))
    rw [F32.unitsOfMag_overflow] at hge
    linarith
  refine ⟨k, hlo, hhi.le, ?_⟩
  rcases hcase with ⟨hr, hdown⟩ | ⟨hr, hup⟩
  · have hk : k < F32.infMag := by
      by_contra hge
      exact hbelow k k (by linarith) ⟨by omega, not_lt.mp hge⟩
    rw [min_eq_left hk.le] at hr
    rw [hr]
    exact ⟨hk, .inl ⟨rfl, hdown⟩⟩
  · have hk : k + 1 < F32.infMag := by
      by_contra hge
      exact hbelow k (k + 1) (hup.elim le_of_lt fun htie => htie.1.ge) ⟨by omega, not_lt.mp hge⟩
    rw [min_eq_left hk.le] at hr
    rw [hr]
    exact ⟨hk, .inr ⟨rfl, hup.imp_right (And.imp_right fun hodd => by omega)⟩⟩

/-- Rounding a magnitude below the overflow threshold gives the nearest binary32, ties to even. -/
theorem F32.round_false_nearest (num den : Nat) (hden : 0 < den)
    (h : (num : ℚ) / den / 2 ^ 149 < 2 ^ 128 - 2 ^ 103) :
    F32.nearest ((num : ℚ) / den / 2 ^ 149) (F32.round false num den) := by
  have hd : (0 : ℚ) < den := by exact_mod_cast hden
  have hc : (0 : ℚ) < 2 ^ 149 * den := by positivity
  have hnum : (num : ℚ) = num / den / 2 ^ 149 * (2 ^ 149 * den) := by field_simp
  have hunits : ∀ n : Nat, (n : ℚ) * den = n / 2 ^ 149 * (2 ^ 149 * den) := fun n => by field_simp
  have hbelow : num < (2 ^ 128 - 2 ^ 103) * 2 ^ 149 * den := by
    have hlt := mul_lt_mul_of_pos_right h hc
    rw [← hnum, ← mul_assoc] at hlt
    rw [← Nat.cast_lt (α := ℚ), Nat.cast_mul, Nat.cast_mul, Nat.cast_sub (by norm_num)]
    exact_mod_cast hlt
  obtain ⟨k, hlo, hhi, hfin, hcase⟩ := F32.roundMag_finite_cases num den hden hbelow
  have hval : (F32.round false num den).val = (F32.unitsOfMag (F32.roundMag num den) : ℚ) / 2 ^ 149 := by
    rw [F32.val_eq, F32.sign_round, F32.mag_round]; simp
  rw [← Nat.cast_le (α := ℚ), Nat.cast_mul, hunits, hnum] at hlo
  rw [← Nat.cast_le (α := ℚ), Nat.cast_mul, hunits, hnum] at hhi
  have hsum : (((F32.unitsOfMag k + F32.unitsOfMag (k + 1)) * den : Nat) : ℚ) =
      ((F32.unitsOfMag k : ℚ) / 2 ^ 149 + (F32.unitsOfMag (k + 1) : ℚ) / 2 ^ 149) * (2 ^ 149 * den) := by
    push_cast; rw [add_mul, hunits, hunits, add_mul]
  have htwo : ((2 * num : Nat) : ℚ) = 2 * ((num : ℚ) / den / 2 ^ 149) * (2 ^ 149 * den) := by
    rw [Nat.cast_mul, mul_assoc, ← hnum, Nat.cast_ofNat]
  rw [← Nat.cast_lt (α := ℚ), ← Nat.cast_lt (α := ℚ), ← Nat.cast_inj (R := ℚ) (m := 2 * num), hsum, htwo,
    mul_lt_mul_iff_left₀ hc, mul_lt_mul_iff_left₀ hc, mul_left_inj' hc.ne', ← F32.mag_round false] at hcase
  exact F32.nearest_of_gap (F32.finite_iff.mpr (by rwa [F32.mag_round])) (F32.val_gap k)
    (le_of_mul_le_mul_right hlo hc) (le_of_mul_le_mul_right hhi hc)
    (hcase.imp (And.imp_left fun hr => by rw [hval, ← F32.mag_round false, hr])
      (And.imp_left fun hr => by rw [hval, ← F32.mag_round false, hr]))

/-! ### The operations round the exact result -/

/-- `x` is one rounding, by `F32.round`, of the exact value `v`. -/
def F32.RoundOf (v : ℚ) (x : F32) : Prop :=
  ∃ (s : Bool) (num den : Nat), 0 < den ∧ x = F32.round s num den ∧
    v = (if s then -1 else 1) * ((num : ℚ) / den / 2 ^ 149)

theorem F32.round_true_eq_neg (num den : Nat) : F32.round true num den = (F32.round false num den).neg :=
  F32.ext_sign_mag (by simp [F32.sign_neg]) (by simp [F32.mag_neg])

theorem F32.RoundOf.nearest {v : ℚ} {x : F32} (h : F32.RoundOf v x) (hv : |v| < 2 ^ 128 - 2 ^ 103) :
    F32.nearest v x := by
  obtain ⟨s, num, den, hden, rfl, rfl⟩ := h
  have hpos : (0 : ℚ) ≤ (num : ℚ) / den / 2 ^ 149 := by positivity
  cases s
  · rw [if_neg Bool.false_ne_true, one_mul] at hv ⊢
    exact F32.round_false_nearest num den hden (by rwa [abs_of_nonneg hpos] at hv)
  · rw [if_pos rfl, neg_one_mul] at hv ⊢
    rw [F32.round_true_eq_neg]
    exact F32.nearest_neg (F32.round_false_nearest num den hden (by rwa [abs_neg, abs_of_nonneg hpos] at hv))

theorem F32.zero_eq_round (s : Bool) : F32.zero s = F32.round s 0 1 := by cases s <;> decide

theorem F32.roundOf_add {x y : F32} (hx : x.isFinite = true) (hy : y.isFinite = true) :
    F32.RoundOf (x.val + y.val) (F32.add x y) := by
  have hsum : x.val + y.val = ((x.units + y.units : Int) : ℚ) / 2 ^ 149 := by unfold F32.val; push_cast; ring
  have hadd : F32.add x y = F32.addFinite x y := by
    simp [F32.add, F32.not_nan_of_finite, F32.not_inf_of_finite, hx, hy]
  rw [hsum, hadd, F32.addFinite]
  generalize x.units + y.units = z
  by_cases hz : z = 0
  · exact ⟨x.sign && y.sign, 0, 1, one_pos, by simp [hz, F32.zero_eq_round], by simp [hz]⟩
  · refine ⟨decide (z < 0), z.natAbs, 1, one_pos, if_neg hz, ?_⟩
    rw [Nat.cast_natAbs, Nat.cast_one, div_one]
    rcases lt_or_gt_of_ne hz with hneg | hpos
    · simp [hneg, abs_of_neg hneg, neg_div]
    · simp [hpos.le.not_gt, abs_of_pos hpos]

theorem F32.roundOf_sub {x y : F32} (hx : x.isFinite = true) (hy : y.isFinite = true) :
    F32.RoundOf (x.val - y.val) (F32.sub x y) := by
  rw [sub_eq_add_neg, ← F32.val_neg]
  exact F32.roundOf_add hx (by rwa [F32.isFinite_neg])

/-- The sign of a product or quotient is the product of the signs. -/
theorem F32.signFactor_bne (s t : Bool) :
    (if (s != t) = true then (-1 : ℚ) else 1) = (if s then -1 else 1) * (if t then -1 else 1) := by
  cases s <;> cases t <;> simp

theorem F32.roundOf_mul {x y : F32} (hx : x.isFinite = true) (hy : y.isFinite = true) :
    F32.RoundOf (x.val * y.val) (F32.mul x y) := by
  refine ⟨x.sign != y.sign, x.units.natAbs * y.units.natAbs, F32.one149, Nat.two_pow_pos 149, ?_, ?_⟩
  · simp [F32.mul, F32.not_nan_of_finite, F32.not_inf_of_finite, hx, hy]
  · rw [F32.signFactor_bne, F32.val_eq_natAbs x, F32.val_eq_natAbs y, F32.one149]
    push_cast
    ring

theorem F32.roundOf_div {x y : F32} (hx : x.isFinite = true) (hy : y.isFinite = true) (h0 : y.val ≠ 0) :
    F32.RoundOf (x.val / y.val) (F32.div x y) := by
  have hzero : y.isZero = false := by rw [← Bool.not_eq_true, F32.isZero_iff]; exact h0
  have hunits : y.units ≠ 0 := fun h => h0 (by rw [F32.val, h]; simp)
  refine ⟨x.sign != y.sign, x.units.natAbs * F32.one149, y.units.natAbs, Int.natAbs_pos.mpr hunits, ?_, ?_⟩
  · simp [F32.div, F32.not_nan_of_finite, F32.not_inf_of_finite, hx, hy, hzero]
  · have hden : (y.units.natAbs : ℚ) ≠ 0 := by exact_mod_cast (Int.natAbs_pos.mpr hunits).ne'
    have hinv : (if y.sign then (-1 : ℚ) else 1)⁻¹ = if y.sign then -1 else 1 := by cases y.sign <;> norm_num
    rw [F32.signFactor_bne, F32.val_eq_natAbs x, F32.val_eq_natAbs y, F32.one149, mul_div_mul_comm,
      div_eq_mul_inv (if x.sign then (-1 : ℚ) else 1), hinv]
    rw [Nat.cast_mul, Nat.cast_pow, Nat.cast_ofNat]
    congr 1
    field_simp

/-- Settles O21: each operation is one rounding of the exact result, and one rounding below the overflow threshold is the
nearest value. -/
theorem arithmeticRoundsToNearest : Obligations.ArithmeticRoundsToNearest := by
  intro x y hx hy
  exact ⟨(F32.roundOf_add hx hy).nearest, (F32.roundOf_sub hx hy).nearest, (F32.roundOf_mul hx hy).nearest,
    fun h0 => (F32.roundOf_div hx hy h0).nearest⟩

/-! ### Powers of two -/

/-- The reference `exp2f` at an argument of integer value `k` in its range. -/
theorem F32.exp2Ref_val_of_int {x : F32} (hx : x.isNaN = false) {k : Int} (hv : x.val = k) (hlo : -150 < k)
    (hhi : k < 128) : (F32.exp2Ref x).val = (2 : ℚ) ^ k := by
  have hlo' : (-150 : ℚ) < k := by exact_mod_cast hlo
  have hhi' : (k : ℚ) < 128 := by exact_mod_cast hhi
  rcases F32.exp2Ref_cases hx with ⟨hle, _⟩ | ⟨hge, _⟩ | ⟨_, _, _, e, _, _, he, hexact, _⟩
  · linarith
  · linarith
  · rw [hv, Int.floor_intCast] at he hexact
    obtain ⟨hpos, hval⟩ := hexact rfl
    rw [hval, ← zpow_natCast, ← zpow_natCast, ← zpow_sub₀ two_ne_zero]
    congr 1
    omega

/-- Settles O22: `i2f` is exact on these integers, and `exp2f` is exact there by its own case for integers. -/
theorem exp2ExactAtIntegers : Obligations.Exp2ExactAtIntegers := by
  intro k hlo hhi
  have hval : (F32.exp2Ref (F32.ofInt k)).val = (2 : ℚ) ^ k :=
    F32.exp2Ref_val_of_int (F32.ofInt_notNaN k) (F32.ofInt_val (by omega)) (by omega) (by omega)
  refine ⟨F32.finite_of_abs_le 127 le_rfl ?_, hval⟩
  rw [hval, abs_of_pos (by positivity), ← zpow_natCast]
  exact zpow_le_zpow_right₀ one_le_two hhi

end Sys2Proof
end

section
/-! PROOFS of the parameter table, and of what each command can change (10_state.md R32 to R42). -/

namespace Sys2Proof.Machine

/-! ### The parameter table -/

/-- The ids at which the commands find a register are the ids of the rows (R40, R41). -/
theorem paramOfId_eq_some_iff {id : Nat} {p : Param} (P : Nat) : paramOfId id = some p ↔ id = (paramRow P p).id := by
  constructor
  · intro h
    unfold paramOfId at h
    split at h <;> cases h <;> rfl
  · rintro rfl
    cases p <;> rfl

/-- Looking up every id in order gives the registers in the order of the table. -/
theorem definedIds_eq_allParams :
    ((List.range 256).filterMap fun id => (paramOfId id).map fun p => (id, p)) =
      allParams.map fun p => ((paramRow 0 p).id, p) := by decide +kernel

/-- Settles O48: the ids are the rows' own, all below 256, and looking up every id gives the 48 rows in order. -/
theorem parameterTable : Obligations.ParameterTable := by
  refine ⟨fun P id p h => ?_, fun P => ?_⟩
  · obtain rfl := (paramOfId_eq_some_iff P).mp h
    exact ⟨rfl, by cases p <;> simp [paramRow]⟩
  · have hrows : ((List.range 256).filterMap fun id => (paramOfId id).map fun p => (id, p, paramRow P p)) =
        ((List.range 256).filterMap fun id => (paramOfId id).map fun p => (id, p)).map
          fun x => (x.1, x.2, paramRow P x.2) := by
      simp only [List.map_filterMap, Option.map_map]
      rfl
    rw [hrows, definedIds_eq_allParams]
    rfl

/-! ### What a command does -/

/-- The state that NOTE_ON with a velocity leaves (44_voice_manager.md R270). -/
def noteOnState (key : Int) (x : F32) (s : State) : State :=
  let s1 : State := { s with age := s.age + 1#32 }
  triggerCopies key (noteMap s1 key) (clampCanon x c0 c1) (eligibleCount s1) (copyCount s1) (copyCount s1) 0 [] s1

/-- What a command can do to a state, one row for each way in which a command has an effect. -/
inductive Effect (s : State) : Instr → State → Prop
  | nothing (i : Instr) : Effect s i s
  | noteOn (key : Int) (x : F32) (hx : x.isNaN = false) : Effect s (.noteOn key x) (noteOnState key x s)
  | noteOff (key : Int) : Effect s (.noteOff key) (s.mapVoices (noteOffVoice s.pedal key))
  | allNotesOff : Effect s .allNotesOff (s.mapVoices releaseSounding)
  | allSoundOff : Effect s .allSoundOff (s.mapVoices fun _ => Voice.reset)
  | pedalDown : Effect s (.sustain true) { s with pedal := true }
  | pedalUp : Effect s (.sustain false) (State.mapVoices { s with pedal := false } releaseSustained)
  | pitchBend (x : F32) (hx : x.isNaN = false) : Effect s (.pitchBend x) { s with bend := clampCanon x cNeg1 c1 }
  | modWheel (x : F32) (hx : x.isNaN = false) : Effect s (.modWheel x) { s with wheel := clampCanon x c0 c1 }
  | setParam (id : Nat) (x : F32) (p : Param) (hp : paramOfId id = some p) (hx : x.isNaN = false) :
      Effect s (.setParam id x) (s.setParamReg p (paramValue (s.row p) x))
  | getParam (id : Nat) : Effect s (.getParam id) { s with rdata := ((s.paramById id).map F32.bits).getD 0#32 }
  | setSampleRate (x : F32) (hx : x.isNaN = false) : Effect s (.setSampleRate x) { s with fs := F32.clamp x c8000 c192000 }
  | render (n : Nat) : Effect s (.render n) (runRender { s with remain := BitVec.ofNat 16 n })

/-- Every command answers a next state, and has one of these effects. -/
theorem exec_effect (i : Instr) (s : State) : ∃ t, exec i s = .next t ∧ Effect s i t := by
  have unlessNaN : ∀ (x : F32) (t : State), (x.isNaN = false → Effect s i t) →
      ∃ u, (if x.isNaN then .next s else .next t : Host.Outcome State Fault Refusal) = .next u ∧ Effect s i u := by
    intro x t ht
    cases hx : x.isNaN
    · exact ⟨t, rfl, ht hx⟩
    · exact ⟨s, rfl, .nothing i⟩
  cases i with
  | noteOn key x => exact unlessNaN x _ (.noteOn key x)
  | noteOff key => exact ⟨_, rfl, .noteOff key⟩
  | allNotesOff => exact ⟨_, rfl, .allNotesOff⟩
  | allSoundOff => exact ⟨_, rfl, .allSoundOff⟩
  | sustain down =>
    cases down
    · exact ⟨_, rfl, .pedalUp⟩
    · exact ⟨_, rfl, .pedalDown⟩
  | pitchBend x => exact unlessNaN x _ (.pitchBend x)
  | modWheel x => exact unlessNaN x _ (.modWheel x)
  | setParam id x =>
    cases hp : paramOfId id with
    | none => exact ⟨s, by simp [exec, execSetParam, hp], .nothing _⟩
    | some p =>
      obtain ⟨t, ht, he⟩ := unlessNaN x _ (Effect.setParam id x p hp)
      exact ⟨t, by rw [← ht]; simp [exec, execSetParam, hp], he⟩
  | getParam id => exact ⟨_, by cases h : s.paramById id <;> simp [exec, execGetParam, h], .getParam id⟩
  | setSampleRate x => exact unlessNaN x _ (.setSampleRate x)
  | render n => exact ⟨_, rfl, .render n⟩
  | _ => exact ⟨s, rfl, .nothing _⟩

theorem effect_of_exec {i : Instr} {s t : State} (h : exec i s = .next t) : Effect s i t := by
  obtain ⟨u, hu, he⟩ := exec_effect i s
  obtain rfl := Host.Outcome.next.inj (h.symm.trans hu)
  exact he

/-- Every step answers a next state (60_exceptions.md R370). -/
theorem exists_step_next (s : State) : ∃ t, step s = .next t := by
  unfold step
  cases portAction s with
  | accept i u => exact (exec_effect i u).imp fun _ h => h.1
  | advance u => exact ⟨u, rfl⟩

/-- A property that triggering one more allocated voice keeps holds after the loop of NOTE_ON. -/
theorem triggerCopies_keeps {I : State → Prop} {key note : Int} {vel : F32} {V N : Nat}
    (htrigger : ∀ (s : State) (v : Voice) (i c : Nat) (taken : List Nat), c < N → isCandidate s V taken i v → I s →
      I (s.setVoice i (voiceTrigger s v key note vel c N (!isLegato s v))))
    (todo c : Nat) (taken : List Nat) (s : State) (hc : c + todo ≤ N) (hs : I s) :
    I (triggerCopies key note vel V N todo c taken s) := by
  induction todo generalizing c taken s with
  | zero => exact hs
  | succ todo ih =>
    unfold triggerCopies
    cases ha : allocate s key c V taken with
    | none => exact hs
    | some vi => exact ih _ _ _ (by omega) (htrigger s vi.1 vi.2 c taken (by omega) (allocate_isCandidate ha) hs)

/-- NOTE_ON writes the counter and voices of the pool, nothing else. -/
theorem noteOnState_frame (key : Int) (x : F32) (s : State) :
    noteOnState key x s = { s with age := s.age + 1#32, voices := (noteOnState key x s).voices } ∧
    (noteOnState key x s).voices.length = s.voices.length := by
  refine triggerCopies_keeps (I := fun t => t = { s with age := s.age + 1#32, voices := t.voices } ∧
    t.voices.length = s.voices.length) ?_ _ _ _ _ (by omega) ⟨rfl, rfl⟩
  rintro t v i c taken - - ⟨hframe, hlen⟩
  refine ⟨?_, by simpa using hlen⟩
  rw [hframe]
  rfl

/-- What ticks may change: the generator, the global LFO, the voices of the pool, and whole frames at the end of the
stream (R311). -/
theorem iterate_tick_frame (n : Nat) (s : State) :
    ∃ (rng : Word) (glfo : LfoState) (vs : List Voice) (frames : List Sample),
      tick^[n] s =
        { s with rng := rng, glfo := glfo, voices := vs, out := s.out ++ frames.flatMap fun x => [x, x] } ∧
      vs.length = s.voices.length := by
  induction n generalizing s with
  | zero => exact ⟨s.rng, s.glfo, s.voices, [], by simp, rfl⟩
  | succ n ih =>
    obtain ⟨rng, glfo, vs, frames, hticks, hlen⟩ := ih (tick s)
    refine ⟨rng, glfo, vs, tickSample s :: frames, ?_, hlen.trans (tick_voices_length s)⟩
    rw [Function.iterate_succ_apply, hticks, tick_eq]
    simp

/-- RENDER's loop may change what ticks may change, and the port's own counters (R310). -/
theorem runRender_frame (s : State) :
    ∃ (rng : Word) (glfo : LfoState) (remain : BitVec 16) (takes : Option Nat) (vs : List Voice) (frames : List Sample),
      runRender s =
        { s with rng := rng, glfo := glfo, remain := remain, hostTakes := takes, voices := vs
                 out := s.out ++ frames.flatMap fun x => [x, x] } ∧
      vs.length = s.voices.length := by
  obtain ⟨rng, glfo, vs, frames, hticks, hlen⟩ := iterate_tick_frame (turnsRun s.remain.toNat s.hostTakes) s
  exact ⟨rng, glfo, _, _, vs, frames, by rw [runRender, renderLoop_eq, hticks], hlen⟩

/-- Settles O54: each effect writes the registers of its own command. -/
theorem registersHaveOneWriter : Obligations.RegistersHaveOneWriter := by
  intro i s
  obtain ⟨t, ht, he⟩ := exec_effect i s
  refine ⟨t, ht, ?_⟩
  cases he with
  | noteOn key x =>
    obtain ⟨hframe, hlen⟩ := noteOnState_frame key x s
    rw [hframe]
    simp [hlen]
  | render n =>
    obtain ⟨rng, glfo, remain, takes, vs, frames, hrun, hlen⟩ := runRender_frame { s with remain := BitVec.ofNat 16 n }
    rw [hrun]
    simp [hlen]
  | _ => simp

/-- Settles O55: RENDER appends whole frames, and no other effect writes the stream. -/
theorem onlyRenderEmits : Obligations.OnlyRenderEmits := by
  intro i s
  obtain ⟨t, ht, he⟩ := exec_effect i s
  refine ⟨t, ht, ?_⟩
  cases he with
  | noteOn key x =>
    rw [(noteOnState_frame key x s).1]
    exact ⟨fun _ => rfl, [], by simp⟩
  | render n =>
    obtain ⟨rng, glfo, remain, takes, vs, frames, hrun, -⟩ := runRender_frame { s with remain := BitVec.ofNat 16 n }
    rw [hrun]
    exact ⟨fun h => absurd rfl (h n), frames, rfl⟩
  | _ => exact ⟨fun _ => rfl, [], by simp⟩

end Sys2Proof.Machine
end

section
/-! PROOFS that every step keeps the registers legal and the voices' lifecycle (10_state.md R42, R50, R51). -/

namespace Sys2Proof.Machine

/-! ### The register invariant -/

theorem constructionLegal_of_registersLegal {s : State} (h : registersLegal s = true) :
    constructionLegal s.cfg = true := by
  simp only [registersLegal, Bool.and_eq_true] at h
  exact h.1.1.1

/-- The register invariant, part by part. -/
theorem registersLegal_iff (s : State) :
    registersLegal s = true ↔
      constructionLegal s.cfg = true ∧ s.voices.length = s.cfg.poolSize ∧
      (∀ p, paramLegal s.cfg.poolSize p (s.param p) = true) ∧ F32.within c8000 c192000 s.fs = true ∧
      (F32.within cNeg1 c1 s.bend = true ∧ F32.notNegZero s.bend = true) ∧
      (F32.within c0 c1 s.wheel = true ∧ F32.notNegZero s.wheel = true) := by
  simp only [registersLegal, globalsLegal, Bool.and_eq_true, decide_eq_true_eq, paramsLegal_iff, and_assoc]

/-- Reset makes every register legal (R391, R392). -/
theorem registersLegal_applyReset {s : State} (h : constructionLegal s.cfg = true) :
    registersLegal s.applyReset = true := by
  have hc := h
  simp only [constructionLegal, Bool.and_eq_true, decide_eq_true_eq] at hc
  obtain ⟨⟨hlo, hhi⟩, hfs⟩ := hc
  refine (registersLegal_iff _).mpr ⟨h, by simp, fun p => ?_, hfs, ?_, ?_⟩
  · rw [State.applyReset_param]
    obtain ⟨-, -, -, -, -, hreset, -⟩ := paramRow_facts s.cfg.poolSize hlo hhi p
    exact hreset
  · rw [State.applyReset_bend]; decide +kernel
  · rw [State.applyReset_wheel]; decide +kernel

theorem registersLegal_tick {s : State} (h : registersLegal s = true) : registersLegal (tick s) = true := by
  rw [registersLegal_congr (t := s)] <;> simp [h]

/-- Every effect of a command keeps the register invariant: what a command stores it has clamped first (R341, R342). -/
theorem registersLegal_of_effect {i : Instr} {s t : State} (he : Effect s i t) (h : registersLegal s = true) :
    registersLegal t = true := by
  obtain ⟨hcfg, hlen, hparams, hfs, hbend, hwheel⟩ := (registersLegal_iff s).mp h
  cases he with
  | noteOn key x =>
    obtain ⟨hframe, hlen'⟩ := noteOnState_frame key x s
    rw [registersLegal_congr (t := s), h] <;> rw [hframe]
    exact hlen'
  | pitchBend x hx =>
    obtain ⟨-, -, hnz, hwithin⟩ := clampCanon_spec hx cNeg1_notNaN c1_notNaN (by norm_num)
    exact (registersLegal_iff _).mpr ⟨hcfg, hlen, hparams, hfs, ⟨hwithin, hnz⟩, hwheel⟩
  | modWheel x hx =>
    obtain ⟨-, -, hnz, hwithin⟩ := clampCanon_spec hx c0_notNaN c1_notNaN (by norm_num)
    exact (registersLegal_iff _).mpr ⟨hcfg, hlen, hparams, hfs, hbend, ⟨hwithin, hnz⟩⟩
  | setParam id x p _ hx =>
    obtain ⟨hlo, hhi, -⟩ := globals_bounds h
    refine (registersLegal_iff _).mpr ⟨hcfg, hlen, fun q => ?_, hfs, hbend, hwheel⟩
    rw [State.param_setParamReg, State.setParamReg_cfg]
    split
    · next hq => rw [hq]; exact paramValue_legal _ hlo hhi p hx
    · exact hparams q
  | setSampleRate x hx =>
    have hwithin := F32.clamp_within hx c8000_notNaN c192000_notNaN (by norm_num)
    exact (registersLegal_iff _).mpr ⟨hcfg, hlen, hparams, hwithin, hbend, hwheel⟩
  | render n =>
    obtain ⟨rng, glfo, remain, takes, vs, frames, hrun, hlen'⟩ := runRender_frame { s with remain := BitVec.ofNat 16 n }
    rw [registersLegal_congr (t := s), h] <;> rw [hrun]
    exact hlen'
  | _ => rw [registersLegal_congr (t := s), h] <;> simp [State.mapVoices]

/-- Every step keeps the register invariant. -/
theorem registersLegal_step {s t : State} (h : registersLegal s = true) (hstep : step s = .next t) :
    registersLegal t = true :=
  step_keeps (I := fun s => registersLegal s = true) (fun _ _ _ _ hs => hs)
    (fun _ hs => registersLegal_applyReset (constructionLegal_of_registersLegal hs))
    (fun _ hs => registersLegal_tick hs) (fun _ _ _ _ _ hs he => registersLegal_of_effect (effect_of_exec he) hs)
    s t h hstep

/-- Settles O56: by cases on the step, every stored value having been clamped. -/
theorem registersStayLegal : Obligations.RegistersStayLegal := by
  intro s h
  obtain ⟨t, ht⟩ := exists_step_next s
  exact ⟨t, ht, registersLegal_step h ht⟩

/-! ### What the commands do to the voices of the pool -/

/-- A property of a voice that resetting, sustaining, releasing and triggering it keep, in a pool whose registers are
`s`'s. A trigger that does not restart the envelopes meets a voice that is held or sustained (44_voice_manager.md R275). -/
structure VoiceInvariant (s : State) (Q : Voice → Prop) : Prop where
  reset : Q Voice.reset
  sustained : ∀ v, Q v → v.gate = .held → Q { v with gate := .sustained }
  released : ∀ v, Q v → Q (voiceRelease v)
  triggered : ∀ (u : State) (v : Voice) (key note : Int) (vel : F32) (c N : Nat) (retrig : Bool), SameShared u s →
    (-128 ≤ key ∧ key ≤ 127) → (0 ≤ note ∧ note ≤ 127) → F32.within c0 c1 vel = true ∧ F32.notNegZero vel = true →
    c < N ∧ N ≤ s.cfg.poolSize → (retrig = false → v.gate ≠ .released) → Q v → Q (voiceTrigger u v key note vel c N retrig)

theorem VoiceInvariant.keeps_noteOff {s : State} {Q : Voice → Prop} (hQ : VoiceInvariant s Q) (pedal : Bool) (key : Int)
    (v : Voice) (hv : Q v) : Q (noteOffVoice pedal key v) := by
  unfold noteOffVoice
  split
  · next hheld =>
    simp only [Bool.and_eq_true, decide_eq_true_eq] at hheld
    split
    · exact hQ.sustained v hv hheld.2
    · exact hQ.released v hv
  · exact hv

theorem VoiceInvariant.keeps_releaseSounding {s : State} {Q : Voice → Prop} (hQ : VoiceInvariant s Q)
    (v : Voice) (hv : Q v) : Q (releaseSounding v) := by
  unfold releaseSounding
  split
  · exact hQ.released v hv
  · exact hv

theorem VoiceInvariant.keeps_releaseSustained {s : State} {Q : Voice → Prop} (hQ : VoiceInvariant s Q)
    (v : Voice) (hv : Q v) : Q (releaseSustained v) := by
  unfold releaseSustained
  split
  · exact hQ.released v hv
  · exact hv

/-- A trigger is legato only on a voice that is held or sustained. -/
theorem gate_ne_released_of_isLegato {s : State} {v : Voice} (h : isLegato s v = true) : v.gate ≠ .released := by
  intro hg
  simp [isLegato, hg] at h

/-- NOTE_ON keeps a voice invariant. -/
theorem VoiceInvariant.keeps_noteOn {s : State} {Q : Voice → Prop} (hQ : VoiceInvariant s Q) (h : registersLegal s = true)
    {key : Int} (hkey : -128 ≤ key ∧ key ≤ 127) {x : F32} (hx : x.isNaN = false) (hv : ∀ v ∈ s.voices, Q v) :
    ∀ v ∈ (noteOnState key x s).voices, Q v := by
  obtain ⟨-, -, hnz, hwithin⟩ := clampCanon_spec hx c0_notNaN c1_notNaN (by norm_num)
  unfold noteOnState
  generalize hs1 : ({ s with age := s.age + 1#32 } : State) = s1
  have h1 : registersLegal s1 = true := hs1 ▸ h
  have hshared : SameShared s1 s := hs1 ▸ ⟨rfl, rfl, rfl, rfl, rfl⟩
  have hN : copyCount s1 ≤ s.cfg.poolSize := by
    obtain ⟨-, -, hlen, -⟩ := globals_bounds h1
    rw [← hshared.cfg, ← hlen]
    exact (copyCount_bounds h1).2.trans (eligibleCount_bounds h1).2
  refine (triggerCopies_keeps (I := fun u => SameShared u s ∧ ∀ v ∈ u.voices, Q v) ?_ _ _ _ _ (Nat.zero_add _).le
    ⟨hshared, hs1 ▸ hv⟩).2
  rintro u v i c taken hc ⟨hvi, -, -⟩ ⟨hu, hall⟩
  refine ⟨⟨hu.cfg, hu.fs, hu.bend, hu.wheel, hu.params⟩, fun w hw => ?_⟩
  rcases List.mem_or_eq_of_mem_set hw with hw | rfl
  · exact hall w hw
  · exact hQ.triggered u v key _ _ c _ _ hu hkey (noteMap_bounds s1 key) ⟨hwithin, hnz⟩ ⟨hc, hN⟩
      (fun hl => gate_ne_released_of_isLegato (by simpa using hl)) (hall v (List.mem_of_getElem? hvi))

/-- A voice invariant holds of the whole pool after every command but RENDER. -/
theorem voices_keep_of_effect {s t : State} {i : Instr} {Q : Voice → Prop} (he : Effect s i t) (hQ : VoiceInvariant s Q)
    (h : registersLegal s = true) (hi : i.wellFormed = true) (hr : ∀ n, i ≠ .render n) (hv : ∀ v ∈ s.voices, Q v) :
    ∀ v ∈ t.voices, Q v := by
  cases he with
  | noteOn key x hx => exact hQ.keeps_noteOn h (by simpa [Instr.wellFormed] using hi) hx hv
  | noteOff key => exact List.forall_mem_map.mpr fun v hm => hQ.keeps_noteOff s.pedal key v (hv v hm)
  | allNotesOff => exact List.forall_mem_map.mpr fun v hm => hQ.keeps_releaseSounding v (hv v hm)
  | allSoundOff => exact List.forall_mem_map.mpr fun _ _ => hQ.reset
  | pedalUp => exact List.forall_mem_map.mpr fun v hm => hQ.keeps_releaseSustained v (hv v hm)
  | render n => exact absurd rfl (hr n)
  | _ => exact hv

/-- Every pair of words decodes to a well-formed command (R105). -/
theorem decode_wellFormed (w0 w1 : Word) : (decode w0 w1).wellFormed = true := by
  have hkey : -128 ≤ (fieldA w0).toInt ∧ (fieldA w0).toInt ≤ 127 := by
    have := (fieldA w0).toInt_lt
    have := (fieldA w0).le_toInt
    omega
  have hid : (fieldA w0).toNat ≤ 255 := by have := (fieldA w0).isLt; omega
  have hframes : (fieldB w0).toNat ≤ 65535 := by have := (fieldB w0).isLt; omega
  have hop : fieldOp w0 ≤ 255 := by rw [fieldOp_eq]; have := w0.isLt; omega
  unfold decode
  dsimp only
  repeat' refine iteInduction (motive := fun i => Instr.wellFormed i = true) (fun _ => ?_) fun _ => ?_
  all_goals simp only [Instr.wellFormed, decide_eq_true_eq]
  all_goals omega

/-! ### The lifecycle of one voice -/

/-- The key is up: the stage of an amplitude envelope whose voice has been released. -/
def KeyUp (st : Stage) : Prop := st = .idle ∨ st = .release

/-- Gate and stage agree when the gate is `RELEASED` exactly with the key up (R51). -/
theorem gateMatchesStage_iff (v : Voice) : gateMatchesStage v = true ↔ (v.gate = .released ↔ KeyUp v.amp.stage) := by
  unfold gateMatchesStage KeyUp
  cases v.gate <;> cases v.amp.stage <;> simp

theorem idleIsSilent_iff (e : EnvState) : idleIsSilent e = true ↔ (e.stage = .idle → e.level = c0) := by
  simp [idleIsSilent, imp_iff_not_or]

/-- The lifecycle invariant, part by part. -/
theorem voiceLegal_iff (P : Nat) (v : Voice) :
    voiceLegal P v = true ↔
      (v.gate = .released ↔ KeyUp v.amp.stage) ∧ (v.amp.stage = .idle → v.amp.level = c0) ∧
      (v.flt.stage = .idle → v.flt.level = c0) ∧ (v.assigned = true ∨ v = Voice.reset) ∧ v.gvalid = v.assigned ∧
      (-128 ≤ v.key ∧ v.key ≤ 127) ∧ (0 ≤ v.note ∧ v.note ≤ 127) ∧ (v.copy < v.uniN ∧ v.uniN ≤ P) ∧
      (F32.within c0 c1 v.vel = true ∧ F32.notNegZero v.vel = true) := by
  simp only [voiceLegal, Bool.and_eq_true, Bool.or_eq_true, decide_eq_true_eq, beq_iff_eq, gateMatchesStage_iff,
    idleIsSilent_iff, and_assoc]

theorem envRelease_keyUp (e : EnvState) : KeyUp (envRelease e).stage := by
  unfold envRelease KeyUp
  split
  · next h => exact .inl h
  · exact .inr rfl

theorem envRelease_level (e : EnvState) : (envRelease e).level = e.level := by unfold envRelease; split <;> rfl

theorem envRelease_idle_iff (e : EnvState) : (envRelease e).stage = .idle ↔ e.stage = .idle := by
  unfold envRelease
  split <;> simp_all

/-- The stages an active envelope's tick can end in (R174, R175, R177). -/
theorem envAttackTick_stage (level c : F32) :
    (envAttackTick level c).stage = .decay ∨ (envAttackTick level c).stage = .attack := by
  unfold envAttackTick
  dsimp only
  split
  · exact .inl rfl
  · exact .inr rfl

theorem envDecayTick_stage (level c S : F32) :
    (envDecayTick level c S).stage = .sustain ∨ (envDecayTick level c S).stage = .decay := by
  unfold envDecayTick
  dsimp only
  split
  · exact .inl rfl
  · exact .inr rfl

theorem envReleaseTick_stage (level c : F32) :
    envReleaseTick level c = ⟨.idle, c0⟩ ∨ (envReleaseTick level c).stage = .release := by
  unfold envReleaseTick
  dsimp only
  split
  · exact .inl rfl
  · exact .inr rfl

/-- A tick never takes the key up or down (R173 to R178). -/
theorem envAdvance_keyUp (lib : TransLib) (fs : F32) (e : EnvState) (A D S R : F32) :
    KeyUp (envAdvance lib fs e A D S R).stage ↔ KeyUp e.stage := by
  unfold envAdvance
  cases e.stage with
  | idle => exact Iff.rfl
  | attack => rcases envAttackTick_stage e.level (coefAtt lib fs A) with h | h <;> simp [KeyUp, h]
  | decay => rcases envDecayTick_stage e.level (coefDr lib fs D) S with h | h <;> simp [KeyUp, h]
  | sustain => exact Iff.rfl
  | release => rcases envReleaseTick_stage e.level (coefDr lib fs R) with h | h <;> simp [KeyUp, h]

/-- A tick that leaves an envelope in `IDLE` leaves it silent. -/
theorem envAdvance_idle (lib : TransLib) (fs : F32) (e : EnvState) (A D S R : F32)
    (hidle : (envAdvance lib fs e A D S R).stage = .idle) : (envAdvance lib fs e A D S R).level = c0 := by
  unfold envAdvance at hidle ⊢
  cases hstage : e.stage with
  | idle => rfl
  | attack => rcases envAttackTick_stage e.level (coefAtt lib fs A) with h | h <;> simp [hstage, h] at hidle
  | decay => rcases envDecayTick_stage e.level (coefDr lib fs D) S with h | h <;> simp [hstage, h] at hidle
  | sustain => simp [hstage] at hidle
  | release =>
    rcases envReleaseTick_stage e.level (coefDr lib fs R) with h | h
    · rw [h]
    · simp [hstage, h] at hidle

theorem voiceLegal_reset {P : Nat} (hP : 1 ≤ P) : voiceLegal P Voice.reset = true := by
  rw [voiceLegal_iff]
  refine ⟨by simp [Voice.reset, KeyUp], fun _ => rfl, fun _ => rfl, .inr rfl, rfl, by decide, by decide,
    ⟨by decide, hP⟩, by decide +kernel⟩

theorem voiceLegal_sustained {P : Nat} {v : Voice} (h : voiceLegal P v = true) (hg : v.gate = .held) :
    voiceLegal P { v with gate := .sustained } = true := by
  rw [voiceLegal_iff] at h ⊢
  obtain ⟨hgate, hamp, hflt, hassigned, hrest⟩ := h
  refine ⟨by simpa [hg] using hgate, hamp, hflt, hassigned.imp_right fun hv => ?_, hrest⟩
  rw [hv] at hg
  cases hg

/-- Releasing a voice takes its key up and keeps its levels; a voice at reset stays there. -/
theorem voiceLegal_release {P : Nat} {v : Voice} (h : voiceLegal P v = true) : voiceLegal P (voiceRelease v) = true := by
  rw [voiceLegal_iff] at h ⊢
  obtain ⟨-, hamp, hflt, hassigned, hrest⟩ := h
  refine ⟨iff_of_true rfl (envRelease_keyUp v.amp), fun hi => ?_, fun hi => ?_, hassigned.imp_right fun hv => ?_, hrest⟩
  · exact (envRelease_level v.amp).trans (hamp ((envRelease_idle_iff v.amp).mp hi))
  · exact (envRelease_level v.flt).trans (hflt ((envRelease_idle_iff v.flt).mp hi))
  · rw [hv]; rfl

/-- A triggered voice is held with its amplitude envelope active: restarted, or kept from a voice that was not released. -/
theorem voiceLegal_trigger {P : Nat} {u : State} {v : Voice} {key note : Int} {vel : F32} {c N : Nat} {retrig : Bool}
    (hkey : -128 ≤ key ∧ key ≤ 127) (hnote : 0 ≤ note ∧ note ≤ 127)
    (hvel : F32.within c0 c1 vel = true ∧ F32.notNegZero vel = true) (hc : c < N ∧ N ≤ P)
    (hlegato : retrig = false → v.gate ≠ .released) (h : voiceLegal P v = true) :
    voiceLegal P (voiceTrigger u v key note vel c N retrig) = true := by
  rw [voiceLegal_iff] at h ⊢
  obtain ⟨hgate, hamp, hflt, -⟩ := h
  cases retrig
  · exact ⟨iff_of_false (by simp [voiceTrigger]) fun hk => hlegato rfl (hgate.mpr hk), hamp, hflt, .inl rfl, rfl, hkey,
      hnote, hc, hvel⟩
  · exact ⟨by simp [voiceTrigger, envTrigger, KeyUp], (nomatch ·), (nomatch ·), .inl rfl, rfl, hkey,
      hnote, hc, hvel⟩

/-- The lifecycle invariant of a voice is kept by all that commands do to it. -/
theorem voiceInvariant_voiceLegal {s : State} (h : registersLegal s = true) :
    VoiceInvariant s fun v => voiceLegal s.cfg.poolSize v = true where
  reset := voiceLegal_reset (globals_bounds h).1
  sustained _ hv hg := voiceLegal_sustained hv hg
  released _ hv := voiceLegal_release hv
  triggered _ _ _ _ _ _ _ _ _ hkey hnote hvel hc hlegato hv := voiceLegal_trigger hkey hnote hvel hc hlegato hv

/-- A tick keeps the lifecycle invariant: an active voice has been triggered, and its envelopes keep to their stages. -/
theorem voiceLegal_tickVoice {P : Nat} {s : State} {noise : F32} {glv : Option F32} {v : Voice}
    (h : voiceLegal P v = true) : voiceLegal P (tickVoice s noise glv v) = true := by
  unfold tickVoice
  split
  · exact h
  · next hactive =>
    rw [voiceRender_frame, voiceLegal_iff]
    rw [voiceLegal_iff] at h
    obtain ⟨hgate, -, -, hassigned, hrest⟩ := h
    refine ⟨hgate.trans (envAdvance_keyUp ..).symm, envAdvance_idle _ _ _ _ _ _ _, envAdvance_idle _ _ _ _ _ _ _, ?_,
      hrest⟩
    exact .inl (hassigned.resolve_right fun hv => hactive (by rw [hv]; rfl))

/-- The registers and the voices' lifecycle together, which a step keeps together. -/
def LifecycleOk (s : State) : Prop :=
  registersLegal s = true ∧ ∀ v ∈ s.voices, voiceLegal s.cfg.poolSize v = true

theorem voicesLegal_iff (s : State) : voicesLegal s = true ↔ ∀ v ∈ s.voices, voiceLegal s.cfg.poolSize v = true :=
  List.all_eq_true

/-- No command changes the construction parameters (R390). -/
theorem effect_cfg {i : Instr} {s t : State} (he : Effect s i t) : t.cfg = s.cfg := by
  cases he with
  | noteOn key x => rw [(noteOnState_frame key x s).1]
  | render n =>
    obtain ⟨rng, glfo, remain, takes, vs, frames, hrun, -⟩ := runRender_frame { s with remain := BitVec.ofNat 16 n }
    rw [hrun]
  | _ => rfl

theorem lifecycleOk_applyReset {s : State} (h : constructionLegal s.cfg = true) : LifecycleOk s.applyReset := by
  have hreg := registersLegal_applyReset h
  exact ⟨hreg, fun v hv => List.eq_of_mem_replicate hv ▸ voiceLegal_reset (globals_bounds hreg).1⟩

theorem lifecycleOk_tick {s : State} (h : LifecycleOk s) : LifecycleOk (tick s) := by
  refine ⟨registersLegal_tick h.1, ?_⟩
  rw [tick_voices, tick_cfg]
  exact List.forall_mem_map.mpr fun v hv => voiceLegal_tickVoice (h.2 v hv)

theorem lifecycleOk_of_effect {i : Instr} {s t : State} (he : Effect s i t) (hi : i.wellFormed = true)
    (hr : ∀ n, i ≠ .render n) (h : LifecycleOk s) : LifecycleOk t :=
  ⟨registersLegal_of_effect he h.1,
    effect_cfg he ▸ voices_keep_of_effect he (voiceInvariant_voiceLegal h.1) h.1 hi hr h.2⟩

/-- Every step keeps the registers legal and the voices in their lifecycle. -/
theorem lifecycleOk_step {s t : State} (h : LifecycleOk s) (hstep : step s = .next t) : LifecycleOk t :=
  step_keeps (fun _ _ _ _ hs => hs) (fun _ hs => lifecycleOk_applyReset (constructionLegal_of_registersLegal hs.1))
    (fun _ => lifecycleOk_tick)
    (fun w0 w1 _ _ hr hs he => lifecycleOk_of_effect (effect_of_exec he) (decode_wellFormed w0 w1) hr hs) s t h hstep

/-- Settles O57: every trigger, release and tick keeps one voice's lifecycle, and a step does nothing else to a voice. -/
theorem voicesStayLegal : Obligations.VoicesStayLegal := by
  intro s hreg hvoices
  obtain ⟨t, ht⟩ := exists_step_next s
  obtain ⟨hreg', hvoices'⟩ := lifecycleOk_step ⟨hreg, (voicesLegal_iff s).mp hvoices⟩ ht
  exact ⟨t, ht, hreg', (voicesLegal_iff t).mpr hvoices'⟩

end Sys2Proof.Machine
end

section
/-! PROOFS of the ranges of the noise, the envelopes' levels and the glide (41_envelope.md R173 to R178, 43_voice.md R231,
45_render_mixer.md R313). -/

namespace Sys2Proof.Machine

/-! ### The noise source -/

/-- A value that an LFO may sample and hold: in [-1.0, 1.0), as every noise sample is (R241). -/
def Holdable (x : F32) : Prop := x.isNaN = false ∧ -1 ≤ x.val ∧ x.val < 1

theorem Holdable.within {x : F32} (h : Holdable x) : Within (-1) 1 x := ⟨h.1, h.2.1, h.2.2.le⟩

/-- The noise sample is `k * 2^-23 - 1` exactly, `k` the upper 24 bits of the generator, so it lies in [-1.0, 1.0)
(R313). -/
theorem noiseSample_holdable (rng : Word) : Holdable (noiseSample rng) := by
  have hk : (rng >>> 8).toNat < 2 ^ 24 := by
    rw [BitVec.toNat_ushiftRight, Nat.shiftRight_eq_div_pow]
    have := rng.isLt
    omega
  unfold noiseSample
  generalize (rng >>> 8).toNat = k at hk
  have hkq : (k : ℚ) < 2 ^ 24 := by exact_mod_cast hk
  have hk0 : (0 : ℚ) ≤ k := by positivity
  have hint : (F32.ofInt (k : Int)).val = k := by
    rw [F32.ofInt_val (by omega)]; simp
  have hmul := F32.mul_rounds (x := F32.ofInt (k : Int)) (y := cTwoPowNeg23)
    (finite_of_int_bounds 0 (2 ^ 24) (by rw [hint]; exact_mod_cast hk0) (by rw [hint]; exact_mod_cast hkq.le)
      (by norm_num) (by norm_num)) (by decide)
  have hscaled := hmul.eq_of_rep k 126 (by omega) (by norm_num) (by rw [hint, cTwoPowNeg23_val]; push_cast; ring)
  rw [hint, cTwoPowNeg23_val] at hscaled
  have hsub := F32.sub_rounds (x := (F32.ofInt (k : Int)).mul cTwoPowNeg23) (y := c1)
    (finite_of_int_bounds 0 2 (by rw [hscaled]; push_cast; linarith) (by rw [hscaled]; push_cast; linarith)
      (by norm_num) (by norm_num)) (by decide)
  have hnoise := hsub.eq_of_rep ((k : Int) - 2 ^ 23) 126 (by omega) (by norm_num)
    (by rw [hscaled, c1_val]; push_cast; ring)
  rw [hscaled, c1_val] at hnoise
  exact ⟨hsub.notNaN, by rw [hnoise]; linarith, by rw [hnoise]; linarith⟩

/-! ### Envelope levels -/

/-- One rounding of a value of magnitude at most 4 exceeds it by at most 2^-20. -/
theorem rounds_le_add {v : ℚ} {x : F32} (h : F32.Rounds v x) (hv : |v| ≤ 4) : x.val ≤ v + 1 / 2 ^ 20 := by
  rw [abs_le] at hv
  have hscale : ∀ k : ℚ, k * 2 ^ 129 / 2 ^ 149 = k / 2 ^ 20 := fun k => by
    rw [show (2 : ℚ) ^ 149 = 2 ^ 20 * 2 ^ 129 by norm_num]; field_simp
  have hle := Int.le_ceil (v * 2 ^ 20)
  have hlt := Int.ceil_lt_add_one (v * 2 ^ 20)
  have hhi : ⌈v * 2 ^ 20⌉ ≤ 2 ^ 22 := by rw [Int.ceil_le]; push_cast; linarith
  have hlo : -2 ^ 22 ≤ ⌈v * 2 ^ 20⌉ := by
    have : ((-2 ^ 22 : Int) : ℚ) ≤ ⌈v * 2 ^ 20⌉ := le_trans (by push_cast; linarith) hle
    exact_mod_cast this
  have hrep := h.le_rep ⌈v * 2 ^ 20⌉ 129 (by omega) (by norm_num) (by
    rw [hscale, le_div_iff₀ (by positivity)]; exact hle)
  rw [hscale] at hrep
  refine hrep.trans ?_
  rw [div_le_iff₀ (by positivity), add_mul, one_div_mul_cancel (by positivity)]
  exact hlt.le

theorem unit_c0 : F32.within c0 c1 c0 = true := by decide +kernel
theorem unit_c1 : F32.within c0 c1 c1 = true := by decide +kernel

/-- A level that attacks stays in [0.0, 1.0]: it is set to 1.0 once it reaches it (R174). -/
theorem envAttackTick_level {level c : F32} (hl : F32.within c0 c1 level = true) (hc : F32.within c0 c1 c = true) :
    F32.within c0 c1 (envAttackTick level c).level = true := by
  rw [unit_iff] at hl hc
  obtain ⟨hln, hl0, hl1⟩ := hl
  obtain ⟨-, hc0, hc1⟩ := hc
  obtain ⟨hn, hup, -⟩ := approach_bounds (level := level) (target := cAttTarget) (unit_finite hl0 hl1) (by decide)
    (by rw [abs_of_nonneg hl0]; linarith) (by rw [cAttTarget_val]; norm_num) hc0 hc1
  unfold envAttackTick
  dsimp only
  split
  · exact unit_c1
  · next hlow =>
    rw [F32.le_iff, c1_val] at hlow
    have hlt := not_le.mp fun h => hlow ⟨c1_notNaN, hn, h⟩
    exact unit_iff.mpr ⟨hn, hl0.trans (hup (by rw [cAttTarget_val]; linarith)).1, hlt.le⟩

/-- A level at or below its target passes it in a decay tick by less than `EPS_ENV`, so the tick ends the decay. -/
theorem decay_from_below {level S c : F32} (hl0 : 0 ≤ level.val) (hS1 : S.val ≤ 1) (hlS : level.val ≤ S.val)
    (hc0 : 0 ≤ c.val) (hc1 : c.val ≤ 1) :
    F32.le ((level.add ((S.sub level).mul c)).sub S) cEpsEnv = true := by
  have hlf := unit_finite hl0 (hlS.trans hS1)
  have hSf := unit_finite (hl0.trans hlS) hS1
  have hd := F32.sub_rounds hSf hlf
  have hd0 : 0 ≤ (S.sub level).val := hd.nonneg (by linarith)
  have hd1 := rounds_le_add hd (by rw [abs_of_nonneg] <;> linarith)
  have hdf : (S.sub level).isFinite = true :=
    finite_of_int_bounds 0 2 (by exact_mod_cast hd0) (by push_cast; linarith) (by norm_num) (by norm_num)
  have hm := F32.mul_rounds hdf (unit_finite hc0 hc1)
  have hm0 : 0 ≤ ((S.sub level).mul c).val := hm.nonneg (mul_nonneg hd0 hc0)
  have hm1 : ((S.sub level).mul c).val ≤ (S.sub level).val := hm.le hd.notNaN (mul_le_of_le_one_right hd0 hc1)
  have hx := F32.add_rounds hlf
    (finite_of_int_bounds 0 2 (by exact_mod_cast hm0) (by push_cast; linarith) (by norm_num) (by norm_num))
  have hx0 : 0 ≤ (level.add ((S.sub level).mul c)).val := hx.nonneg (by linarith)
  have hx1 := rounds_le_add hx (by rw [abs_of_nonneg] <;> linarith)
  have hr := F32.sub_rounds
    (finite_of_int_bounds 0 4 (by exact_mod_cast hx0) (by push_cast; linarith) (by norm_num) (by norm_num)) hSf
  have hr1 := rounds_le_add hr (by rw [abs_le]; constructor <;> linarith)
  rw [F32.le_iff, cEpsEnv_val]
  exact ⟨hr.notNaN, cEpsEnv_notNaN, by norm_num at hd1 hx1 hr1 ⊢; linarith⟩

/-- A decay tick stays between the level and the sustain level above, or ends at the sustain level (R175). -/
theorem envDecayTick_level {level c S : F32} (hl : F32.within c0 c1 level = true) (hc : F32.within c0 c1 c = true)
    (hS : F32.within c0 c1 S = true) : F32.within c0 c1 (envDecayTick level c S).level = true := by
  have hSunit := hS
  rw [unit_iff] at hl hc hS
  obtain ⟨-, hl0, hl1⟩ := hl
  obtain ⟨-, hc0, hc1⟩ := hc
  obtain ⟨-, hS0, hS1⟩ := hS
  unfold envDecayTick
  dsimp only
  split
  · exact hSunit
  · next hgoes =>
    have hSl : S.val ≤ level.val := by
      by_contra hlt
      exact hgoes (by simp [decay_from_below hl0 hS1 (not_le.mp hlt).le hc0 hc1])
    obtain ⟨hn, -, hdown, hpos⟩ := approach_bounds (unit_finite hl0 hl1) (unit_finite hS0 hS1)
      (by rw [abs_of_nonneg hl0]; linarith) (by rw [abs_of_nonneg hS0]; linarith) hc0 hc1
    exact unit_iff.mpr ⟨hn, hpos hSl hS0, (hdown hSl).trans hl1⟩

/-- A release tick takes a part of the level away (R177). -/
theorem envReleaseTick_level {level c : F32} (hl : F32.within c0 c1 level = true) (hc : F32.within c0 c1 c = true) :
    F32.within c0 c1 (envReleaseTick level c).level = true := by
  rw [unit_iff] at hl hc
  obtain ⟨hln, hl0, hl1⟩ := hl
  obtain ⟨-, hc0, hc1⟩ := hc
  have hm := F32.mul_rounds (unit_finite hl0 hl1) (unit_finite hc0 hc1)
  have hm0 : 0 ≤ (level.mul c).val := hm.nonneg (mul_nonneg hl0 hc0)
  have hm1 : (level.mul c).val ≤ level.val := hm.le hln (mul_le_of_le_one_right hl0 hc1)
  have hs := F32.sub_rounds (unit_finite hl0 hl1) (unit_finite hm0 (hm1.trans hl1))
  unfold envReleaseTick
  dsimp only
  split
  · exact unit_c0
  · exact unit_iff.mpr ⟨hs.notNaN, hs.nonneg (by linarith), (hs.le hln (by linarith)).trans hl1⟩

/-- A tick keeps an envelope's level in [0.0, 1.0]. -/
theorem envAdvance_level {lib : TransLib} (hlib : LibOk lib) {fs A D S R : F32} {e : EnvState} (hf0 : 8000 ≤ fs.val)
    (hf1 : fs.val ≤ 192000) (hA : F32.within c0 c1 A = true) (hD : F32.within c0 c1 D = true)
    (hS : F32.within c0 c1 S = true) (hR : F32.within c0 c1 R = true) (he : F32.within c0 c1 e.level = true) :
    F32.within c0 c1 (envAdvance lib fs e A D S R).level = true := by
  have coefDr_unit : ∀ {p : F32}, F32.within c0 c1 p = true → F32.within c0 c1 (coefDr lib fs p) = true := fun hp =>
    unit_iff.mpr (coefDr_bounds hlib (unit_iff.mp hp).2.1 (unit_iff.mp hp).2.2 hf0 hf1)
  have coefAtt_unit : F32.within c0 c1 (coefAtt lib fs A) = true :=
    unit_iff.mpr (coefAtt_bounds hlib (unit_iff.mp hA).2.1 (unit_iff.mp hA).2.2 hf0 hf1)
  unfold envAdvance
  cases e.stage with
  | idle => exact unit_c0
  | attack => exact envAttackTick_level he coefAtt_unit
  | decay => exact envDecayTick_level he (coefDr_unit hD) hS
  | sustain => exact hS
  | release => exact envReleaseTick_level he (coefDr_unit hR)

/-- A parameter register whose row is 0.0 to 1.0. -/
theorem param_unit {s : State} (h : registersLegal s = true) {p : Param}
    (hp : (paramRow s.cfg.poolSize p).lo = c0 ∧ (paramRow s.cfg.poolSize p).hi = c1) :
    F32.within c0 c1 (s.param p) = true := by
  have hw := param_within h p
  rw [hp.1, hp.2, c0_val, c1_val] at hw
  exact unit_iff.mpr hw

/-- Both envelopes of a voice keep their levels in [0.0, 1.0]. -/
theorem advanceEnvelopes_levels {s : State} (hlib : LibOk s.cfg.lib) (h : registersLegal s = true) {v : Voice}
    (ha : F32.within c0 c1 v.amp.level = true) (hf : F32.within c0 c1 v.flt.level = true) :
    F32.within c0 c1 (advanceEnvelopes s v).amp.level = true ∧
    F32.within c0 c1 (advanceEnvelopes s v).flt.level = true := by
  obtain ⟨-, -, -, ⟨-, hf0, hf1⟩, -⟩ := globals_bounds h
  have hunit : ∀ {p : Param}, (paramRow s.cfg.poolSize p).lo = c0 ∧ (paramRow s.cfg.poolSize p).hi = c1 →
      F32.within c0 c1 (s.param p) = true := param_unit h
  constructor
  · exact envAdvance_level hlib hf0 hf1 (hunit ⟨rfl, rfl⟩) (hunit ⟨rfl, rfl⟩) (hunit ⟨rfl, rfl⟩) (hunit ⟨rfl, rfl⟩) ha
  · exact envAdvance_level hlib hf0 hf1 (hunit ⟨rfl, rfl⟩) (hunit ⟨rfl, rfl⟩) (hunit ⟨rfl, rfl⟩) (hunit ⟨rfl, rfl⟩) hf

/-! ### The glide -/

/-- The glide of a voice: its three pitches in range, and a counter that ends a glide in progress below 2^22 (R231). -/
def GlideOk (v : Voice) : Prop :=
  pitchLegal v.gp = true ∧ pitchLegal v.gfrom = true ∧ pitchLegal v.gto = true ∧ v.gn ≤ 2 ^ 22 ∧
  (F32.eq v.gp v.gto = true ∨ v.gn < 2 ^ 22)

theorem eq_self_of_notNaN {x : F32} (h : x.isNaN = false) : F32.eq x x = true := F32.eq_iff.mpr ⟨h, h, rfl⟩

/-- A part `r` of the way from `a` to `b` lies on `b`'s side of `a`. -/
theorem glide_side {a b r : F32} (ha : Within (-1) 128 a) (hb : Within (-1) 128 b) (hr : Within 0 1 r) :
    let x := a.add ((b.sub a).mul r)
    x.isNaN = false ∧ (a.val ≤ b.val → a.val ≤ x.val) ∧ (b.val ≤ a.val → x.val ≤ a.val) := by
  have haf := ha.finite (by norm_num) (by norm_num)
  have hrf := hr.finite (by norm_num) (by norm_num)
  have hd := F32.sub_rounds (hb.finite (by norm_num) (by norm_num)) haf
  have hdw := within_of_rounds hd (-129) 129 (by norm_num) (by norm_num)
    (by push_cast; linarith [ha.2.2, hb.2.1]) (by push_cast; linarith [ha.2.1, hb.2.2])
  push_cast at hdw
  have hm := F32.mul_rounds (hdw.finite (by norm_num) (by norm_num)) hrf
  have hmw : Within (-((129 * 1 : Nat) : ℚ)) ((129 * 1 : Nat) : ℚ) ((b.sub a).mul r) :=
    Within.mul (hdw.mono (by norm_num) (by norm_num)) (hr.mono (by norm_num) (by norm_num))
  have hx := F32.add_rounds haf (hmw.finite (by norm_num) (by norm_num))
  refine ⟨hx.notNaN, fun h => hx.ge ha.1 ?_, fun h => hx.le ha.1 ?_⟩
  · linarith [hm.nonneg (mul_nonneg (hd.nonneg (by linarith)) hr.2.1)]
  · linarith [hm.nonpos (mul_nonpos_of_nonpos_of_nonneg (hd.nonpos (by linarith)) hr.2.1)]

/-- The pitch of a glide in progress, stopped at its target, is a legal pitch (R231). -/
theorem glide_pitch {a b r : F32} (ha : pitchLegal a = true) (hb : pitchLegal b = true) (hr : Within 0 1 r) :
    let x := a.add ((b.sub a).mul r)
    pitchLegal (if F32.lt a b then F32.fmin x b else F32.fmax x b) = true := by
  rw [pitchLegal_iff] at ha hb
  obtain ⟨hn, hup, hdown⟩ := glide_side ha hb hr
  dsimp only
  rw [pitchLegal_iff]
  split
  · next hlt =>
    rw [F32.lt_iff] at hlt
    refine ⟨F32.fmin_notNaN hn hb.1, ?_, ?_⟩ <;> rw [F32.fmin_val hn hb.1]
    · exact le_min (ha.2.1.trans (hup hlt.2.2.le)) hb.2.1
    · exact (min_le_right _ _).trans hb.2.2
  · next hge =>
    have hba : b.val ≤ a.val := not_lt.mp fun h => hge (F32.lt_iff.mpr ⟨ha.1, hb.1, h⟩)
    refine ⟨F32.fmax_notNaN hn hb.1, ?_, ?_⟩ <;> rw [F32.fmax_val hn hb.1]
    · exact hb.2.1.trans (le_max_right _ _)
    · exact max_le ((hdown hba).trans ha.2.2) hb.2.2

/-- A glide step keeps the glide in range. A glide with portamento lasts at most 2^22 ticks, so a counter that has reached
2^22 has reached the target. -/
theorem glideStep_ok {s : State} (hlib : LibOk s.cfg.lib) (h : registersLegal s = true) {v : Voice} (hv : GlideOk v) :
    GlideOk (glideStep s v) := by
  have hg := hv
  obtain ⟨hgp, hgfrom, hgto, hgn, hend⟩ := hv
  have hton := (pitchLegal_iff.mp hgto).1
  unfold glideStep
  split
  · exact hg
  · next hmoving =>
    have hlt : v.gn < 2 ^ 22 := hend.resolve_left hmoving
    dsimp only
    rcases portaTime_cases hlib h with ⟨-, hT⟩ | ⟨-, hT, hticks⟩
    · rw [hT, if_pos (eq_self_of_notNaN c0_notNaN)]
      exact ⟨hgto, hgfrom, hgto, hgn, .inl (eq_self_of_notNaN hton)⟩
    · rw [if_neg (by simp [hT])]
      generalize (portaTime s).mul s.fs = ticks at hticks
      have hnq : (F32.ofInt ((v.gn + 1 : Nat) : Int)).val = ((v.gn + 1 : Nat) : ℚ) := by
        rw [F32.ofInt_val (by omega)]; simp
      have hn22 : ((v.gn + 1 : Nat) : ℚ) ≤ 2 ^ 22 := by exact_mod_cast hlt
      have hpos : 0 < ticks.val := by linarith [hticks.2.1]
      have hr := F32.div_rounds (x := F32.ofInt ((v.gn + 1 : Nat) : Int))
        (finite_of_int_bounds 0 (2 ^ 22) (by rw [hnq]; push_cast; positivity) (by rw [hnq]; exact_mod_cast hn22)
          (by norm_num) (by norm_num)) (hticks.finite (by norm_num) (by norm_num)) hpos.ne'
      rw [hnq] at hr
      split
      · exact ⟨hgto, hgfrom, hgto, hlt, .inl (eq_self_of_notNaN hton)⟩
      · next hrun =>
        rw [F32.le_iff, c1_val] at hrun
        have hr1 : ((F32.ofInt ((v.gn + 1 : Nat) : Int)).div ticks).val < 1 :=
          not_le.mp fun hc => hrun ⟨c1_notNaN, hr.notNaN, hc⟩
        have hbelow : v.gn + 1 < 2 ^ 22 := by
          by_contra hc
          have hge : (2 : ℚ) ^ 22 ≤ ((v.gn + 1 : Nat) : ℚ) := by exact_mod_cast not_lt.mp hc
          have := hr.ge_int 1 (by norm_num) (by
            rw [Int.cast_one, one_le_div hpos]; exact hticks.2.2.trans hge)
          rw [Int.cast_one] at this
          linarith
        refine ⟨?_, hgfrom, hgto, hlt, .inr hbelow⟩
        exact glide_pitch hgfrom hgto ⟨hr.notNaN, hr.nonneg (by positivity), hr1.le⟩

end Sys2Proof.Machine
end

section
/-! PROOFS of the ranges of the LFOs and the oscillators (40_oscillator.md R130 to R139, 43_voice.md R234 to R242,
45_render_mixer.md R319). -/

namespace Sys2Proof.Machine

/-! ### The LFOs -/

theorem lfoLegal_iff (l : LfoState) :
    lfoLegal l = true ↔ phaseLegal l.phase = true ∧ l.sh.isNaN = false ∧ -1 ≤ l.sh.val ∧ l.sh.val < 1 := by
  simp only [lfoLegal, Bool.and_eq_true, F32.le_iff, F32.lt_iff, cNeg1_notNaN, cNeg1_val, c1_notNaN, c1_val]
  tauto

/-- A phase advanced by at most one half and wrapped once is a phase (R131, R241). -/
theorem wrappedPhase_legal {ph d : F32} (hp : phaseLegal ph = true) (hd : Within 0 (1 / 2) d) :
    phaseLegal (if F32.le c1 (ph.add d) = true then (ph.add d).sub c1 else ph.add d) = true := by
  obtain ⟨⟨hn, h0, hhi⟩, -⟩ := phaseSum_within hp hd
  split
  · next hwrap =>
    have h1 : 1 ≤ (ph.add d).val := by simpa using (F32.le_iff.mp hwrap).2.2
    obtain ⟨hn', hv⟩ := wrap_exact h1 (by linarith)
    exact phaseLegal_iff.mpr ⟨hn', by rw [hv]; linarith, by rw [hv]; linarith⟩
  · next hwrap =>
    have hlt : (ph.add d).val < 1 := not_le.mp fun h => hwrap (F32.le_iff.mpr ⟨c1_notNaN, hn, by simpa using h⟩)
    exact phaseLegal_iff.mpr ⟨hn, h0, hlt⟩

/-- The sine's argument `TWO_PI * q` lies in [0.0, 7.0], so its value lies in [-1.0, 1.0] (R242). -/
theorem lfoSine_within {lib : TransLib} (hlib : LibOk lib) {q : F32} (hq : phaseLegal q = true) :
    Within (-1) 1 (lib.sin (cTwoPi.mul q)) := by
  rw [phaseLegal_iff] at hq
  have hm := F32.mul_rounds (x := cTwoPi) (by decide) (unit_finite hq.2.1 hq.2.2.le)
  have hw := within_of_rounds hm 0 7 (by norm_num) (by norm_num)
    (by push_cast; exact mul_nonneg (by norm_num) hq.2.1)
    (by rw [cTwoPi_val]; push_cast; linarith [hq.2.2])
  push_cast at hw
  exact hlib.sin_bounds _ hw.1 hw.2.1 hw.2.2

/-- An LFO's tick keeps its state legal and gives a value in [-1.0, 1.0] (R241, R242). -/
theorem lfoAdvance_ok {s : State} (hlib : LibOk s.cfg.lib) (h : registersLegal s = true) {l : LfoState} {noise : F32}
    (hnoise : Holdable noise) (hl : lfoLegal l = true) :
    lfoLegal (lfoAdvance s l noise).1 = true ∧ Within (-1) 1 (lfoAdvance s l noise).2 := by
  obtain ⟨hphase, hsh⟩ := (lfoLegal_iff l).mp hl
  have hq := wrappedPhase_legal hphase ((lfoInc_within hlib h).mono le_rfl (by norm_num))
  unfold lfoAdvance
  dsimp only
  generalize (if F32.le c1 (l.phase.add ((lfoHz s).div s.fs)) = true then (l.phase.add ((lfoHz s).div s.fs)).sub c1
    else l.phase.add ((lfoHz s).div s.fs)) = q at hq ⊢
  split_ifs with hsine hsquare hhigh hwrapped
  · exact ⟨(lfoLegal_iff _).mpr ⟨hq, hsh⟩, lfoSine_within hlib hq⟩
  · exact ⟨(lfoLegal_iff _).mpr ⟨hq, hsh⟩, within_c1⟩
  · exact ⟨(lfoLegal_iff _).mpr ⟨hq, hsh⟩, within_cNeg1⟩
  · exact ⟨(lfoLegal_iff _).mpr ⟨hq, hnoise⟩, hnoise.within⟩
  · exact ⟨(lfoLegal_iff _).mpr ⟨hq, hsh⟩, Holdable.within hsh⟩

/-- The global LFO stays legal, and its value, where there is one, lies in [-1.0, 1.0] (R319). -/
theorem globalLfo_ok {s : State} (hlib : LibOk s.cfg.lib) (h : registersLegal s = true) {noise : F32}
    (hnoise : Holdable noise) (hg : lfoLegal s.glfo = true) :
    lfoLegal (globalLfo s noise).1 = true ∧ ∀ x, (globalLfo s noise).2 = some x → Within (-1) 1 x := by
  obtain ⟨hstate, hvalue⟩ := lfoAdvance_ok hlib h hnoise hg
  unfold globalLfo
  split
  · exact ⟨hstate, fun x hx => Option.some.inj hx ▸ hvalue⟩
  · exact ⟨hg, fun x hx => nomatch hx⟩

/-- A voice's LFO stays legal, and the value the voice uses lies in [-1.0, 1.0] (R234). -/
theorem voiceLfo_ok {s : State} (hlib : LibOk s.cfg.lib) (h : registersLegal s = true) {v : Voice} {noise : F32}
    (hnoise : Holdable noise) {glv : Option F32} (hglv : ∀ x, glv = some x → Within (-1) 1 x)
    (hl : lfoLegal v.lfo = true) :
    lfoLegal (voiceLfo s v noise glv).1.lfo = true ∧ Within (-1) 1 (voiceLfo s v noise glv).2 := by
  cases glv with
  | none => exact lfoAdvance_ok hlib h hnoise hl
  | some x => exact ⟨hl, hglv x rfl⟩

/-! ### The oscillators -/

/-- An oscillator's state: its phase in [0.0, 1.0), its pending sample within [-8.0, 8.0]. -/
def OscOk (o : OscState) : Prop := phaseLegal o.phase = true ∧ F32.within (c0.sub c8) c8 o.pend = true

theorem pend_within_iff {x : F32} : F32.within (c0.sub c8) c8 x = true ↔ Within (-8) 8 x := by
  have hneg : c0.sub c8 = ⟨0xC1000000#32⟩ := by decide +kernel
  have hval : (⟨0xC1000000#32⟩ : F32).val = -8 := by
    rw [F32.val, show (⟨0xC1000000#32⟩ : F32).units = -8 * 2 ^ 149 by decide +kernel]; norm_num
  have hn : (⟨0xC1000000#32⟩ : F32).isNaN = false := by decide
  rw [F32.within_iff, hneg, hval, c8_val, hn]
  simp [Within]

/-- The path of a tick, free or synchronised: its new phase and its at most five events. -/
theorem oscPath_ok {o : OscState} {dt : F32} (w : Waveform) {pw : F32} (sd : Option F32) (hp : phaseLegal o.phase = true)
    (hd : F32.within cDtMin cDtMax dt = true) (hw : F32.within cPwMin cPwMax pw = true)
    (hsd : ∀ d, sd = some d → Within 0 1 d) :
    let path := match sd with
      | none => freePath o dt w pw
      | some d => syncPath o dt w pw d
    phaseLegal path.newPhase = true ∧ path.events.length ≤ 5 ∧ (∀ e ∈ path.events, EventOk e) ∧
      ∀ md, path.md = some md → Within 0 1 md := by
  cases sd with
  | none =>
    obtain ⟨hphase, hlen, hevents, hmd⟩ := freePath_ok w hp hd hw
    exact ⟨hphase, hlen.trans (by norm_num), hevents, hmd⟩
  | some d =>
    obtain ⟨hphase, hlen, hevents⟩ := syncPath_ok w hp hd hw (hsd d rfl)
    exact ⟨hphase, hlen, hevents, fun md hmd => nomatch hmd⟩

/-- The residual sums of at most five events stay within five units. -/
theorem blepSums_five {ev : List StepEvent} (h : ∀ e ∈ ev, EventOk e) (hlen : ev.length ≤ 5) :
    Within (-5) 5 (blepSums ev).1 ∧ Within (-5) 5 (blepSums ev).2 := by
  have hq : (ev.length : ℚ) ≤ 5 := by exact_mod_cast hlen
  obtain ⟨hprev, hcur⟩ := blepSums_within ev h (by omega)
  exact ⟨hprev.mono (by linarith) hq, hcur.mono (by linarith) hq⟩

theorem clamp_unit_within {x : F32} (hx : x.isNaN = false) : Within (-1) 1 (F32.clamp x cNeg1 c1) := by
  have h := F32.within_of_clamp (lo := cNeg1) (hi := c1) hx cNeg1_notNaN c1_notNaN (by norm_num)
  rwa [cNeg1_val, c1_val] at h

/-- A tick of an oscillator keeps its state in range and gives a sample in [-1.0, 1.0] and a possible wrap position. -/
theorem oscAdvance_ok {o : OscState} {dt : F32} (w : Waveform) {pw : F32} (sd : Option F32) (ho : OscOk o)
    (hd : F32.within cDtMin cDtMax dt = true) (hw : F32.within cPwMin cPwMax pw = true)
    (hsd : ∀ d, sd = some d → Within 0 1 d) :
    OscOk (oscAdvance o dt w pw sd).osc ∧ Within (-1) 1 (oscAdvance o dt w pw sd).out ∧
    ∀ md, (oscAdvance o dt w pw sd).md = some md → Within 0 1 md := by
  obtain ⟨hphase, hpend⟩ := ho
  rw [pend_within_iff] at hpend
  obtain ⟨hnew, hlen, hevents, hmd⟩ := oscPath_ok w sd hphase hd hw hsd
  unfold oscAdvance
  dsimp only at hnew hlen hevents hmd ⊢
  obtain ⟨hprev, hcur⟩ := blepSums_five hevents hlen
  have hq := phaseLegal_iff.mp hnew
  have hwave := waveValue_within w pw hq.2.1 hq.2.2.le
  have hpend' : Within ((-1 + -5 : Int) : ℚ) ((1 + 5 : Int) : ℚ) _ :=
    Within.add (hwave.mono (by norm_num) (by norm_num)) (hcur.mono (by norm_num) (by norm_num))
  have hout : Within ((-8 + -5 : Int) : ℚ) ((8 + 5 : Int) : ℚ) _ :=
    Within.add (hpend.mono (by norm_num) (by norm_num)) (hprev.mono (by norm_num) (by norm_num))
  exact ⟨⟨hnew, pend_within_iff.mpr (hpend'.mono (by norm_num) (by norm_num))⟩, clamp_unit_within hout.1, hmd⟩

/-- A pitch between -87 and 214 semitones has a phase increment in [`DT_MIN`, `DT_MAX`] (R236). -/
theorem pitchDt_within {s : State} (hlib : LibOk s.cfg.lib) (h : registersLegal s = true) {p : F32}
    (hp : Within (-87) 214 p) : F32.within cDtMin cDtMax (pitchDt s p) = true := by
  obtain ⟨-, -, -, ⟨-, hf0, hf1⟩, -⟩ := globals_bounds h
  have hsub : Within ((-87 - 69 : Int) : ℚ) ((214 - 69 : Int) : ℚ) (p.sub c69) :=
    Within.sub (hp.mono (by norm_num) (by norm_num)) ⟨c69_notNaN, by norm_num, by norm_num⟩
  have hdiv := F32.div_rounds (hsub.finite (by norm_num) (by norm_num)) (y := c12) (by decide) (by norm_num)
  rw [c12_val] at hdiv
  have hoct := within_of_rounds hdiv (-13) 13 (by norm_num) (by norm_num)
    (by rw [le_div_iff₀ (by norm_num)]; have := hsub.2.1; push_cast at this ⊢; linarith)
    (by rw [div_le_iff₀ (by norm_num)]; have := hsub.2.2; push_cast at this ⊢; linarith)
  have hexp0 := hlib.exp2_nonneg _ hoct.1
  have hexp1 := hlib.exp2_le _ 13 hoct.1 (by norm_num) (by norm_num) (by exact_mod_cast hoct.2.2)
  have hexp : Within (-((2 ^ 13 : Nat) : ℚ)) ((2 ^ 13 : Nat) : ℚ) (s.cfg.lib.exp2 ((p.sub c69).div c12)) :=
    ⟨hlib.exp2_notNaN _ hoct.1, by push_cast; linarith, by push_cast; exact_mod_cast hexp1⟩
  have hmul := Within.mul (m := 440) (x := c440) ⟨c440_notNaN, by norm_num, by norm_num⟩ hexp
  have hdt := F32.div_rounds (hmul.finite (by norm_num) (by norm_num))
    (finite_of_int_bounds 8000 192000 (by exact_mod_cast hf0) (by exact_mod_cast hf1) (by norm_num) (by norm_num))
    (by linarith)
  exact F32.clamp_within hdt.notNaN cDtMin_notNaN cDtMax_notNaN (by norm_num)

/-- A modulated pulse width lies in [`PW_MIN`, `PW_MAX`] (R237). -/
theorem pulseWidth_within {s : State} {p : Param} {lm : F32} (hp : Within (-1) 1 (s.param p)) (hlm : Within (-1) 1 lm) :
    F32.within cPwMin cPwMax (pulseWidth s p lm) = true := by
  have hdepth : Within (-1) 1 cLfoPwDepth := ⟨cLfoPwDepth_notNaN, by norm_num, by norm_num⟩
  have hmod : Within (-1) 1 (if s.switch .lfoDestPw = true then lm.mul cLfoPwDepth else c0) :=
    within_ite (hlm.mul_unit hdepth) (within_c0.mono (by norm_num) (by norm_num))
  have hsum : Within ((-1 + -1 : Int) : ℚ) ((1 + 1 : Int) : ℚ) _ :=
    Within.add (hp.mono (by norm_num) (by norm_num)) (hmod.mono (by norm_num) (by norm_num))
  exact F32.clamp_within hsum.1 cPwMin_notNaN cPwMax_notNaN (by norm_num)

/-- Both oscillators of a voice stay in range, and the mix lies in [-1.0, 1.0] (R235 to R239). -/
theorem renderOscillators_ok {s : State} (hlib : LibOk s.cfg.lib) (h : registersLegal s = true) {v : Voice}
    {noise fenv lm : F32} (hnoise : Within (-1) 1 noise) (hfenv : F32.within c0 c1 fenv = true) (hlm : Within (-1) 1 lm)
    (hgp : pitchLegal v.gp = true) (hcopy : v.copy < v.uniN ∧ v.uniN ≤ 32) (h1 : OscOk v.osc1) (h2 : OscOk v.osc2) :
    OscOk (renderOscillators s v noise fenv lm).1.osc1 ∧ OscOk (renderOscillators s v noise fenv lm).1.osc2 ∧
    Within (-1) 1 (renderOscillators s v noise fenv lm).2 := by
  obtain ⟨hp1, hp2⟩ := pitches_within h hfenv hlm hgp hcopy.1 hcopy.2
  have hpw1 := param_within h .osc1Pw
  have hpw2 := param_within h .osc2Pw
  simp only [paramRow] at hpw1 hpw2
  obtain ⟨hosc1, hout1, hmd1⟩ := oscAdvance_ok (waveformOfInt (s.paramInt .osc1Wave)) none h1 (pitchDt_within hlib h hp1)
    (pulseWidth_within (hpw1.mono (by norm_num) (by norm_num)) hlm) (fun d hd => nomatch hd)
  unfold renderOscillators
  dsimp only
  generalize oscAdvance v.osc1 (pitchDt s (pitch1 s v fenv lm)) (waveformOfInt (s.paramInt .osc1Wave))
    (pulseWidth s .osc1Pw lm) none = r1 at hosc1 hout1 hmd1 ⊢
  have hsd : ∀ d, (if s.switch .oscSync = true then r1.md else none) = some d → Within 0 1 d := by
    intro d hd
    split at hd
    · exact hmd1 d hd
    · cases hd
  obtain ⟨hosc2, hout2, -⟩ := oscAdvance_ok (waveformOfInt (s.paramInt .osc2Wave)) _ h2 (pitchDt_within hlib h hp2)
    (pulseWidth_within (hpw2.mono (by norm_num) (by norm_num)) hlm) hsd
  exact ⟨hosc1, hosc2, mixSources_within h hout1 hout2 hnoise⟩

end Sys2Proof.Machine
end

section
/-! PROOFS that every step keeps the datapath bounded: the filter, the voice, the tick and its sample, the step
(42_filter.md R203 to R209, 43_voice.md R230, R250, 45_render_mixer.md R311 to R320, 10_state.md R51). -/

namespace Sys2Proof.Machine

/-! ### The filter -/

/-- The damping lies in [-0.05, 2.0] (R205). -/
theorem filterK_within {s : State} (h : registersLegal s = true) : Within (-1 / 20) 2 (filterK s) := by
  have hres := param_within h .resonance
  simp only [paramRow, c0_val, c1_val] at hres
  have hscale : Within 0 (2139095 / 1048576) (if s.switch .selfOsc = true then cKSelf else cKNorm) :=
    within_ite ⟨cKSelf_notNaN, by norm_num, by norm_num⟩ ⟨cKNorm_notNaN, by norm_num, by norm_num⟩
  unfold filterK
  generalize (if s.switch .selfOsc = true then cKSelf else cKNorm) = scale at hscale
  have hm := F32.mul_rounds (hscale.finite (by norm_num) (by norm_num)) (hres.finite (by norm_num) (by norm_num))
  have hm0 : 0 ≤ (scale.mul (s.param .resonance)).val := hm.nonneg (mul_nonneg hscale.2.1 hres.2.1)
  have hm1 : (scale.mul (s.param .resonance)).val ≤ 2139095 / 1048576 := by
    have := hm.le cKSelf_notNaN (by rw [cKSelf_val]; nlinarith [hscale.2.1, hscale.2.2, hres.2.1, hres.2.2])
    rwa [cKSelf_val] at this
  have hs := F32.sub_rounds (x := c2) (by decide)
    (finite_of_int_bounds 0 3 (by exact_mod_cast hm0) (by push_cast; linarith) (by norm_num) (by norm_num))
  rw [c2_val] at hs
  refine ⟨hs.notNaN, ?_, ?_⟩
  · have := hs.ge_rep (-3) 143 (by norm_num) (by norm_num) (by norm_num; linarith)
    norm_num at this ⊢; linarith
  · have := hs.le_int 2 (by norm_num) (by push_cast; linarith)
    exact_mod_cast this

/-- The exponent of the cutoff frequency is no NaN (R203). -/
theorem cutoffExponent_notNaN {s : State} (h : registersLegal s = true) {fenv gp lm : F32} (c : Bool)
    (hfenv : F32.within c0 c1 fenv = true) (hgp : pitchLegal gp = true) (hlm : Within (-1) 1 lm) :
    ((((cLog2_20.add ((s.param .cutoff).mul cLog2_1000)).add (((s.param .filterEnvAmt).mul c10).mul fenv)).add
      (((s.param .keyFollow).mul (gp.sub c60)).div c12)).add (if c = true then lm.mul c4 else c0)).isNaN = false := by
  have hcut := param_within h .cutoff
  have hamt := param_within h .filterEnvAmt
  have hkey := param_within h .keyFollow
  simp only [paramRow, c0_val, c1_val, cNeg1_val] at hcut hamt hkey
  rw [unit_iff] at hfenv
  rw [pitchLegal_iff] at hgp
  have one : ∀ {x : F32}, Within (-1) 1 x → F32.Small 0 x := fun hx =>
    F32.Small.of_bounds hx.1 (by simpa using hx.2.1) (by simpa using hx.2.2)
  have const : ∀ {x : F32}, x.isNaN = false → |x.val| ≤ 2 ^ 4 → F32.Small 4 x := fun hn hv => ⟨hn, hv⟩
  have h1 := (const cLog2_20_notNaN (by norm_num [abs_le])).add
    (((one (hcut.mono (by norm_num) le_rfl)).mul (const cLog2_1000_notNaN (by norm_num [abs_le])) (by norm_num)).mono
      (n := 4) (by norm_num)) (by norm_num)
  have h2 := ((one hamt).mul (const c10_notNaN (by norm_num [abs_le])) (by norm_num)).mul
    (one ⟨hfenv.1, by linarith [hfenv.2.1], hfenv.2.2⟩) (by norm_num)
  have hgps : F32.Small 7 gp := F32.Small.of_bounds hgp.1 (by linarith [hgp.2.1]) (by linarith [hgp.2.2])
  have h3 := ((one (hkey.mono (by norm_num) le_rfl)).mul
    (hgps.sub (F32.Small.of_bounds (n := 7) c60_notNaN (by norm_num) (by norm_num)) (by norm_num)) (by norm_num)).div
      (k := 0) (y := c12) (by decide) (by norm_num [abs_of_pos]) (by norm_num)
  have h4 : F32.Small 4 (if c = true then lm.mul c4 else c0) := by
    cases c
    · exact const c0_notNaN (by norm_num)
    · exact ((one hlm).mul (const c4_notNaN (by norm_num [abs_le])) (by norm_num)).mono (by norm_num)
  exact ((((h1.mono (n := 8) (by norm_num)).add (h2.mono (by norm_num)) (by norm_num)).add (h3.mono (by norm_num))
    (by norm_num)).add (h4.mono (by norm_num)) (by norm_num)).notNaN

/-- The cutoff frequency is not negative and at most `NYQ_FRAC * FS` (R203). -/
theorem cutoffHz_bounds {s : State} (hlib : LibOk s.cfg.lib) (h : registersLegal s = true) {fenv gp lm : F32}
    (hfenv : F32.within c0 c1 fenv = true) (hgp : pitchLegal gp = true) (hlm : Within (-1) 1 lm) :
    0 ≤ (cutoffHz s fenv gp lm).val ∧ (cutoffHz s fenv gp lm).val ≤ (cNyqFrac.mul s.fs).val := by
  obtain ⟨-, -, -, ⟨-, hf0, hf1⟩, -⟩ := globals_bounds h
  have hexp := hlib.exp2_notNaN _ (cutoffExponent_notNaN h (s.switch .lfoDestFilter) hfenv hgp hlm)
  have hnyq := F32.mul_rounds (x := cNyqFrac) (by decide)
    (finite_of_int_bounds 8000 192000 (by exact_mod_cast hf0) (by exact_mod_cast hf1) (by norm_num) (by norm_num))
  have hmax := F32.fmax_notNaN hexp cFcMin_notNaN
  unfold cutoffHz
  dsimp only
  rw [F32.fmin_val hmax hnyq.notNaN, F32.fmax_val hexp cFcMin_notNaN]
  refine ⟨le_min ((by norm_num : (0 : ℚ) ≤ cFcMin.val).trans (le_max_right _ _)) ?_, min_le_right _ _⟩
  exact hnyq.nonneg (mul_nonneg (by norm_num) (by linarith))

/-- The frequency coefficient lies in [0.0, 8.0] (R204). -/
theorem filterG_within {s : State} (hlib : LibOk s.cfg.lib) (h : registersLegal s = true) {fenv gp lm : F32}
    (hfenv : F32.within c0 c1 fenv = true) (hgp : pitchLegal gp = true) (hlm : Within (-1) 1 lm) :
    Within 0 8 (filterG s (cutoffHz s fenv gp lm)) := by
  obtain ⟨-, -, -, ⟨-, hf0, hf1⟩, -⟩ := globals_bounds h
  obtain ⟨hc0, hc1⟩ := cutoffHz_bounds hlib h hfenv hgp hlm
  obtain ⟨hn, ha0, ha1⟩ := tanArg_bounds hc0 hc1 hf0 hf1
  exact hlib.tan_bounds _ hn ha0 ha1

/-- A stage's two integrators within `[-FILT_LIM, FILT_LIM]`. -/
def SvfOk (s : SvfState) : Prop := filtLegal s.ic1 = true ∧ filtLegal s.ic2 = true

/-- A stage keeps its integrators in range, and so is the tap of every mode (R206, R207). -/
theorem svf_ok {st : SvfState} {x g kk : F32} (hs : SvfOk st) (hx : F32.Small 1 x) (hg : Within 0 8 g)
    (hk : Within (-1 / 20) 2 kk) (mode : Int) :
    SvfOk (svf st x g kk).1 ∧ filtLegal (pickTap mode (svf st x g kk).2) = true := by
  obtain ⟨h1, h2, hlp, hbp, hhp⟩ := svf_bounded hs.1 hs.2 hx hg.1 hg.2.1 hg.2.2 hk.1 hk.2.1 hk.2.2
  refine ⟨⟨h1, h2⟩, ?_⟩
  rcases pickTap_cases mode (svf st x g kk).2 with h | h | h <;> rw [h] <;> assumption

/-- The filter keeps both its stages in range, and its output is in their range (R207, R209). -/
theorem filterProcess_ok {f : FilterState} {x g k : F32} (hf : SvfOk f.s1 ∧ SvfOk f.s2) (hx : Within (-1) 1 x)
    (hg : Within 0 8 g) (hk : Within (-1 / 20) 2 k) (mode : Int) :
    (SvfOk (filterProcess f x g k mode).1.s1 ∧ SvfOk (filterProcess f x g k mode).1.s2) ∧
    filtLegal (filterProcess f x g k mode).2 = true := by
  have hx1 : F32.Small 1 x := F32.Small.of_bounds hx.1 (by linarith [hx.2.1]) (by linarith [hx.2.2])
  have hk2 : Within (-1 / 20) 2 c2 := ⟨c2_notNaN, by norm_num, by norm_num⟩
  unfold filterProcess
  split
  · obtain ⟨hs, htap⟩ := svf_ok hf.1 hx1 hg hk mode
    exact ⟨⟨hs, hf.2⟩, htap⟩
  · obtain ⟨hs1, htap1⟩ := svf_ok hf.1 hx1 hg hk2 mode
    obtain ⟨hs2, htap2⟩ := svf_ok hf.2 (filtLegal_small htap1) hg hk mode
    exact ⟨⟨hs1, hs2⟩, htap2⟩

/-! ### One voice -/

/-- The numerical invariant of one voice, part by part. -/
theorem voiceBounded_iff (v : Voice) :
    voiceBounded v = true ↔
      (F32.within c0 c1 v.amp.level = true ∧ F32.within c0 c1 v.flt.level = true) ∧ (OscOk v.osc1 ∧ OscOk v.osc2) ∧
      lfoLegal v.lfo = true ∧ (SvfOk v.filt.s1 ∧ SvfOk v.filt.s2) ∧ GlideOk v := by
  simp only [voiceBounded, OscOk, SvfOk, GlideOk, Bool.and_eq_true, Bool.or_eq_true, decide_eq_true_eq, and_assoc]
  constructor
  · rintro ⟨hamp, hflt, hph1, hph2, hpend1, hpend2, hrest⟩
    exact ⟨hamp, hflt, hph1, hpend1, hph2, hpend2, hrest⟩
  · rintro ⟨hamp, hflt, hph1, hpend1, hph2, hpend2, hrest⟩
    exact ⟨hamp, hflt, hph1, hph2, hpend1, hpend2, hrest⟩

/-- A voice's output lies in [-2.0, 2.0]: the filter's output scaled by an envelope and the unison gain (R244, R245). -/
theorem renderFilter_ok {s : State} (hlib : LibOk s.cfg.lib) (h : registersLegal s = true) {v : Voice}
    {mix aenv fenv lm : F32} (hmix : Within (-1) 1 mix) (haenv : F32.within c0 c1 aenv = true)
    (hfenv : F32.within c0 c1 fenv = true) (hlm : Within (-1) 1 lm) (hgp : pitchLegal v.gp = true)
    (hN : 1 ≤ v.uniN ∧ v.uniN ≤ 32) (hf : SvfOk v.filt.s1 ∧ SvfOk v.filt.s2) :
    (SvfOk (renderFilter s v mix aenv fenv lm).1.filt.s1 ∧ SvfOk (renderFilter s v mix aenv fenv lm).1.filt.s2) ∧
    Within (-2) 2 (renderFilter s v mix aenv fenv lm).2 := by
  obtain ⟨hfilt, hout⟩ := filterProcess_ok hf hmix (filterG_within hlib h hfenv hgp hlm) (filterK_within h)
    (s.paramInt .filterMode)
  refine ⟨hfilt, ?_⟩
  unfold renderFilter
  dsimp only
  rw [filtLegal_iff] at hout
  rw [unit_iff] at haenv
  have hgain : Within (-((1 : Nat) : ℚ)) ((1 : Nat) : ℚ) (c1.div (F32.ofInt (v.uniN : Int))) := by
    have hval : (F32.ofInt (v.uniN : Int)).val = (v.uniN : ℚ) := by rw [F32.ofInt_val (by omega)]; simp
    have h1 : (1 : ℚ) ≤ v.uniN := by exact_mod_cast hN.1
    have h32 : (v.uniN : ℚ) ≤ 32 := by exact_mod_cast hN.2
    have hd := F32.div_rounds (x := c1) (y := F32.ofInt (v.uniN : Int)) (by decide)
      (finite_of_int_bounds 1 32 (by rw [hval]; exact_mod_cast h1) (by rw [hval]; exact_mod_cast h32)
        (by norm_num) (by norm_num)) (by rw [hval]; linarith)
    rw [hval, c1_val] at hd
    have := within_of_rounds hd 0 1 (by norm_num) (by norm_num) (by push_cast; positivity)
      (by push_cast; rw [div_le_one (by linarith)]; exact h1)
    exact this.mono (by norm_num) (by norm_num)
  generalize (filterProcess v.filt mix (filterG s (cutoffHz s fenv v.gp lm)) (filterK s) (s.paramInt .filterMode)).2 = y
    at hout ⊢
  have htwo : Within (-((2 : Nat) : ℚ)) ((2 : Nat) : ℚ) y :=
    ⟨hout.1, by push_cast; linarith [hout.2.1], by push_cast; linarith [hout.2.2]⟩
  have hone : Within (-((1 : Nat) : ℚ)) ((1 : Nat) : ℚ) aenv :=
    ⟨haenv.1, by push_cast; linarith [haenv.2.1], by push_cast; exact haenv.2.2⟩
  exact ((htwo.mul hone).mul hgain).mono (by norm_num) (by norm_num)

/-- A voice that can be rendered: the numerical invariant, and the ranges of its unison copy and velocity. -/
structure Renderable (v : Voice) : Prop where
  bounded : voiceBounded v = true
  copy : v.copy < v.uniN ∧ v.uniN ≤ 32
  vel : F32.within c0 c1 v.vel = true

/-- A voice legal in a pool of at most 32. -/
theorem Renderable.of_legal {P : Nat} (hP : P ≤ 32) {v : Voice} (hlegal : voiceLegal P v = true)
    (hv : voiceBounded v = true) : Renderable v := by
  obtain ⟨-, -, -, -, -, -, -, ⟨hcopy, huni⟩, hvel, -⟩ := (voiceLegal_iff P v).mp hlegal
  exact ⟨hv, ⟨hcopy, huni.trans hP⟩, hvel⟩

theorem Renderable.pitchLegal_gp {v : Voice} (hv : Renderable v) : pitchLegal v.gp = true := by
  obtain ⟨-, -, -, -, hglide⟩ := (voiceBounded_iff v).mp hv.bounded
  exact hglide.1

theorem renderable_glideStep {s : State} (hlib : LibOk s.cfg.lib) (h : registersLegal s = true) {v : Voice}
    (hv : Renderable v) : Renderable (glideStep s v) := by
  obtain ⟨henv, hosc, hlfo, hfilt, hglide⟩ := (voiceBounded_iff v).mp hv.bounded
  have hglide' := glideStep_ok hlib h hglide
  have hframe := glideStep_frame s v
  generalize glideStep s v = w at hframe hglide' ⊢
  refine ⟨(voiceBounded_iff w).mpr ⟨?_, ?_, ?_, ?_, hglide'⟩, ?_, ?_⟩ <;> rw [hframe]
  exacts [henv, hosc, hlfo, hfilt, hv.copy, hv.vel]

theorem renderable_advanceEnvelopes {s : State} (hlib : LibOk s.cfg.lib) (h : registersLegal s = true) {v : Voice}
    (hv : Renderable v) : Renderable (advanceEnvelopes s v) := by
  obtain ⟨⟨hamp, hflt⟩, hrest⟩ := (voiceBounded_iff v).mp hv.bounded
  exact ⟨(voiceBounded_iff _).mpr ⟨advanceEnvelopes_levels hlib h hamp hflt, hrest⟩, hv.copy, hv.vel⟩

theorem renderable_voiceLfo {s : State} (hlib : LibOk s.cfg.lib) (h : registersLegal s = true) {v : Voice} {noise : F32}
    (hnoise : Holdable noise) {glv : Option F32} (hglv : ∀ x, glv = some x → Within (-1) 1 x) (hv : Renderable v) :
    Renderable (voiceLfo s v noise glv).1 ∧ Within (-1) 1 (voiceLfo s v noise glv).2 := by
  obtain ⟨henv, hosc, hlfo, hrest⟩ := (voiceBounded_iff v).mp hv.bounded
  obtain ⟨hlfo', hvalue⟩ := voiceLfo_ok hlib h hnoise hglv hlfo
  refine ⟨?_, hvalue⟩
  rw [voiceLfo_frame]
  exact ⟨(voiceBounded_iff _).mpr ⟨henv, hosc, hlfo', hrest⟩, hv.copy, hv.vel⟩

theorem renderable_renderOscillators {s : State} (hlib : LibOk s.cfg.lib) (h : registersLegal s = true) {v : Voice}
    {noise fenv lm : F32} (hnoise : Within (-1) 1 noise) (hfenv : F32.within c0 c1 fenv = true) (hlm : Within (-1) 1 lm)
    (hv : Renderable v) :
    Renderable (renderOscillators s v noise fenv lm).1 ∧ Within (-1) 1 (renderOscillators s v noise fenv lm).2 := by
  obtain ⟨henv, ⟨hosc1, hosc2⟩, hrest⟩ := (voiceBounded_iff v).mp hv.bounded
  obtain ⟨hosc1', hosc2', hmix⟩ := renderOscillators_ok hlib h hnoise hfenv hlm hv.pitchLegal_gp hv.copy hosc1 hosc2
  exact ⟨⟨(voiceBounded_iff _).mpr ⟨henv, ⟨hosc1', hosc2'⟩, hrest⟩, hv.copy, hv.vel⟩, hmix⟩

theorem renderable_renderFilter {s : State} (hlib : LibOk s.cfg.lib) (h : registersLegal s = true) {v : Voice}
    {mix aenv fenv lm : F32} (hmix : Within (-1) 1 mix) (haenv : F32.within c0 c1 aenv = true)
    (hfenv : F32.within c0 c1 fenv = true) (hlm : Within (-1) 1 lm) (hv : Renderable v) :
    Renderable (renderFilter s v mix aenv fenv lm).1 ∧ Within (-2) 2 (renderFilter s v mix aenv fenv lm).2 := by
  obtain ⟨henv, hosc, hlfo, hfilt, hglide⟩ := (voiceBounded_iff v).mp hv.bounded
  have hN : 1 ≤ v.uniN ∧ v.uniN ≤ 32 := ⟨by have := hv.copy.1; omega, hv.copy.2⟩
  obtain ⟨hfilt', hout⟩ := renderFilter_ok hlib h hmix haenv hfenv hlm hv.pitchLegal_gp hN hfilt
  exact ⟨⟨(voiceBounded_iff _).mpr ⟨henv, hosc, hlfo, hfilt', hglide⟩, hv.copy, hv.vel⟩, hout⟩

/-- The output of an envelope of a voice that can be rendered. -/
theorem Renderable.envOuts_unit {s : State} (h : registersLegal s = true) {v : Voice} (hv : Renderable v) :
    F32.within c0 c1 (envOut v.amp (s.param .ampVelAmt) v.vel) = true ∧
    F32.within c0 c1 (envOut v.flt (s.param .fltVelAmt) v.vel) = true := by
  obtain ⟨⟨hamp, hflt⟩, -⟩ := (voiceBounded_iff v).mp hv.bounded
  exact ⟨envOut_unit hamp (param_unit h ⟨rfl, rfl⟩) hv.vel, envOut_unit hflt (param_unit h ⟨rfl, rfl⟩) hv.vel⟩

/-- A rendered voice keeps every value of its datapath in range, and its output lies in [-2.0, 2.0] (R230, R250). -/
theorem renderable_voiceRender {s : State} (hlib : LibOk s.cfg.lib) (h : registersLegal s = true) {v : Voice}
    {noise : F32} (hnoise : Holdable noise) {glv : Option F32} (hglv : ∀ x, glv = some x → Within (-1) 1 x)
    (hv : Renderable v) :
    Renderable (voiceRender s v noise glv).1 ∧ Within (-2) 2 (voiceRender s v noise glv).2 := by
  have henv := renderable_advanceEnvelopes hlib h (renderable_glideStep hlib h hv)
  obtain ⟨haenv, hfenv⟩ := henv.envOuts_unit h
  obtain ⟨hlfo, hvalue⟩ := renderable_voiceLfo hlib h hnoise hglv henv
  have hlm := scaledLfo_within h hvalue
  obtain ⟨hosc, hmix⟩ := renderable_renderOscillators hlib h hnoise.within hfenv hlm hlfo
  exact renderable_renderFilter hlib h hmix haenv hfenv hlm hosc

/-! ### The tick and its sample -/

/-- A sum of outputs in [-2.0, 2.0] stays finite: `n` of them stay within `2 n` (R314). -/
theorem foldl_add_within (ys : List F32) (n : Nat) (acc : F32) (hys : ∀ y ∈ ys, Within (-2) 2 y)
    (hlen : n + ys.length ≤ 1000) (hacc : Within ((-(2 * n : Nat) : Int) : ℚ) (((2 * n : Nat) : Int) : ℚ) acc) :
    Within (-2000) 2000 (ys.foldl F32.add acc) := by
  induction ys generalizing n acc with
  | nil =>
    have hn : (n : ℚ) ≤ 1000 := by exact_mod_cast hlen
    exact hacc.mono (by push_cast; linarith) (by push_cast; linarith)
  | cons y ys ih =>
    rw [List.length_cons] at hlen
    have hy : Within ((-2 : Int) : ℚ) ((2 : Int) : ℚ) y :=
      (hys y List.mem_cons_self).mono (by norm_num) (by norm_num)
    have hadd := Within.add hacc hy (by omega) (by omega)
    exact ih (n + 1) (acc.add y) (fun z hz => hys z (List.mem_cons_of_mem _ hz)) (by omega)
      (hadd.mono (by push_cast; linarith) (by push_cast; linarith))

/-- The clamped output of a tick lies in [-1.0, 1.0] (R315). -/
theorem masterOut_within {s : State} (h : registersLegal s = true) {acc : F32} (hacc : Within (-2000) 2000 acc) :
    Within (-1) 1 (masterOut s acc) := by
  have hvol := param_within h .masterVolume
  simp only [paramRow, c0_val, c1_val] at hvol
  have hmul := F32.mul_rounds (hacc.finite (by norm_num) (by norm_num)) (hvol.finite (by norm_num) (by norm_num))
  exact clamp_unit_within hmul.notNaN

/-- Rounding to the nearest integer keeps between integer bounds. -/
theorem rne_bounds {x : F32} {a b : Int} (ha : (a : ℚ) ≤ x.val) (hb : x.val ≤ b) : a ≤ x.rne ∧ x.rne ≤ b := by
  have hlo : a * 2 ^ 149 ≤ x.units := by
    have hq := mul_le_mul_of_nonneg_right ha (show (0 : ℚ) ≤ 2 ^ 149 by positivity)
    rw [← F32.units_eq_val] at hq
    exact_mod_cast hq
  have hhi : x.units ≤ b * 2 ^ 149 := by
    have hq := mul_le_mul_of_nonneg_right hb (show (0 : ℚ) ≤ 2 ^ 149 by positivity)
    rw [← F32.units_eq_val] at hq
    exact_mod_cast hq
  unfold F32.rne F32.one149
  dsimp only
  push_cast
  split_ifs <;> omega

/-- The sample of a value in [-1.0, 1.0] is legal in both formats (R316, R317, R320). -/
theorem convSample_legal (fmt : OutFmt) {x : F32} (hx : Within (-1) 1 x) : sampleLegal (convSample fmt x) = true := by
  cases fmt with
  | s16 =>
    have hscale : Within (-((32767 : Nat) : ℚ)) ((32767 : Nat) : ℚ) cS16Scale :=
      ⟨cS16Scale_notNaN, by norm_num, by norm_num⟩
    have hm := Within.mul (m := 1) (hx.mono (by norm_num) (by norm_num)) hscale
    obtain ⟨hlo, hhi⟩ := rne_bounds (a := -32767) (b := 32767) (x := x.mul cS16Scale)
      (by have := hm.2.1; push_cast at this ⊢; linarith) (by have := hm.2.2; push_cast at this ⊢; linarith)
    simp only [convSample, sampleLegal, decide_eq_true_eq]
    rw [BitVec.toInt_ofInt_eq_self (by norm_num) (by omega) (by omega)]
    exact hlo
  | f32 => exact F32.within_iff.mpr ⟨hx.1, cNeg1_notNaN, c1_notNaN, by simpa using hx.2.1, by simpa using hx.2.2⟩

/-- A tick's outputs are those of voices that can be rendered, so its sample is legal. -/
theorem tickSample_legal {s : State} (hlib : LibOk s.cfg.lib) (h : registersLegal s = true)
    (hglfo : lfoLegal s.glfo = true) (hv : ∀ v ∈ s.voices, Renderable v) : sampleLegal (tickSample s) = true := by
  obtain ⟨-, hpool, hlen, -⟩ := globals_bounds h
  have hnoise : Holdable (tickNoise s) := noiseSample_holdable _
  have hglv : ∀ x, tickGlobalValue s = some x → Within (-1) 1 x := (globalLfo_ok hlib h hnoise hglfo).2
  unfold tickSample
  rw [renderVoices_eq]
  refine convSample_legal _ (masterOut_within h (foldl_add_within _ 0 c0 ?_ ?_ (within_c0.mono (by simp) (by simp))))
  · refine List.forall_mem_map.mpr fun v hm => ?_
    exact (renderable_voiceRender hlib h hnoise hglv (hv v (List.mem_of_mem_filter hm))).2
  · have := List.length_filter_le (fun v : Voice => decide (v.amp.stage ≠ .idle)) s.voices
    rw [List.length_map]
    omega

/-! ### The step -/

/-- All that the invariants say of a state, with the properties of its function library, which no step changes. -/
structure DatapathOk (s : State) : Prop where
  lib : LibOk s.cfg.lib
  lifecycle : LifecycleOk s
  voices : ∀ v ∈ s.voices, voiceBounded v = true
  glfo : lfoLegal s.glfo = true
  out : ∀ x ∈ s.out, sampleLegal x = true
  outKept : ∀ x ∈ s.outKept, sampleLegal x = true

theorem stateLegal_iff (s : State) : LibOk s.cfg.lib ∧ stateLegal s = true ↔ DatapathOk s := by
  simp only [stateLegal, datapathBounded, Bool.and_eq_true, voicesLegal_iff, List.all_eq_true]
  constructor
  · rintro ⟨hlib, ⟨hreg, hlife⟩, ⟨⟨hvoices, hglfo⟩, hout⟩, hkept⟩
    exact ⟨hlib, ⟨hreg, hlife⟩, hvoices, hglfo, hout, hkept⟩
  · rintro ⟨hlib, hlife, hvoices, hglfo, hout, hkept⟩
    exact ⟨hlib, hlife, ⟨⟨hvoices, hglfo⟩, hout⟩, hkept⟩

theorem DatapathOk.renderable {s : State} (h : DatapathOk s) : ∀ v ∈ s.voices, Renderable v := fun v hv =>
  .of_legal (globals_bounds h.lifecycle.1).2.1 (h.lifecycle.2 v hv) (h.voices v hv)

theorem voiceBounded_reset : voiceBounded Voice.reset = true := by decide +kernel

/-- A note 0..127 plus a tune in [-1.0, 1.0] is a legal pitch (R247). -/
theorem triggerTarget_legal {s : State} (h : registersLegal s = true) {note : Int} (hnote : 0 ≤ note ∧ note ≤ 127) :
    pitchLegal ((F32.ofInt note).add (s.param .masterTune)) = true := by
  have htune := param_within h .masterTune
  simp only [paramRow, cNeg1_val, c1_val] at htune
  have hval : (F32.ofInt note).val = note := F32.ofInt_val (by omega)
  have h0 : (0 : ℚ) ≤ note := by exact_mod_cast hnote.1
  have h127 : (note : ℚ) ≤ 127 := by exact_mod_cast hnote.2
  have hint : Within ((0 : Int) : ℚ) ((127 : Int) : ℚ) (F32.ofInt note) :=
    ⟨F32.ofInt_notNaN note, by rw [hval]; simpa using h0, by rw [hval]; exact_mod_cast hnote.2⟩
  have hsum := Within.add (c := -1) (d := 1) hint (htune.mono (by norm_num) (by norm_num))
  exact pitchLegal_iff.mpr (hsum.mono (by norm_num) (by norm_num))

/-- The glide that a trigger starts: from the target where it jumps, else from the pitch of the voice (R247). -/
theorem voiceTrigger_glide (u : State) (v : Voice) (key note : Int) (vel : F32) (c N : Nat) (retrig : Bool) :
    ∃ start, (start = (F32.ofInt note).add (u.param .masterTune) ∨ start = v.gp) ∧
      (voiceTrigger u v key note vel c N retrig).gp = start ∧
      (voiceTrigger u v key note vel c N retrig).gfrom = start ∧
      (voiceTrigger u v key note vel c N retrig).gto = (F32.ofInt note).add (u.param .masterTune) ∧
      (voiceTrigger u v key note vel c N retrig).gn = 0 := by
  refine ⟨if (!v.gvalid || F32.eq (portaTime u) c0) = true then (F32.ofInt note).add (u.param .masterTune) else v.gp,
    ?_, ?_⟩
  · split
    · exact .inl rfl
    · exact .inr rfl
  · cases retrig <;> exact ⟨rfl, rfl, rfl, rfl⟩

/-- A trigger starts a glide that is in range, resets phases to 0.0, and keeps every level, pending sample and filter
state (R247). -/
theorem voiceBounded_trigger {s u : State} (h : registersLegal s = true) (hu : SameShared u s) {v : Voice} {key note : Int}
    {vel : F32} {c N : Nat} {retrig : Bool} (hnote : 0 ≤ note ∧ note ≤ 127) (hv : voiceBounded v = true) :
    voiceBounded (voiceTrigger u v key note vel c N retrig) = true := by
  have hphase : phaseLegal c0 = true := by decide +kernel
  rw [voiceBounded_iff] at hv ⊢
  obtain ⟨henv, ⟨hosc1, hosc2⟩, hlfo, hfilt, hglide⟩ := hv
  have hreset : ∀ {o : OscState} (b : Bool), OscOk o → OscOk (if b = true then oscPhaseReset o else o) := by
    intro o b ho
    cases b
    · exact ho
    · exact ⟨hphase, ho.2⟩
  have hglide' : GlideOk (voiceTrigger u v key note vel c N retrig) := by
    obtain ⟨start, hcase, hgp, hgfrom, hgto, hgn⟩ := voiceTrigger_glide u v key note vel c N retrig
    have htarget : pitchLegal ((F32.ofInt note).add (u.param .masterTune)) = true := by
      rw [hu.param]
      exact triggerTarget_legal h hnote
    have hstart : pitchLegal start = true := by
      rcases hcase with rfl | rfl
      · exact htarget
      · exact hglide.1
    rw [GlideOk, hgp, hgfrom, hgto, hgn]
    exact ⟨hstart, hstart, htarget, by norm_num, .inr (by norm_num)⟩
  cases retrig
  · exact ⟨henv, ⟨hosc1, hosc2⟩, hlfo, hfilt, hglide'⟩
  · exact ⟨henv, ⟨hreset _ hosc1, hreset _ hosc2⟩,
      (lfoLegal_iff _).mpr ⟨hphase, ((lfoLegal_iff _).mp hlfo).2⟩, hfilt, hglide'⟩

/-- The numerical invariant of a voice is kept by all that commands do to it. -/
theorem voiceInvariant_voiceBounded {s : State} (h : registersLegal s = true) :
    VoiceInvariant s fun v => voiceBounded v = true where
  reset := voiceBounded_reset
  sustained _ hv _ := hv
  released v hv := by
    rw [voiceBounded_iff] at hv ⊢
    obtain ⟨⟨hamp, hflt⟩, hrest⟩ := hv
    exact ⟨⟨(envRelease_level v.amp).symm ▸ hamp, (envRelease_level v.flt).symm ▸ hflt⟩, hrest⟩
  triggered _ _ _ _ _ _ _ _ hu _ hnote _ _ _ hv := voiceBounded_trigger h hu hnote hv

theorem datapathOk_tick {s : State} (h : DatapathOk s) : DatapathOk (tick s) := by
  have hreg := h.lifecycle.1
  have hnoise : Holdable (tickNoise s) := noiseSample_holdable _
  obtain ⟨hglfo, hglv⟩ := globalLfo_ok h.lib hreg hnoise h.glfo
  refine ⟨by rw [tick_cfg]; exact h.lib, lifecycleOk_tick h.lifecycle, ?_, by rw [tick_glfo]; exact hglfo, ?_,
    by rw [tick_outKept]; exact h.outKept⟩
  · rw [tick_voices]
    refine List.forall_mem_map.mpr fun v hm => ?_
    unfold tickVoice
    split
    · exact h.voices v hm
    · exact (renderable_voiceRender h.lib hreg hnoise hglv (h.renderable v hm)).1.bounded
  · intro x hx
    rw [tick_out, List.mem_append] at hx
    rcases hx with hx | hx
    · exact h.out x hx
    · have hsample := tickSample_legal h.lib hreg h.glfo h.renderable
      simp only [List.mem_cons, List.not_mem_nil, or_false, or_self] at hx
      exact hx ▸ hsample

theorem datapathOk_applyReset {s : State} (h : DatapathOk s) : DatapathOk s.applyReset where
  lib := h.lib
  lifecycle := lifecycleOk_applyReset (constructionLegal_of_registersLegal h.lifecycle.1)
  voices _ hv := List.eq_of_mem_replicate hv ▸ voiceBounded_reset
  glfo := by rw [State.applyReset_glfo]; decide +kernel
  out _ hx := nomatch hx
  outKept x hx := (List.mem_append.mp hx).elim (h.outKept x) (h.out x)

/-- A command other than RENDER leaves the global LFO and both streams. -/
theorem effect_stream {i : Instr} {s t : State} (he : Effect s i t) (hr : ∀ n, i ≠ .render n) :
    t.glfo = s.glfo ∧ t.out = s.out ∧ t.outKept = s.outKept := by
  cases he with
  | noteOn key x => rw [(noteOnState_frame key x s).1]; exact ⟨rfl, rfl, rfl⟩
  | render n => exact absurd rfl (hr n)
  | _ => exact ⟨rfl, rfl, rfl⟩

theorem datapathOk_of_effect {i : Instr} {s t : State} (he : Effect s i t) (hi : i.wellFormed = true)
    (hr : ∀ n, i ≠ .render n) (h : DatapathOk s) : DatapathOk t := by
  obtain ⟨hglfo, hout, hkept⟩ := effect_stream he hr
  exact ⟨effect_cfg he ▸ h.lib, lifecycleOk_of_effect he hi hr h.lifecycle,
    voices_keep_of_effect he (voiceInvariant_voiceBounded h.lifecycle.1) h.lifecycle.1 hi hr h.voices,
    hglfo ▸ h.glfo, hout ▸ h.out, hkept ▸ h.outKept⟩

/-- Settles O58: ticks keep the datapath bounded, reset restores it, and what other commands do to a voice keeps it. -/
theorem datapathStaysBounded : Obligations.DatapathStaysBounded := by
  intro s hlib hs
  obtain ⟨t, ht⟩ := exists_step_next s
  have hkept : DatapathOk t :=
    step_keeps (I := DatapathOk) (fun _ _ _ _ hu => ⟨hu.lib, hu.lifecycle, hu.voices, hu.glfo, hu.out, hu.outKept⟩)
      (fun _ => datapathOk_applyReset) (fun _ => datapathOk_tick)
      (fun w0 w1 _ _ hr hu he => datapathOk_of_effect (effect_of_exec he) (decode_wellFormed w0 w1) hr hu)
      s t ((stateLegal_iff s).mp ⟨hlib, hs⟩) ht
  exact ⟨t, ht, ((stateLegal_iff t).mpr hkept).2⟩

end Sys2Proof.Machine
end

section
/-! PROOFS of the transport's byte order, and of the command a step runs (20_memory.md R83, R84, R86). -/

namespace Sys2Proof

/-! ### Bytes as digits of a word's value -/

/-- Byte `k` bits up, read from the value: the digit from `2 ^ k` on. -/
theorem extractLsb'_byte_eq_digit {n : Nat} (x : BitVec n) (k : Nat) :
    x.extractLsb' k 8 = BitVec.ofNat 8 (x.toNat / 2 ^ k) := by
  apply BitVec.eq_of_toNat_eq
  rw [BitVec.extractLsb'_toNat, Nat.shiftRight_eq_div_pow, BitVec.toNat_ofNat]

theorem wordBytes_eq_digits (w : Word) :
    wordBytes w = [BitVec.ofNat 8 w.toNat, BitVec.ofNat 8 (w.toNat / 2 ^ 8), BitVec.ofNat 8 (w.toNat / 2 ^ 16),
      BitVec.ofNat 8 (w.toNat / 2 ^ 24)] := by
  simp only [wordBytes, extractLsb'_byte_eq_digit, pow_zero, Nat.div_one]

/-! ### A command from its bytes -/

/-- A well-formed command decodes from its own words (30_encoding.md R100 to R106). -/
theorem decode_encode {i : Instr} (h : i.wellFormed = true) : decode (encode i).1 (encode i).2 = i := by
  cases i with
  | nop => exact Laws.RoundTrip.nop h
  | noteOn key x => exact Laws.RoundTrip.noteOn key x h
  | noteOff key => exact Laws.RoundTrip.noteOff key h
  | allNotesOff => exact Laws.RoundTrip.allNotesOff h
  | allSoundOff => exact Laws.RoundTrip.allSoundOff h
  | sustain down => exact Laws.RoundTrip.sustain down h
  | pitchBend x => exact Laws.RoundTrip.pitchBend x h
  | modWheel x => exact Laws.RoundTrip.modWheel x h
  | setParam id x => exact Laws.RoundTrip.setParam id x h
  | getParam id => exact Laws.RoundTrip.getParam id h
  | setSampleRate x => exact Laws.RoundTrip.setSampleRate x h
  | render frames => exact Laws.RoundTrip.render frames h
  | reserved0C op => exact Laws.RoundTrip.reserved0C op h
  | reserved10 op => exact Laws.RoundTrip.reserved10 op h
  | reserved20 op => exact Laws.RoundTrip.reserved20 op h
  | reserved40 op => exact Laws.RoundTrip.reserved40 op h
  | reserved80 op => exact Laws.RoundTrip.reserved80 op h

theorem decodeBytes_encodeBytes {i : Instr} (h : i.wellFormed = true) : decodeBytes (encodeBytes i) = .ok i := by
  rw [encodeBytes, decodeBytes_wordBytes, decode_encode h]

/-- No byte string but one of eight bytes is a command (R84, log entry 15). -/
theorem decodeBytes_of_length_ne {bs : List Byte} (h : bs.length ≠ 8) :
    decodeBytes bs = .error (.notOneCommand bs.length) := by
  unfold decodeBytes
  split
  · exact absurd rfl h
  · rfl

/-- Settles O5: the transport's bytes are the digits of the two words, of which the bytes' decoder makes the words again. -/
theorem transportByteOrder : Obligations.TransportByteOrder := by
  refine ⟨fun w0 w1 => ?_, fun _ => decodeBytes_encodeBytes, fun _ => decodeBytes_of_length_ne⟩
  have h := decodeBytes_wordBytes w0 w1
  rwa [wordBytes_eq_digits, wordBytes_eq_digits] at h

end Sys2Proof

namespace Sys2Proof.Machine

/-! ### The command a step runs -/

/-- Between commands, the block executes the command offered first (R86). -/
theorem step_of_command {s : State} {w0 w1 : Word} {rest : List HostEvent} (hremain : s.remain = 0#16)
    (hhost : s.host = .command w0 w1 :: rest) : step s = exec (decode w0 w1) { s with host := rest } := by
  have haction : portAction s = .accept (decode w0 w1) { s with host := rest } := by
    rw [portAction, if_pos hremain, idlePort, hhost]
  rw [step, haction]

/-- Settles O7: a command presented stands first while no RENDER is in progress, and its words decode to it. -/
theorem stepRunsDecodedCommand : Obligations.StepRunsDecodedCommand := by
  refine ⟨fun _ _ _ _ => step_of_command, fun s i hi => ?_⟩
  rw [step_of_command (State.presentCommand_remain s _ _) (State.presentCommand_host s _ _), decode_encode hi]
  rfl

/-! ### Samples and `RDATA` as bytes -/

theorem sampleBytes_s16_eq_digits (v : BitVec 16) :
    sampleBytes (.s16 v) = [BitVec.ofNat 8 v.toNat, BitVec.ofNat 8 (v.toNat / 2 ^ 8)] := by
  simp only [sampleBytes, extractLsb'_byte_eq_digit, pow_zero, Nat.div_one]

/-- Settles O60: samples and `RDATA` are carried as the digits of their values, and a stream as its samples in order. -/
theorem sampleByteOrder : Obligations.SampleByteOrder := by
  refine ⟨sampleBytes_s16_eq_digits, wordBytes_eq_digits, fun s => wordBytes_eq_digits s.rdata,
    fun x xs ys => ⟨?_, streamBytes_append xs ys⟩, by decide⟩
  rw [streamBytes_cons, streamBytes_nil, List.append_nil]

end Sys2Proof.Machine
end

section
/-! PROOFS of the encoding: which command two words are, which fields it uses, and what an assembler writes for it
(30_encoding.md R100 to R110). -/

namespace Sys2Proof

/-! ### Round trips -/

/-- Settles O1: by cases on the command, each row decoding from its own encoding. -/
theorem decodeEncodeAgree : Obligations.DecodeEncodeAgree := fun _ => decode_encode

/-- Settles O2: what is decoded is well-formed, so the round trip applies to it. -/
theorem everyPairDecodes : Obligations.EveryPairDecodes := fun w0 w1 =>
  ⟨Machine.decode_wellFormed w0 w1, decode_encode (Machine.decode_wellFormed w0 w1)⟩

/-- The words of a well-formed command decode to it, however those words are written. -/
theorem roundTrip_of_encode_eq {i : Instr} {w0 w1 : Word} (hi : i.wellFormed = true) (he : encode i = (w0, w1)) :
    encode i = (w0, w1) ∧ decode w0 w1 = i := by
  have hd := decode_encode hi
  rw [he] at hd
  exact ⟨he, hd⟩

/-- Settles O6: each worked command is well-formed and has the words shown, so these decode to it. -/
theorem workedEncodings : Obligations.WorkedEncodings :=
  ⟨roundTrip_of_encode_eq (by decide) (by decide), roundTrip_of_encode_eq (by decide) (by decide),
    roundTrip_of_encode_eq (by decide) (by decide), roundTrip_of_encode_eq (by decide) (by decide),
    roundTrip_of_encode_eq (by decide) (by decide), roundTrip_of_encode_eq (by decide) (by decide),
    roundTrip_of_encode_eq (by decide) (by decide), roundTrip_of_encode_eq (by decide) (by decide),
    roundTrip_of_encode_eq (by decide) (by decide)⟩

/-! ### The fields as the rows read them -/

/-- A key is the digit `A`, sign-extended (R101). -/
theorem fieldA_toInt (w : Word) :
    (fieldA w).toInt =
      if w.toNat / 2 ^ 16 % 2 ^ 8 < 128 then ((w.toNat / 2 ^ 16 % 2 ^ 8 : Nat) : Int)
      else ((w.toNat / 2 ^ 16 % 2 ^ 8 : Nat) : Int) - 256 := by
  rw [BitVec.toInt_eq_toNat_cond, fieldA_toNat]
  split_ifs <;> omega

/-- `down` is the lowest bit of `W0` (R102). -/
theorem fieldB_getLsbD_zero (w : Word) : (fieldB w).getLsbD 0 = decide (w.toNat % 2 = 1) := by
  rw [BitVec.getLsbD, fieldB_toNat, Nat.testBit_zero, Nat.mod_mod_of_dvd _ (by decide)]

/-! ### The row an opcode selects -/

/-- No opcode from 0x0C on is one of the twelve commands: such a command is the reserved row of its opcode's range. -/
theorem decode_of_reserved {w0 : Word} (w1 : Word) (h : 0x0C ≤ fieldOp w0) :
    decode w0 w1 =
      if fieldOp w0 < 0x10 then .reserved0C (fieldOp w0)
      else if fieldOp w0 < 0x20 then .reserved10 (fieldOp w0)
      else if fieldOp w0 < 0x40 then .reserved20 (fieldOp w0)
      else if fieldOp w0 < 0x80 then .reserved40 (fieldOp w0)
      else .reserved80 (fieldOp w0) := by
  have hne : ∀ k < 0x0C, fieldOp w0 ≠ k := fun k hk => (hk.trans_le h).ne'
  simp [decode, hne]

/-- Settles O3: the opcode decides the decoder's chain of rows, and each operand is the digit its row reads. -/
theorem opcodeSelectsRow : Obligations.OpcodeSelectsRow := by
  intro w0 w1 op a b hop ha hb key hkey
  rw [← fieldOp_eq] at hop
  rw [← fieldA_toNat] at ha
  have hdown : decide (b % 2 = 1) = (fieldB w0).getLsbD 0 := by
    rw [fieldB_getLsbD_zero, hb, Nat.mod_mod_of_dvd _ (by decide)]
  rw [← fieldB_toNat] at hb
  obtain rfl : key = (fieldA w0).toInt := by rw [hkey, fieldA_toInt, ha, fieldA_toNat]
  rw [hdown]
  subst hop ha hb
  refine ⟨?nop, ?noteOn, ?noteOff, ?allNotesOff, ?allSoundOff, ?sustain, ?pitchBend, ?modWheel, ?setParam, ?getParam,
    ?setSampleRate, ?render, ?reserved0C, ?reserved10, ?reserved20, ?reserved40, ?reserved80⟩
  case reserved0C => intro _ _; rw [decode_of_reserved w1 (by omega), if_pos (by omega)]
  case reserved10 => intro _ _; rw [decode_of_reserved w1 (by omega), if_neg (by omega), if_pos (by omega)]
  case reserved20 =>
    intro _ _
    rw [decode_of_reserved w1 (by omega), if_neg (by omega), if_neg (by omega), if_pos (by omega)]
  case reserved40 =>
    intro _ _
    rw [decode_of_reserved w1 (by omega), if_neg (by omega), if_neg (by omega), if_neg (by omega), if_pos (by omega)]
  case reserved80 =>
    intro _
    rw [decode_of_reserved w1 (by omega), if_neg (by omega), if_neg (by omega), if_neg (by omega), if_neg (by omega)]
  all_goals
    intro h
    simp [decode, h]

/-! ### Unused fields -/

/-- A command is decided by its opcode and the fields the table's column `Uses` names for it (R104, R106). -/
theorem decode_congr {v0 v1 w0 w1 : Word} (hop : fieldOp v0 = fieldOp w0)
    (hA : fieldOp w0 = 0x01 ∨ fieldOp w0 = 0x02 ∨ fieldOp w0 = 0x08 ∨ fieldOp w0 = 0x09 → fieldA v0 = fieldA w0)
    (hB : fieldOp w0 = 0x0B → fieldB v0 = fieldB w0)
    (hdown : fieldOp w0 = 0x05 → (fieldB v0).getLsbD 0 = (fieldB w0).getLsbD 0)
    (hx : fieldOp w0 = 0x01 ∨ fieldOp w0 = 0x06 ∨ fieldOp w0 = 0x07 ∨ fieldOp w0 = 0x08 ∨ fieldOp w0 = 0x0A → v1 = w1) :
    decode v0 v1 = decode w0 w1 := by
  unfold decode
  rw [hop]
  refine ite_congr rfl (fun _ => rfl) fun _ => ?_
  refine ite_congr rfl (fun (h : _ = 0x01) => by rw [hA (by simp [h]), hx (by simp [h])]) fun _ => ?_
  refine ite_congr rfl (fun (h : _ = 0x02) => by rw [hA (by simp [h])]) fun _ => ?_
  refine ite_congr rfl (fun _ => rfl) fun _ => ?_
  refine ite_congr rfl (fun _ => rfl) fun _ => ?_
  refine ite_congr rfl (fun (h : _ = 0x05) => by rw [hdown h]) fun _ => ?_
  refine ite_congr rfl (fun (h : _ = 0x06) => by rw [hx (by simp [h])]) fun _ => ?_
  refine ite_congr rfl (fun (h : _ = 0x07) => by rw [hx (by simp [h])]) fun _ => ?_
  refine ite_congr rfl (fun (h : _ = 0x08) => by rw [hA (by simp [h]), hx (by simp [h])]) fun _ => ?_
  refine ite_congr rfl (fun (h : _ = 0x09) => by rw [hA (by simp [h])]) fun _ => ?_
  refine ite_congr rfl (fun (h : _ = 0x0A) => by rw [hx (by simp [h])]) fun _ => ?_
  exact ite_congr rfl (fun (h : _ = 0x0B) => by rw [hB h]) fun _ => rfl

/-- An assembler writes zero in every field a command does not use, the bits of `B` above `down` included (R106). -/
theorem encode_unused_zero (i : Instr) :
    (¬(fieldOp (encode i).1 = 0x01 ∨ fieldOp (encode i).1 = 0x02 ∨ fieldOp (encode i).1 = 0x08 ∨
      fieldOp (encode i).1 = 0x09) → fieldA (encode i).1 = 0) ∧
    (¬(fieldOp (encode i).1 = 0x05 ∨ fieldOp (encode i).1 = 0x0B) → fieldB (encode i).1 = 0) ∧
    (fieldOp (encode i).1 = 0x05 → (fieldB (encode i).1).toNat ≤ 1) ∧
    (¬(fieldOp (encode i).1 = 0x01 ∨ fieldOp (encode i).1 = 0x06 ∨ fieldOp (encode i).1 = 0x07 ∨
      fieldOp (encode i).1 = 0x08 ∨ fieldOp (encode i).1 = 0x0A) → (encode i).2 = 0) := by
  cases i with
  | sustain down => cases down <;> simp [encode]
  | _ => simp [encode]

end Sys2Proof

namespace Sys2Proof.Machine

/-- Settles O4: commands that agree in the fields they use are one command, and an assembler's unused fields are zero. -/
theorem unusedFieldsAreIgnored : Obligations.UnusedFieldsAreIgnored := by
  refine ⟨fun v0 v1 w0 w1 op hv hw hA hB hdown hx s => ?_, fun i _ op hop => ?_⟩
  · rw [← fieldOp_eq] at hv hw
    simp only [← fieldA_toNat, ← fieldB_toNat, BitVec.toNat_inj] at hA hB
    subst hw
    rw [decode_congr hv.symm hA hB (fun h => by rw [fieldB_getLsbD_zero, fieldB_getLsbD_zero, hdown h]) hx]
  · obtain ⟨hA, hB, hdown, hx⟩ := encode_unused_zero i
    rw [← fieldOp_eq] at hop
    rw [← fieldA_toNat, ← fieldB_toNat]
    subst hop
    exact ⟨fun h => by rw [hA h]; rfl, fun h => by rw [hB h]; rfl, hdown, hx⟩

end Sys2Proof.Machine
end

section
/-! PROOFS of the oscillator's phase, events and output (40_oscillator.md R130 to R142). -/

namespace Sys2Proof.Machine

/-! ### The phase accumulator -/

/-- An increment in [`DT_MIN`, `DT_MAX`] is at most one half. -/
theorem dt_within_half {dt : F32} (hd : F32.within cDtMin cDtMax dt = true) : Within 0 (1 / 2) dt := by
  obtain ⟨hfinite, hlo, hhi⟩ := dt_bounds hd
  exact ⟨F32.not_nan_of_finite hfinite, le_trans (by positivity) hlo, hhi⟩

theorem le_c1_iff {q : F32} (hq : q.isNaN = false) : F32.le c1 q = true ↔ 1 ≤ q.val := by
  simp [F32.le_iff, hq]

/-- Without sync the new phase is the sum, wrapped once (R131). -/
theorem freePath_newPhase (o : OscState) (dt : F32) (w : Waveform) (pw : F32) :
    (freePath o dt w pw).newPhase =
      if F32.le c1 (o.phase.add dt) = true then (o.phase.add dt).sub c1 else o.phase.add dt := by
  unfold freePath
  dsimp only
  split <;> rfl

/-- The wrapped sum has the exact value (R131). -/
theorem wrappedPhase_val {ph d : F32} (hp : phaseLegal ph = true) (hd : Within 0 (1 / 2) d) :
    (if F32.le c1 (ph.add d) = true then (ph.add d).sub c1 else ph.add d).val =
      if 1 ≤ (ph.add d).val then (ph.add d).val - 1 else (ph.add d).val := by
  obtain ⟨⟨hn, -, hhi⟩, -⟩ := phaseSum_within hp hd
  simp only [le_c1_iff hn]
  split
  · next hwrap => exact (wrap_exact hwrap (by linarith)).2
  · rfl

/-- Settles O23: the sum stays at or below 1.5, so one exact subtraction brings it back. -/
theorem oscillatorPhase : Obligations.OscillatorPhase := by
  intro o dt w pw hphase hdt
  have hd := dt_within_half hdt
  obtain ⟨⟨-, hlo, hhi⟩, -⟩ := phaseSum_within hphase hd
  have hnew : (oscAdvance o dt w pw none).osc.phase = _ := freePath_newPhase o dt w pw
  exact ⟨hlo, by linarith, hnew ▸ wrappedPhase_val hphase hd, hnew ▸ wrappedPhase_legal hphase hd⟩

/-! ### The events of a tick -/

/-- The events of a stretch of the path from phase `ph` to the unwrapped phase `q`: the free tick and the stretch before a
sync reset differ only in the distance they give to a point (R134, R135). -/
def segmentEvents (w : Waveform) (ph q pw : F32) (distance : F32 → F32) : List StepEvent :=
  if F32.le c1 q then
    widthEvent w (F32.lt ph pw) (distance (q.sub pw)) ++
    [⟨F32.fmin (distance (q.sub c1)) c1, stepAtWrap w⟩] ++
    widthEvent w (F32.le pw (q.sub c1)) (distance ((q.sub c1).sub pw))
  else widthEvent w (F32.lt ph pw && F32.le pw q) (distance (q.sub pw))

theorem freePath_events (o : OscState) (dt : F32) (w : Waveform) (pw : F32) :
    (freePath o dt w pw).events = segmentEvents w o.phase (o.phase.add dt) pw fun x => x.div dt := by
  unfold freePath segmentEvents
  dsimp only
  split <;> rfl

/-- With sync, the reset, of some height `h`, and at most one later crossing follow the stretch before the reset (R135). -/
theorem syncPath_events (o : OscState) (dt : F32) (w : Waveform) (pw sd : F32) :
    ∃ h : F32, (syncPath o dt w pw sd).events =
      segmentEvents w o.phase (o.phase.add (dt.mul (c1.sub sd))) pw (fun x => sd.add (x.div dt)) ++ [⟨sd, h⟩] ++
        widthEvent w (F32.le pw (dt.mul sd)) (((dt.mul sd).sub pw).div dt) :=
  ⟨_, rfl⟩

theorem widthEvent_length_le (w : Waveform) (crossed : Bool) (d : F32) :
    (widthEvent w crossed d).length ≤ crossed.toNat := by
  unfold widthEvent
  cases stepAtWidth w <;> cases crossed <;> simp

/-- A path of at most half a cycle that wraps ends before its start. -/
theorem wrapped_lt_start {ph d : F32} (hp : phaseLegal ph = true) (hd : Within 0 (1 / 2) d) (hwrap : 1 ≤ (ph.add d).val) :
    ((ph.add d).sub c1).val < ph.val := by
  obtain ⟨⟨-, -, hhi⟩, -⟩ := phaseSum_within hp hd
  obtain ⟨-, h0, h1⟩ := phaseLegal_iff.mp hp
  have ⟨_, hd0, hd1⟩ := hd
  have hround := F32.add_rounds (unit_finite h0 h1.le) (hd.finite (by norm_num) (by norm_num))
  have hnear := rounds_le_add hround (abs_le.mpr ⟨by linarith, by linarith⟩)
  rw [(wrap_exact hwrap (by linarith)).2]
  linarith

/-- A path of at most half a cycle has at most two events: where it wraps, it cannot cross the pulse width both before and
after the wrap (R134). -/
theorem segmentEvents_length_le {ph inc : F32} (w : Waveform) (pw : F32) (distance : F32 → F32)
    (hp : phaseLegal ph = true) (hinc : Within 0 (1 / 2) inc) :
    (segmentEvents w ph (ph.add inc) pw distance).length ≤ 2 := by
  unfold segmentEvents
  split
  · next hwrap =>
    have hlt := wrapped_lt_start hp hinc ((le_c1_iff (phaseSum_within hp hinc).1.1).mp hwrap)
    have honce : (F32.lt ph pw).toNat + (F32.le pw ((ph.add inc).sub c1)).toNat ≤ 1 := by
      cases hbefore : F32.lt ph pw
      · simpa using Bool.toNat_le _
      · have hafter : F32.le pw ((ph.add inc).sub c1) = false := by
          rw [Bool.eq_false_iff]
          intro hle
          linarith [(F32.lt_iff.mp hbefore).2.2, (F32.le_iff.mp hle).2.2]
        simp [hafter]
    have hfirst := widthEvent_length_le w (F32.lt ph pw) (distance ((ph.add inc).sub pw))
    have hlast := widthEvent_length_le w (F32.le pw ((ph.add inc).sub c1)) (distance (((ph.add inc).sub c1).sub pw))
    simp only [List.length_append, List.length_singleton]
    omega
  · exact (widthEvent_length_le _ _ _).trans ((Bool.toNat_le _).trans one_le_two)

/-- The part of an increment that a slave runs before its reset (R135). -/
theorem partialIncrement_within {dt sd : F32} (hd : F32.within cDtMin cDtMax dt = true) (hsd : Within 0 1 sd) :
    Within 0 (1 / 2) (dt.mul (c1.sub sd)) := by
  obtain ⟨-, hd0, hd1⟩ := dt_within_half hd
  have hrest : Within ((0 : Int) : ℚ) ((1 : Int) : ℚ) (c1.sub sd) :=
    within_of_rounds (F32.sub_rounds (by decide) (hsd.finite (by norm_num) (by norm_num))) 0 1 (by norm_num) (by norm_num)
      (by simpa using hsd.2.2) (by simpa using hsd.2.1)
  have ⟨_, hr0, hr1⟩ := hrest
  push_cast at hr0 hr1
  have hround := F32.mul_rounds (dt_bounds hd).1 (hrest.finite (by norm_num) (by norm_num))
  refine ⟨hround.notNaN, hround.nonneg (mul_nonneg hd0 hr0), ?_⟩
  simpa using hround.le (b := cHalf) (by decide) (by
    rw [cHalf_val]
    exact (mul_le_of_le_one_right hd0 hr1).trans hd1)

theorem syncPath_events_length_le {o : OscState} {dt : F32} (w : Waveform) (pw : F32) {sd : F32}
    (hp : phaseLegal o.phase = true) (hd : F32.within cDtMin cDtMax dt = true) (hsd : Within 0 1 sd) :
    (syncPath o dt w pw sd).events.length ≤ 4 := by
  obtain ⟨h, hevents⟩ := syncPath_events o dt w pw sd
  have hbefore := segmentEvents_length_le w pw (fun x => sd.add (x.div dt)) hp (partialIncrement_within hd hsd)
  have hafter := (widthEvent_length_le w (F32.le pw (dt.mul sd)) (((dt.mul sd).sub pw).div dt)).trans (Bool.toNat_le _)
  simp only [hevents, List.length_append, List.length_singleton]
  omega

/-- Settles O24: two events on a stretch without a reset, then the reset and one more crossing. -/
theorem oscillatorEvents : Obligations.OscillatorEvents := by
  intro o dt w pw hphase hdt hpw
  obtain ⟨-, -, hevents, hmd⟩ := freePath_ok w hphase hdt hpw
  refine ⟨?_, fun e he => unit_iff.mpr (hevents e he).1, fun md h => unit_iff.mpr (hmd md h), fun sd hsd => ?_⟩
  · rw [freePath_events]
    exact segmentEvents_length_le w pw _ hphase (dt_within_half hdt)
  · have hsd' : Within 0 1 sd := unit_iff.mp hsd
    obtain ⟨-, -, hsync⟩ := syncPath_ok w hphase hdt hpw hsd'
    exact ⟨syncPath_events_length_le w pw hphase hdt hsd', fun e he => unit_iff.mpr (hsync e he).1, rfl⟩

/-! ### The output -/

/-- Settles O25: the output is a clamp of a number, and the new pending sample is a naive value and the residuals of at most
five events. -/
theorem oscillatorOutputBounded : Obligations.OscillatorOutputBounded := by
  intro o dt w pw sd hphase hpend hdt hpw hsd
  obtain ⟨⟨hnewPhase, hnewPend⟩, ⟨hn, hlo, hhi⟩, -⟩ :=
    oscAdvance_ok w sd ⟨hphase, hpend⟩ hdt hpw fun d h => unit_iff.mp (hsd d h)
  exact ⟨F32.within_iff.mpr ⟨hn, cNeg1_notNaN, c1_notNaN, by rwa [cNeg1_val], by rwa [c1_val]⟩, hnewPhase, hnewPend⟩

/-- Settles O26: each row of R142, its results and then its events, is run. -/
theorem oscillatorExamples : Obligations.OscillatorExamples := by
  unfold Obligations.OscillatorExamples
  decide +kernel

end Sys2Proof.Machine
end

section
/-! PROOFS about one tick of the envelope (41_envelope.md R173 to R182). -/

namespace Sys2Proof.Machine

/-! ### The stages of a tick -/

/-- An attack that reaches 1.0 stops there (R174). -/
theorem envAttackTick_arrives {level c : F32} (h : F32.le c1 (level.add ((cAttTarget.sub level).mul c)) = true) :
    envAttackTick level c = ⟨.decay, c1⟩ := if_pos h

theorem envAttackTick_goesOn {level c : F32} (h : F32.le c1 (level.add ((cAttTarget.sub level).mul c)) = false) :
    envAttackTick level c = ⟨.attack, level.add ((cAttTarget.sub level).mul c)⟩ :=
  if_neg (ne_true_of_eq_false h)

/-- A decay that comes within `EPS_ENV` of its sustain level, or can move no further, ends there (R175). -/
theorem envDecayTick_arrives {level c S : F32}
    (h : F32.le ((level.add ((S.sub level).mul c)).sub S) cEpsEnv = true ∨
      F32.eq (level.add ((S.sub level).mul c)) level = true) : envDecayTick level c S = ⟨.sustain, S⟩ :=
  if_pos ((Bool.or_eq_true _ _).mpr h)

theorem envDecayTick_goesOn {level c S : F32}
    (hfar : F32.le ((level.add ((S.sub level).mul c)).sub S) cEpsEnv = false)
    (hmoves : F32.eq (level.add ((S.sub level).mul c)) level = false) :
    envDecayTick level c S = ⟨.decay, level.add ((S.sub level).mul c)⟩ := by
  simp [envDecayTick, hfar, hmoves]

/-- A release that falls to `EPS_ENV` is over (R177). -/
theorem envReleaseTick_arrives {level c : F32} (h : F32.le (level.sub (level.mul c)) cEpsEnv = true) :
    envReleaseTick level c = ⟨.idle, c0⟩ := if_pos h

theorem envReleaseTick_goesOn {level c : F32} (h : F32.le (level.sub (level.mul c)) cEpsEnv = false) :
    envReleaseTick level c = ⟨.release, level.sub (level.mul c)⟩ :=
  if_neg (ne_true_of_eq_false h)

theorem envRelease_of_ne_idle {g : Stage} (level : F32) (hg : g ≠ .idle) : envRelease ⟨g, level⟩ = ⟨.release, level⟩ :=
  if_neg hg

/-- Settles O27: each stage's tick ends the stage or goes on, as its condition says. -/
theorem envelopeStages : Obligations.EnvelopeStages := by
  intro lib fs level A D S R
  refine ⟨rfl, ?attack, ?decay, rfl, ?release, fun g => ⟨rfl, envRelease_of_ne_idle level⟩, rfl⟩
  case attack =>
    rintro _ rfl
    exact ⟨envAttackTick_arrives, envAttackTick_goesOn⟩
  case decay =>
    rintro _ rfl
    exact ⟨envDecayTick_arrives, envDecayTick_goesOn⟩
  case release =>
    rintro _ rfl
    exact ⟨envReleaseTick_arrives, envReleaseTick_goesOn⟩

/-! ### The direction of a tick -/

/-- The states an active envelope's tick can end in, whatever its condition (R174, R175, R177). -/
theorem envAttackTick_eq_or (level c : F32) : envAttackTick level c = ⟨.decay, c1⟩ ∨
    envAttackTick level c = ⟨.attack, level.add ((cAttTarget.sub level).mul c)⟩ := ite_eq_or_eq _ _ _

theorem envDecayTick_eq_or (level c S : F32) : envDecayTick level c S = ⟨.sustain, S⟩ ∨
    envDecayTick level c S = ⟨.decay, level.add ((S.sub level).mul c)⟩ := ite_eq_or_eq _ _ _

theorem envReleaseTick_eq_or (level c : F32) : envReleaseTick level c = ⟨.idle, c0⟩ ∨
    envReleaseTick level c = ⟨.release, level.sub (level.mul c)⟩ := ite_eq_or_eq _ _ _

/-- An attack tick moves toward a target above 1.0, or ends at 1.0 (R174). -/
theorem le_envAttackTick_level {level c : F32} (hl : F32.within c0 c1 level = true) (hc : F32.within c0 c1 c = true) :
    level.val ≤ (envAttackTick level c).level.val := by
  obtain ⟨-, hl0, hl1⟩ := unit_iff.mp hl
  obtain ⟨-, hc0, hc1⟩ := unit_iff.mp hc
  obtain ⟨-, hup, -⟩ := approach_bounds (level := level) (target := cAttTarget) (unit_finite hl0 hl1) (by decide)
    (by rw [abs_of_nonneg hl0]; linarith) (by rw [cAttTarget_val]; norm_num) hc0 hc1
  rcases envAttackTick_eq_or level c with h | h <;> rw [h]
  · rwa [c1_val]
  · exact (hup (by rw [cAttTarget_val]; linarith)).1

/-- From a level at or above its sustain level a decay tick moves toward the sustain level, or ends at it (R175). -/
theorem envDecayTick_level_le {level c S : F32} (hl : F32.within c0 c1 level = true) (hc : F32.within c0 c1 c = true)
    (hS : F32.within c0 c1 S = true) (hSl : S.val ≤ level.val) : (envDecayTick level c S).level.val ≤ level.val := by
  obtain ⟨-, hl0, hl1⟩ := unit_iff.mp hl
  obtain ⟨-, hc0, hc1⟩ := unit_iff.mp hc
  obtain ⟨-, hS0, hS1⟩ := unit_iff.mp hS
  obtain ⟨-, -, hdown, -⟩ := approach_bounds (c := c) (unit_finite hl0 hl1) (unit_finite hS0 hS1)
    (by rw [abs_of_nonneg hl0]; linarith) (by rw [abs_of_nonneg hS0]; linarith) hc0 hc1
  rcases envDecayTick_eq_or level c S with h | h <;> rw [h]
  · exact hSl
  · exact hdown hSl

/-- A release tick takes a part of the level away, or ends at 0.0 (R177). -/
theorem envReleaseTick_level_le {level c : F32} (hl : F32.within c0 c1 level = true) (hc : F32.within c0 c1 c = true) :
    (envReleaseTick level c).level.val ≤ level.val := by
  obtain ⟨hln, hl0, hl1⟩ := unit_iff.mp hl
  obtain ⟨-, hc0, hc1⟩ := unit_iff.mp hc
  have hpart := F32.mul_rounds (unit_finite hl0 hl1) (unit_finite hc0 hc1)
  have hpart0 : 0 ≤ (level.mul c).val := hpart.nonneg (mul_nonneg hl0 hc0)
  have hpart1 : (level.mul c).val ≤ level.val := hpart.le hln (mul_le_of_le_one_right hl0 hc1)
  have hrest := F32.sub_rounds (unit_finite hl0 hl1) (unit_finite hpart0 (hpart1.trans hl1))
  rcases envReleaseTick_eq_or level c with h | h <;> rw [h]
  · rwa [c0_val]
  · exact hrest.le hln (by linarith)

/-- At a legal rate the coefficients of a time in [0.0, 1.0] lie in [0.0, 1.0] (R172). -/
theorem coefAtt_unit {lib : TransLib} (hlib : LibOk lib) {fs p : F32} (hfs : F32.within c8000 c192000 fs = true)
    (hp : F32.within c0 c1 p = true) : F32.within c0 c1 (coefAtt lib fs p) = true := by
  obtain ⟨-, hp0, hp1⟩ := unit_iff.mp hp
  obtain ⟨-, -, -, hf0, hf1⟩ := F32.within_iff.mp hfs
  exact unit_iff.mpr (coefAtt_bounds hlib hp0 hp1 (c8000_val ▸ hf0) (c192000_val ▸ hf1))

theorem coefDr_unit {lib : TransLib} (hlib : LibOk lib) {fs p : F32} (hfs : F32.within c8000 c192000 fs = true)
    (hp : F32.within c0 c1 p = true) : F32.within c0 c1 (coefDr lib fs p) = true := by
  obtain ⟨-, hp0, hp1⟩ := unit_iff.mp hp
  obtain ⟨-, -, -, hf0, hf1⟩ := F32.within_iff.mp hfs
  exact unit_iff.mpr (coefDr_bounds hlib hp0 hp1 (c8000_val ▸ hf0) (c192000_val ▸ hf1))

/-- Settles O28: both coefficients lie in [0.0, 1.0], and with such a coefficient a tick moves the level toward the stage's
target. -/
theorem envelopeBoundedAndMonotone : Obligations.EnvelopeBoundedAndMonotone := by
  intro lib fs e A D S R hlib hfs hlevel hA hD hS hR
  obtain ⟨-, -, -, hf0, hf1⟩ := F32.within_iff.mp hfs
  obtain ⟨stage, level⟩ := e
  refine ⟨envAdvance_level hlib (c8000_val ▸ hf0) (c192000_val ▸ hf1) hA hD hS hR hlevel, ?attack, ?release, ?decay⟩
  case attack =>
    rintro rfl
    exact le_envAttackTick_level hlevel (coefAtt_unit hlib hfs hA)
  case release =>
    rintro rfl
    exact envReleaseTick_level_le hlevel (coefDr_unit hlib hfs hR)
  case decay =>
    rintro rfl hSl
    exact envDecayTick_level_le hlevel (coefDr_unit hlib hfs hD) hS hSl

end Sys2Proof.Machine
end

section
/-! PROOFS about the filter: its coefficients' ranges, its bounds, its rest at zero (42_filter.md R203 to R211). -/

namespace Sys2Proof

/-! ### Exact zeros -/

theorem F32.round_zero (s : Bool) {den : Nat} (hden : 0 < den) : F32.round s 0 den = F32.zero s := by
  have hmag : F32.roundMag 0 den = 0 := Nat.le_zero.mp (F32.roundMag_le hden (Nat.zero_le _))
  rw [F32.round, hmag, F32.zero]

/-- A finite value times a zero is a zero, of the product's sign. -/
theorem F32.mul_zero {x : F32} (hx : x.isFinite = true) (s : Bool) :
    x.mul (F32.zero s) = F32.zero (x.sign != s) := by
  have hfinite : (F32.zero s).isFinite = true := by cases s <;> decide
  have hsign : (F32.zero s).sign = s := F32.sign_ofSignMag s (by norm_num)
  have hunits : (F32.zero s).units = 0 := by cases s <;> decide
  have hround : x.mul (F32.zero s) = F32.round (x.sign != s) 0 F32.one149 := by
    simp [F32.mul, F32.not_nan_of_finite, F32.not_inf_of_finite, hx, hfinite, hsign, hunits]
  exact hround.trans (F32.round_zero _ (Nat.two_pow_pos 149))

theorem F32.sign_div {x y : F32} (hx : x.isFinite = true) (hy : y.isFinite = true) (h0 : y.val ≠ 0) :
    (x.div y).sign = (x.sign != y.sign) := by
  have hzero : y.isZero = false := by rw [← Bool.not_eq_true, F32.isZero_iff]; exact h0
  simp [F32.div, F32.not_nan_of_finite, F32.not_inf_of_finite, hx, hy, hzero]

theorem F32.sign_of_val_pos {x : F32} (h : 0 < x.val) : x.sign = false := by
  by_contra hs
  rw [Bool.not_eq_false] at hs
  have hmag : (0 : ℚ) ≤ (F32.unitsOfMag x.mag : ℚ) / 2 ^ 149 := by positivity
  rw [F32.val_eq, if_pos hs] at h
  linarith

/-- `min(max(x, lo), hi)` of a number lies between its bounds. -/
theorem F32.fmin_fmax_within {x lo hi : F32} (hx : x.isNaN = false) (hlo : lo.isNaN = false) (hhi : hi.isNaN = false)
    (h : lo.val ≤ hi.val) : F32.within lo hi (F32.fmin (F32.fmax x lo) hi) = true := by
  have hmax := F32.fmax_notNaN hx hlo
  rw [F32.within_iff, F32.fmin_val hmax hhi, F32.fmax_val hx hlo]
  exact ⟨F32.fmin_notNaN hmax hhi, hlo, hhi, le_min (le_max_right _ _) h, min_le_right _ _⟩

end Sys2Proof

namespace Sys2Proof.Machine

/-! ### The coefficients of a tick -/

theorem bipolar_iff {x : F32} : F32.within cNeg1 c1 x = true ↔ Within (-1) 1 x := by
  rw [F32.within_iff, Within]
  simp

/-- The cutoff frequency lies in [10.0, 0.45 FS]: the upper bound is above the lower at every legal rate (R203). -/
theorem cutoffHz_within {s : State} (hlib : LibOk s.cfg.lib) (h : registersLegal s = true) {fenv gp lm : F32}
    (hfenv : F32.within c0 c1 fenv = true) (hgp : pitchLegal gp = true) (hlm : Within (-1) 1 lm) :
    F32.within cFcMin (cNyqFrac.mul s.fs) (cutoffHz s fenv gp lm) = true := by
  obtain ⟨-, -, -, hfs, -⟩ := globals_bounds h
  have hnyq := F32.mul_rounds (x := cNyqFrac) (by decide)
    (Within.finite (a := 8000) (b := 192000) hfs (by norm_num) (by norm_num))
  have hle : cFcMin.val ≤ (cNyqFrac.mul s.fs).val :=
    hnyq.ge cFcMin_notNaN (by rw [cFcMin_val, cNyqFrac_val]; linarith [hfs.2.1])
  have hexp := hlib.exp2_notNaN _ (cutoffExponent_notNaN h (s.switch .lfoDestFilter) hfenv hgp hlm)
  exact F32.fmin_fmax_within hexp cFcMin_notNaN hnyq.notNaN hle

/-- The damping's scale, by `SELF_OSC` (R205). -/
theorem filterK_eq_norm {s : State} (h : s.paramInt .selfOsc = 0) :
    filterK s = c2.sub (cKNorm.mul (s.param .resonance)) := by simp [filterK, State.switch, h]

theorem filterK_eq_self {s : State} (h : s.paramInt .selfOsc = 1) :
    filterK s = c2.sub (cKSelf.mul (s.param .resonance)) := by simp [filterK, State.switch, h]

/-- A damping `2.0 - scale * resonance` lies between what it is at resonance 1.0 and 2.0 (R205). -/
theorem filterK_within_of_eq {s : State} (h : registersLegal s = true) {scale b : F32}
    (heq : filterK s = c2.sub (scale.mul (s.param .resonance))) (hscale : Within 0 4 scale) (hb : b.isNaN = false)
    (hval : b.val = 2 - scale.val) : F32.within b c2 (filterK s) = true := by
  obtain ⟨hkn, -, hk2⟩ := filterK_within h
  have hres := param_within h .resonance
  simp only [paramRow, c0_val, c1_val] at hres
  have hmul := F32.mul_rounds (hscale.finite (by norm_num) (by norm_num)) (hres.finite (by norm_num) (by norm_num))
  have hmul0 : 0 ≤ (scale.mul (s.param .resonance)).val := hmul.nonneg (mul_nonneg hscale.2.1 hres.2.1)
  have hmul1 : (scale.mul (s.param .resonance)).val ≤ scale.val :=
    hmul.le hscale.1 (mul_le_of_le_one_right hscale.2.1 hres.2.2)
  have hfinite := F32.finite_of_bounds hmul0 (hmul1.trans hscale.2.2) (by norm_num) (by norm_num)
  have hlow : b.val ≤ (filterK s).val :=
    heq ▸ (F32.sub_rounds (x := c2) (by decide) hfinite).ge hb (by rw [c2_val]; linarith)
  exact F32.within_iff.mpr ⟨hkn, hb, c2_notNaN, hlow, by rwa [c2_val]⟩

/-- The damping at resonance 1.0 with `SELF_OSC = 0` (R205). -/
def dampingAtFullNorm : F32 := ⟨0x3D23D700#32⟩

/-- The damping at resonance 1.0 with `SELF_OSC = 1` (R205). -/
def dampingAtFullSelf : F32 := ⟨0xBD23D700#32⟩

theorem dampingAtFullNorm_val : dampingAtFullNorm.val = 2 - cKNorm.val := by
  rw [F32.val, show dampingAtFullNorm.units = 10737408 * 2 ^ 121 by decide +kernel, cKNorm_val]; norm_num

theorem dampingAtFullSelf_val : dampingAtFullSelf.val = 2 - cKSelf.val := by
  rw [F32.val, show dampingAtFullSelf.units = -(10737408 * 2 ^ 121) by decide +kernel, cKSelf_val]; norm_num

theorem filterK_within_norm {s : State} (h : registersLegal s = true) (hself : s.paramInt .selfOsc = 0) :
    F32.within dampingAtFullNorm c2 (filterK s) = true :=
  filterK_within_of_eq h (filterK_eq_norm hself) ⟨cKNorm_notNaN, by norm_num, by norm_num⟩ (by decide)
    dampingAtFullNorm_val

theorem filterK_within_self {s : State} (h : registersLegal s = true) (hself : s.paramInt .selfOsc = 1) :
    F32.within dampingAtFullSelf c2 (filterK s) = true :=
  filterK_within_of_eq h (filterK_eq_self hself) ⟨cKSelf_notNaN, by norm_num, by norm_num⟩ (by decide)
    dampingAtFullSelf_val

/-- Settles O29: the cutoff is clamped, `g` is the tangent of an angle below pi/2, the damping falls with the resonance. -/
theorem filterCoefficientRanges : Obligations.FilterCoefficientRanges := by
  intro s fenv gp lm hlib hregs hfenv hgp hlm
  have hlm' := bipolar_iff.mp hlm
  refine ⟨cutoffHz_within hlib hregs hfenv hgp hlm', filterG_within hlib hregs hfenv hgp hlm', filterK_within hregs,
    fun hself => ?norm, filterK_within_self hregs⟩
  case norm =>
    have hk := filterK_within_norm hregs hself
    obtain ⟨-, -, -, hlow, -⟩ := F32.within_iff.mp hk
    refine ⟨hk, lt_of_lt_of_le ?_ hlow⟩
    rw [dampingAtFullNorm_val, cKNorm_val]
    norm_num

/-! ### Rest and bounds -/

/-- The state of a stage at rest. -/
def svfRest : SvfState := ⟨c0, c0⟩

theorem c0_add_zero (s : Bool) : c0.add (F32.zero s) = c0 := by cases s <;> decide

theorem c0_sub_zero (s : Bool) : c0.sub (F32.zero s) = c0 := by cases s <;> decide

theorem mul_c0 {x : F32} (hx : x.isFinite = true) : x.mul c0 = F32.zero x.sign := by
  have h := F32.mul_zero hx false
  rwa [Bool.bne_false] at h

/-- A stage at rest with input 0.0 stays at rest and gives +0.0 on every tap: `a1` is positive, so that no sum has two
negative zeros, whatever the signs of `g` and the damping (R206, R209). -/
theorem svf_rest {g kk : F32} (hg : Within 0 8 g) (hk : Within (-1 / 20) 2 kk) :
    svf svfRest c0 g kk = (svfRest, ⟨c0, c0, c0⟩) := by
  obtain ⟨hden, hdenFinite⟩ := svfDen_bounds hg.1 hg.2.1 hg.2.2 hk.1 hk.2.1 hk.2.2
  have hkFinite : kk.isFinite = true := hk.finite (by norm_num) (by norm_num)
  have hgSmall : F32.Small 3 g := F32.Small.of_bounds hg.1 (by linarith [hg.2.1]) (by linarith [hg.2.2])
  have h1Small : F32.Small 0 c1 := F32.Small.of_bounds c1_notNaN (by norm_num) (by norm_num)
  have ha1 : F32.Small 1 (c1.div (c1.add (g.mul (g.add kk)))) :=
    h1Small.div (k := 1) hdenFinite (by rw [abs_of_nonneg (by linarith)]; linarith) (by norm_num)
  have ha1Sign : (c1.div (c1.add (g.mul (g.add kk)))).sign = false := by
    rw [F32.sign_div (by decide) hdenFinite (by linarith), F32.sign_of_val_pos (lt_of_lt_of_le (by norm_num) hden)]
    decide
  unfold svf svfRest
  dsimp only
  generalize c1.div (c1.add (g.mul (g.add kk))) = a1 at ha1 ha1Sign
  have ha2 := hgSmall.mul ha1 (by norm_num)
  have ha3 := hgSmall.mul ha2 (by norm_num)
  have hv3 : c0.sub c0 = c0 := c0_sub_zero false
  have hv1 : (a1.mul c0).add ((g.mul a1).mul c0) = c0 := by
    rw [mul_c0 (ha1.finite (by norm_num)), mul_c0 (ha2.finite (by norm_num)), ha1Sign]
    exact c0_add_zero _
  have hv2 : (c0.add ((g.mul a1).mul c0)).add ((g.mul (g.mul a1)).mul c0) = c0 := by
    rw [mul_c0 (ha2.finite (by norm_num)), mul_c0 (ha3.finite (by norm_num)), c0_add_zero, c0_add_zero]
  have hclamp : clampFilt c0 = c0 := by decide +kernel
  have htwice : (c2.mul c0).sub c0 = c0 := by decide +kernel
  have hhp : (c0.sub (kk.mul c0)).sub c0 = c0 := by rw [mul_c0 hkFinite, c0_sub_zero, hv3]
  rw [hv3, hv1, hv2, hclamp, htwice, hhp, hclamp]

theorem pickTap_const (mode : Int) (x : F32) : pickTap mode ⟨x, x, x⟩ = x := by
  rcases pickTap_cases mode ⟨x, x, x⟩ with h | h | h <;> exact h

/-- A filter at rest with input 0.0 stays at rest, in every mode (R209). -/
theorem filterProcess_rest {g k : F32} (hg : Within 0 8 g) (hk : Within (-1 / 20) 2 k) (mode : Int) :
    filterProcess ⟨svfRest, svfRest⟩ c0 g k mode = (⟨svfRest, svfRest⟩, c0) := by
  have hk2 : Within (-1 / 20) 2 c2 := ⟨c2_notNaN, by norm_num, by norm_num⟩
  unfold filterProcess
  split
  · simp [svf_rest hg hk, pickTap_const]
  · simp [svf_rest hg hk, svf_rest hg hk2, pickTap_const]

/-- Settles O30: each stage clamps its states and taps, and a stage at rest stays there. -/
theorem filterBounded : Obligations.FilterBounded := by
  intro g k mode hgn hg0 hg8 hkn hk0 hk2
  have hg : Within 0 8 g := ⟨hgn, hg0, hg8⟩
  have hk : Within (-1 / 20) 2 k := ⟨hkn, hk0, hk2⟩
  refine ⟨fun f x h11 h12 h21 h22 hx => ?_, filterProcess_rest hg hk mode⟩
  obtain ⟨⟨⟨h11', h12'⟩, h21', h22'⟩, hout⟩ :=
    filterProcess_ok (f := f) ⟨⟨h11, h12⟩, h21, h22⟩ (bipolar_iff.mp hx) hg hk mode
  exact ⟨hout, h11', h12', h21', h22'⟩

/-! ### Worked steps -/

/-- A two-pole mode runs the first stage only (R202, R207). -/
theorem filterProcess_s2_of_twoPole (f : FilterState) (x g k : F32) {mode : Int} (h : mode < 3) :
    (filterProcess f x g k mode).1.s2 = f.s2 := by
  rw [filterProcess, if_pos h]

/-- Settles O31: the seven stage steps of R211 are run, and a two-pole mode leaves the second stage. -/
theorem filterExamples : Obligations.FilterExamples :=
  ⟨by decide +kernel, by decide +kernel, by decide +kernel, by decide +kernel, by decide +kernel, by decide +kernel,
    by decide +kernel, fun f x g k _ h => filterProcess_s2_of_twoPole f x g k h⟩

end Sys2Proof.Machine
end

section
/-! PROOFS about the voice: what a trigger writes, the glide step, the bounds of its modulation and the LFO's tick
(43_voice.md R231 to R250). -/

namespace Sys2Proof.Machine

/-! ### The glide -/

/-- The pitch of a glide in progress, a part `r` of the way from `a` to `b` and stopped at `b` (R231). -/
def glidePitch (a b r : F32) : F32 :=
  let x := a.add ((b.sub a).mul r)
  if F32.lt a b then F32.fmin x b else F32.fmax x b

theorem glidePitch_between {a b r : F32} (ha : pitchLegal a = true) (hb : pitchLegal b = true) (hr : Within 0 1 r) :
    min a.val b.val ≤ (glidePitch a b r).val ∧ (glidePitch a b r).val ≤ max a.val b.val := by
  rw [pitchLegal_iff] at ha hb
  obtain ⟨hn, hup, hdown⟩ := glide_side ha hb hr
  unfold glidePitch
  dsimp only
  split
  · next hlt =>
    have hab : a.val ≤ b.val := (F32.lt_iff.mp hlt).2.2.le
    rw [F32.fmin_val hn hb.1, min_eq_left hab, max_eq_right hab]
    exact ⟨le_min (hup hab) hab, min_le_right _ _⟩
  · next hge =>
    have hba : b.val ≤ a.val := not_lt.mp fun h => hge (F32.lt_iff.mpr ⟨ha.1, hb.1, h⟩)
    rw [F32.fmax_val hn hb.1, min_eq_right hba, max_eq_left hba]
    exact ⟨le_max_right _ _, max_le (hdown hba) hba⟩

/-- The part of a glide done after `n` ticks lies in [0.0, 1.0] until it reaches 1.0 (R231). -/
theorem glidePart_within {n : Nat} {ticks : F32} (hn : n ≤ 2 ^ 22) (hticks : Within 7 (2 ^ 22) ticks)
    (hrun : ¬F32.le c1 ((F32.ofInt n).div ticks) = true) : Within 0 1 ((F32.ofInt n).div ticks) := by
  have hval : (F32.ofInt n).val = n := by rw [F32.ofInt_val (by omega)]; simp
  have hpart := F32.div_rounds (x := F32.ofInt n)
    (finite_of_int_bounds 0 (2 ^ 22) (by rw [hval]; push_cast; positivity) (by rw [hval]; exact_mod_cast hn)
      (by norm_num) (by norm_num))
    (hticks.finite (by norm_num) (by norm_num)) (by linarith [hticks.2.1])
  refine ⟨hpart.notNaN, hpart.nonneg (div_nonneg (by rw [hval]; positivity) (by linarith [hticks.2.1])), ?_⟩
  exact (not_le.mp (mt (le_c1_iff hpart.notNaN).mpr hrun)).le

theorem glideStep_at_target {s : State} {v : Voice} (h : F32.eq v.gp v.gto = true) : glideStep s v = v := if_pos h

/-- Away from its target a glide step arrives there, or, with portamento on, goes a part of the way (R231). -/
theorem glideStep_cases {s : State} (hlib : LibOk s.cfg.lib) (h : registersLegal s = true) {v : Voice}
    (hgn : v.gn < 2 ^ 22) (hmoving : F32.eq v.gp v.gto = false) :
    (∃ n, glideStep s v = { v with gp := v.gto, gn := n }) ∨
    (F32.eq (s.param .portamento) c0 = false ∧
      ∃ r, Within 0 1 r ∧ glideStep s v = { v with gp := glidePitch v.gfrom v.gto r, gn := v.gn + 1 }) := by
  unfold glideStep
  rw [if_neg (by simp [hmoving])]
  dsimp only
  rcases portaTime_cases hlib h with ⟨-, hoff⟩ | ⟨hporta, hon, hticks⟩
  · rw [hoff, if_pos (eq_self_of_notNaN c0_notNaN)]
    exact .inl ⟨v.gn, rfl⟩
  · rw [if_neg (by simp [hon])]
    split
    · exact .inl ⟨v.gn + 1, rfl⟩
    · next hrun => exact .inr ⟨hporta, _, glidePart_within hgn hticks hrun, rfl⟩

/-- Settles O33: by the cases of a glide step; a pitch on the way is stopped at the target. -/
theorem glideNeverPassesTarget : Obligations.GlideNeverPassesTarget := by
  intro s v hlib hregs hgp hgfrom hgto hgn
  dsimp only
  cases hat : F32.eq v.gp v.gto with
  | true => simp [glideStep_at_target hat]
  | false =>
    rcases glideStep_cases hlib hregs hgn hat with ⟨n, harrive⟩ | ⟨hporta, r, hr, hway⟩
    · simp [harrive]
    · simpa [hway, hporta] using glidePitch_between hgfrom hgto hr

/-! ### Increments and widths under modulation -/

/-- Settles O34: the modulated pitch is a number, so the clamps of increment and width give their bounds. -/
theorem modulatedPitchAndWidthBounded : Obligations.ModulatedPitchAndWidthBounded := by
  intro s v fenv lm hlib hregs hgp hfenv hlm hcopy hunison
  have hlm' := bipolar_iff.mp hlm
  obtain ⟨hpitch1, hpitch2⟩ := pitches_within hregs hfenv hlm' hgp hcopy hunison
  have hwidth : ∀ {p : Param}, (paramRow s.cfg.poolSize p).lo = cPwMin ∧ (paramRow s.cfg.poolSize p).hi = cPwMax →
      F32.within cPwMin cPwMax (pulseWidth s p lm) = true := by
    intro p hrow
    have hp := param_within hregs p
    rw [hrow.1, hrow.2] at hp
    exact pulseWidth_within (hp.mono (by norm_num) (by norm_num)) hlm'
  exact ⟨pitchDt_within hlib hregs hpitch1, pitchDt_within hlib hregs hpitch2, hwidth ⟨rfl, rfl⟩, hwidth ⟨rfl, rfl⟩⟩

/-! ### The LFO -/

/-- The integer of a legal parameter register lies between the bounds of its row (R42). -/
theorem paramInt_bounds {s : State} (h : registersLegal s = true) {p : Param} {a b : Int}
    (ha : (paramRow s.cfg.poolSize p).lo.val = a) (hb : (paramRow s.cfg.poolSize p).hi.val = b) :
    a ≤ s.paramInt p ∧ s.paramInt p ≤ b := by
  obtain ⟨-, hlo, hhi⟩ := param_within h p
  rw [ha] at hlo
  rw [hb] at hhi
  rw [State.paramInt, F32.floor_eq]
  exact ⟨Int.le_floor.mpr hlo, Int.cast_le.mp ((Int.floor_le _).trans hhi)⟩

/-- In every waveform the phase advances and wraps once (R241). -/
theorem lfoAdvance_phase (s : State) (l : LfoState) (noise : F32) :
    (lfoAdvance s l noise).1.phase =
      if F32.le c1 (l.phase.add ((lfoHz s).div s.fs)) = true then (l.phase.add ((lfoHz s).div s.fs)).sub c1
      else l.phase.add ((lfoHz s).div s.fs) := by
  rw [lfoAdvance]
  split_ifs <;> rfl

/-- The sample-and-hold takes the noise at a wrap, in the waveform that is neither sine nor square (R242). -/
theorem lfoAdvance_sh (s : State) (l : LfoState) (noise : F32) :
    (lfoAdvance s l noise).1.sh =
      if (s.paramInt .lfoWave ≠ 0 ∧ s.paramInt .lfoWave ≠ 1) ∧ F32.le c1 (l.phase.add ((lfoHz s).div s.fs)) = true
      then noise else l.sh := by
  rw [lfoAdvance]
  by_cases hsine : s.paramInt .lfoWave = 0
  · simp [hsine]
  · by_cases hsquare : s.paramInt .lfoWave = 1
    · simp [hsquare]
    · simp [hsine, hsquare]

/-- Settles O35: the increment is at most 1/64, so one exact subtraction wraps the phase. -/
theorem lfoAdvances : Obligations.LfoAdvances := by
  intro s l noise hlib hregs hl hlow hhigh
  have hnoise : Holdable noise := ⟨(F32.lt_iff.mp hhigh).1, by simpa using (F32.le_iff.mp hlow).2.2,
    by simpa using (F32.lt_iff.mp hhigh).2.2⟩
  have hphase := ((lfoLegal_iff l).mp hl).1
  have hinc := (lfoInc_within hlib hregs).mono le_rfl (by norm_num : (1 / 64 : ℚ) ≤ 1 / 2)
  have hsum := (phaseSum_within hphase hinc).1.1
  obtain ⟨hlegal, hvalue⟩ := lfoAdvance_ok hlib hregs hnoise hl
  refine ⟨(congrArg F32.val (lfoAdvance_phase s l noise)).trans (wrappedPhase_val hphase hinc), ?hold, hlegal,
    bipolar_iff.mpr hvalue⟩
  case hold =>
    obtain ⟨hwave0, hwave2⟩ := paramInt_bounds hregs (p := .lfoWave) (a := 0) (b := 2) (by simp [paramRow])
      (by simp [paramRow])
    have hwave : (s.paramInt .lfoWave ≠ 0 ∧ s.paramInt .lfoWave ≠ 1) ↔ s.paramInt .lfoWave = 2 := by omega
    simp only [lfoAdvance_sh, hwave, le_c1_iff hsum]

/-! ### The trigger -/

/-- Every trigger writes the note's fields and the glide's target, and keeps the filter and the held sample (R247). -/
theorem voiceTrigger_writes (s : State) (v : Voice) (key note : Int) (vel : F32) (c N : Nat) (retrig : Bool) :
    let w := voiceTrigger s v key note vel c N retrig
    w.assigned = true ∧ w.key = key ∧ w.note = note ∧ w.vel = vel ∧ w.gate = .held ∧ w.age = s.age ∧ w.copy = c ∧
      w.uniN = N ∧ w.gto = (F32.ofInt note).add (s.param .masterTune) ∧ w.gn = 0 ∧ w.gvalid = true ∧ w.filt = v.filt ∧
      w.lfo.sh = v.lfo.sh := by
  cases retrig <;> exact ⟨rfl, rfl, rfl, rfl, rfl, rfl, rfl, rfl, rfl, rfl, rfl, rfl, rfl⟩

/-- Where the glide of a trigger starts: at its target for a voice not triggered since reset or with portamento off, else
at the voice's own pitch (R247). -/
theorem voiceTrigger_start (s : State) (v : Voice) (key note : Int) (vel : F32) (c N : Nat) (retrig : Bool) :
    let w := voiceTrigger s v key note vel c N retrig
    let start := if (!v.gvalid || F32.eq (portaTime s) c0) = true then (F32.ofInt note).add (s.param .masterTune) else v.gp
    w.gp = start ∧ w.gfrom = start := by
  cases retrig <;> exact ⟨rfl, rfl⟩

/-- A trigger with retrigger restarts each oscillator's phase where `OSC_RESET` asks for it (R247). -/
theorem voiceTrigger_oscillators (s : State) (v : Voice) (key note : Int) (vel : F32) (c N : Nat) :
    let w := voiceTrigger s v key note vel c N true
    w.osc1 = (if s.switch .oscReset = true then oscPhaseReset v.osc1 else v.osc1) ∧
      w.osc2 = (if s.switch .oscReset = true then oscPhaseReset v.osc2 else v.osc2) :=
  ⟨rfl, rfl⟩

/-- Settles O32: by cases on the glide's start, on retrigger and on `OSC_RESET`. -/
theorem triggerWritesVoice : Obligations.TriggerWritesVoice := by
  intro s v key note vel c N retrig
  have hstart := voiceTrigger_start s v key note vel c N retrig
  have hosc := voiceTrigger_oscillators s v key note vel c N
  refine ⟨voiceTrigger_writes s v key note vel c N retrig, fun hjump => ?jump, fun hvalid hporta => ?glide, ?legato,
    ?retrigger⟩
  case jump =>
    have hcond : (!v.gvalid || F32.eq (portaTime s) c0) = true := by
      rw [Bool.or_eq_true, Bool.not_eq_true']
      exact hjump
    rwa [if_pos hcond] at hstart
  case glide =>
    have hcond : (!v.gvalid || F32.eq (portaTime s) c0) = false := by
      rw [Bool.or_eq_false_iff, Bool.not_eq_false']
      exact ⟨hvalid, hporta⟩
    rwa [if_neg (by rw [hcond]; decide)] at hstart
  case legato => rintro rfl; exact ⟨rfl, rfl, rfl, rfl, rfl⟩
  case retrigger =>
    rintro rfl
    refine ⟨rfl, rfl, rfl, fun hreset => ?_, fun hkeep => ?_⟩
    · have hswitch : s.switch .oscReset = true := by rw [State.switch, hreset]; rfl
      simp only [hswitch, if_true] at hosc
      exact hosc
    · have hswitch : s.switch .oscReset = false := decide_eq_false hkeep
      simp only [hswitch, Bool.false_eq_true, if_false] at hosc
      exact hosc

end Sys2Proof.Machine
end

section
/-! PROOFS about allocation and NOTE_ON: the order in which an allocation chooses, and what one note triggers
(44_voice_manager.md R270 to R275). -/

namespace Sys2Proof.Machine

/-! ### Choosing a voice -/

/-- In a list of ascending indices the first match has the lowest index. -/
theorem find?_lowest {p : Voice × Nat → Bool} {cs : List (Voice × Nat)} {x : Voice × Nat}
    (hsorted : cs.Pairwise fun a b => a.2 < b.2) (h : cs.find? p = some x) : ∀ y ∈ cs, p y = true → x.2 ≤ y.2 := by
  obtain ⟨-, before, after, rfl, hbefore⟩ := List.find?_eq_some_iff_append.mp h
  intro y hy hp
  rcases List.mem_append.mp hy with hy | hy
  · exact absurd hp (by simpa using hbefore y hy)
  · rcases List.mem_cons.mp hy with rfl | hy
    · exact le_rfl
    · exact (List.rel_of_pairwise_cons (List.pairwise_append.mp hsorted).2.1 hy).le

/-- Of a list of ascending indices the oldest stands before every other in age, or as old and at a lower index. -/
theorem oldestOf_first {s : State} {cs : List (Voice × Nat)} {x : Voice × Nat}
    (hsorted : cs.Pairwise fun a b => a.2 < b.2) (h : oldestOf s cs = some x) :
    x ∈ cs ∧ ∀ y ∈ cs, ageDist s y.1 < ageDist s x.1 ∨ (ageDist s y.1 = ageDist s x.1 ∧ x.2 ≤ y.2) := by
  obtain ⟨hmem, hall⟩ := (oldestOf_spec s cs).2 x h
  refine ⟨hmem, fun y hy => ?_⟩
  obtain ⟨hle, htie⟩ := hall y hy
  exact hle.lt_or_eq.imp_right fun heq => ⟨heq, htie hsorted heq⟩

/-- The age distance as the rules compute it, modulo 2^32. -/
theorem ageDist_eq (s : State) (v : Voice) : ageDist s v = (2 ^ 32 + s.age.toNat - v.age.toNat) % 2 ^ 32 := by
  have := v.age.isLt
  rw [ageDist, BitVec.toNat_sub]
  congr 1
  omega

theorem allocate_eq_none_iff {s : State} {key : Int} {c V : Nat} {taken : List Nat} :
    allocate s key c V taken = none ↔ ∀ j w, ¬isCandidate s V taken j w := by
  constructor
  · intro hnone j w hcand
    have hsome := allocate_isSome (key := key) (c := c) hcand
    rw [hnone] at hsome
    cases hsome
  · intro hno
    cases h : allocate s key c V taken with
    | none => rfl
    | some x => exact absurd (allocate_isCandidate h) (hno x.2 x.1)

/-- The four steps of an allocation: each result stands for a step whose earlier steps found nothing. -/
theorem allocate_cases {s : State} {key : Int} {c V : Nat} {taken : List Nat} {x : Voice × Nat}
    (h : allocate s key c V taken = some x) :
    let cs := candidates s V taken
    let keyMatch := cs.find? fun y => y.1.assigned && decide (y.1.key = key) && decide (y.1.copy = c)
    let idle := cs.find? fun y => isStealable y.1
    let releasing := oldestOf s (cs.filter fun y => decide (y.1.gate = .released))
    keyMatch = some x ∨ (keyMatch = none ∧ idle = some x) ∨ (keyMatch = none ∧ idle = none ∧ releasing = some x) ∨
      (keyMatch = none ∧ idle = none ∧ releasing = none ∧ oldestOf s cs = some x) := by
  unfold allocate at h
  simpa [Option.or_eq_some_iff, and_or_left] using h

/-- Settles O36: by the step that decides; first matches are lowest in the ascending candidates, and the oldest of a list
is its first. -/
theorem allocationOrder : Obligations.AllocationOrder := by
  intro s key c V taken
  dsimp only
  refine ⟨allocate_eq_none_iff, fun v i h => ⟨allocate_isCandidate h, ?_⟩⟩
  have hsorted := candidates_sorted s V taken
  have hcases := allocate_cases h
  simp only [List.find?_eq_none, Bool.and_eq_true, decide_eq_true_eq, isStealable, and_assoc, Prod.forall] at hcases
  simp only [← ageDist_eq, ← mem_candidates]
  rcases hcases with hkey | ⟨hnokey, hidle⟩ | ⟨hnokey, hnoidle, hreleasing⟩ | ⟨hnokey, hnoidle, hnone, holdest⟩
  · refine .inl ⟨by simpa [and_assoc] using List.find?_some hkey, fun j w hw hm => ?_⟩
    exact find?_lowest hsorted hkey (w, j) hw (by simpa [and_assoc] using hm)
  · refine .inr (.inl ⟨fun j w => hnokey w j, by simpa using List.find?_some hidle, fun j w hw hm => ?_⟩)
    exact find?_lowest hsorted hidle (w, j) hw (by simpa using hm)
  · obtain ⟨hmem, hfirst⟩ := oldestOf_first (hsorted.filter _) hreleasing
    refine .inr (.inr (.inl ⟨fun j w hw => ⟨hnokey w j hw, hnoidle w j hw⟩, by simpa using (List.mem_filter.mp hmem).2,
      fun j w hw hm => hfirst (w, j) (List.mem_filter.mpr ⟨hw, by simpa using hm⟩)⟩))
  · refine .inr (.inr (.inr ⟨fun j w hw => ⟨hnokey w j hw, hnoidle w j hw, ?_⟩,
      fun j w hw => (oldestOf_first hsorted holdest).2 (w, j) hw⟩))
    have hempty := ((oldestOf_spec s _).1.mp hnone)
    simpa using List.filter_eq_nil_iff.mp hempty (w, j) hw

/-! ### Triggering the copies of a note -/

/-- A trigger restarts the envelopes unless it is legato: `LEGATO` is on and the voice is held or sustained (R275). -/
theorem retrigger_eq (s : State) (v : Voice) :
    (!isLegato s v) = decide (¬(s.paramInt .legato = 1 ∧ v.gate ≠ .released)) := by
  unfold isLegato State.switch
  cases v.gate <;> simp

/-- A trigger keeps the levels and the pending samples (R247). -/
theorem voiceTrigger_keeps (s : State) (v : Voice) (key note : Int) (vel : F32) (c N : Nat) (retrig : Bool) :
    let w := voiceTrigger s v key note vel c N retrig
    w.amp.level = v.amp.level ∧ w.flt.level = v.flt.level ∧ w.osc1.pend = v.osc1.pend ∧ w.osc2.pend = v.osc2.pend := by
  cases retrig
  · exact ⟨rfl, rfl, rfl, rfl⟩
  · refine ⟨rfl, rfl, ?_⟩
    obtain ⟨hosc1, hosc2⟩ := voiceTrigger_oscillators s v key note vel c N
    rw [hosc1, hosc2]
    cases s.switch .oscReset <;> exact ⟨rfl, rfl⟩

/-- A trigger leaves the amplitude envelope active: restarted, or kept from a voice that was not released (R51, R275). -/
theorem voiceTrigger_active {P : Nat} {s : State} {v : Voice} {key note : Int} {vel : F32} {c N : Nat} {retrig : Bool}
    (hv : voiceLegal P v = true) (hlegato : retrig = false → v.gate ≠ .released) :
    (voiceTrigger s v key note vel c N retrig).amp.stage ≠ .idle := by
  cases retrig
  · obtain ⟨hgate, -⟩ := (voiceLegal_iff P v).mp hv
    exact fun hidle => hlegato rfl (hgate.mpr (.inl hidle))
  · exact (nomatch ·)

/-- With legal registers the copies of a note are as many as the two registers say, whichever is less (R272). -/
theorem copyCount_eq {s : State} (h : registersLegal s = true) :
    (copyCount s : Int) = min (s.paramInt .unisonCount) (s.paramInt .voiceCount) := by
  have hcopies : 1 ≤ min (s.paramInt .unisonCount).toNat (s.paramInt .voiceCount).toNat := (copyCount_bounds h).1
  change ((min (s.paramInt .unisonCount).toNat (s.paramInt .voiceCount).toNat : Nat) : Int) = _
  omega

theorem exec_noteOn {key : Int} {x : F32} (s : State) (hx : x.isNaN = false) :
    exec (.noteOn key x) s = .next (noteOnState key x s) := by
  simp [exec, execNoteOn, noteOnState, hx]

/-- What NOTE_ON does with legal registers: from the state with the counter advanced it triggers the note's copies, each on
the voice allocated to it, and changes nothing else (R270, R272). `mid c` is the state after the first `c` copies. -/
theorem noteOnState_triggers {s : State} (h : registersLegal s = true) (key : Int) (x : F32) :
    ∃ (chosen : List Nat) (mid : Nat → State),
      let s1 : State := { s with age := s.age + 1#32 }
      let t := noteOnState key x s
      t = { s1 with voices := t.voices } ∧ t.voices.length = s.voices.length ∧ chosen.length = copyCount s ∧
      chosen.Nodup ∧ (∀ i ∈ chosen, i < eligibleCount s) ∧ (∀ i, i ∉ chosen → t.voices[i]? = s.voices[i]?) ∧
      mid 0 = s1 ∧ mid chosen.length = t ∧
      ∀ c i : Nat, chosen[c]? = some i → ∃ v w : Voice, s.voices[i]? = some v ∧ t.voices[i]? = some w ∧
        allocate (mid c) key c (eligibleCount s) (chosen.take c) = some (v, i) ∧ mid (c + 1) = (mid c).setVoice i w ∧
        w = voiceTrigger s1 v key (noteMap s key) (clampCanon x c0 c1) c chosen.length (!isLegato s v) := by
  obtain ⟨chosen, mid, hframe, hlen, hcount, hnodup, hchosen, hrest, hfirst, hlast, hcopies⟩ :=
    triggerCopies_spec key (noteMap s key) (clampCanon x c0 c1) (eligibleCount s) (copyCount s) (copyCount s) 0 []
      { s with age := s.age + 1#32 } (eligibleCount_bounds h).2 (by simpa using (copyCount_bounds h).2)
  refine ⟨chosen, mid, hframe, hlen, hcount, hnodup, fun i hi => (hchosen i hi).1, hrest, hfirst, hcount ▸ hlast,
    fun c i hi => ?_⟩
  obtain ⟨v, hv, hw, halloc, hmid⟩ := hcopies c i hi
  rw [Nat.zero_add] at hw halloc hmid
  exact ⟨v, _, hv, hw, halloc, hmid, hcount ▸ rfl⟩

/-- Settles O37: the loop of NOTE_ON triggers what it allocates, and a trigger writes and keeps what R247 says. -/
theorem noteOnTriggersDistinctVoices : Obligations.NoteOnTriggersDistinctVoices := by
  intro s key x hregs hvoices hx
  obtain ⟨chosen, mid, hframe, hlen, hcount, hnodup, hchosen, hrest, hfirst, hlast, hcopies⟩ :=
    noteOnState_triggers hregs key x
  have hage : (noteOnState key x s).age = s.age + 1#32 := by rw [hframe]
  refine ⟨noteOnState key x s, chosen, mid, exec_noteOn s hx, by rw [hframe], by rw [hage, BitVec.toNat_add]; rfl, hlen,
    hnodup, hcount ▸ copyCount_eq hregs, hcount ▸ (copyCount_bounds hregs).1, fun i hi => Int.lt_toNat.mp (hchosen i hi),
    hrest, hage ▸ hfirst, hlast, fun c i hi => ?_⟩
  obtain ⟨v, w, hv, hw, halloc, hmid, htrigger⟩ := hcopies c i hi
  have hlegal := (voicesLegal_iff s).mp hvoices v (List.mem_of_getElem? hv)
  refine ⟨v, w, hv, hw, halloc, hmid, ?_⟩
  generalize hb : (!isLegato s v) = b at htrigger
  rw [retrigger_eq] at hb
  rw [hage, ← noteMap_eq, hb]
  subst htrigger
  obtain ⟨hwrites, -, -, hlegato, hretrigger⟩ :=
    triggerWritesVoice { s with age := s.age + 1#32 } v key (noteMap s key) (clampCanon x c0 c1) c chosen.length b
  obtain ⟨hassigned, hkey, hnote, hvel, hgate, hwage, hcopy, huni, -, hgn, hvalid, hfilt, hsh⟩ := hwrites
  obtain ⟨hamp, hflt, hosc1, hosc2⟩ :=
    voiceTrigger_keeps { s with age := s.age + 1#32 } v key (noteMap s key) (clampCanon x c0 c1) c chosen.length b
  refine ⟨by rw [hvel], hassigned, hkey, hnote, ?vel, hgate, ?active, hwage, hcopy, huni, hgn, hvalid, hfilt,
    hamp, hflt, hosc1, hosc2, hsh, fun hl => ?legato, fun hl => ?retrigger⟩
  case vel =>
    obtain ⟨hval, -⟩ := clampCanon_spec hx c0_notNaN c1_notNaN (by norm_num)
    rw [hvel, hval, c0_val, c1_val, min_comm]
  case active =>
    refine voiceTrigger_active hlegal fun hl => ?_
    rw [← hb, decide_eq_false_iff_not, not_not] at hl
    exact hl.2
  case legato =>
    obtain ⟨hamp', hflt', -⟩ := hlegato (hb ▸ decide_eq_false (not_not.mpr hl))
    exact ⟨hamp', hflt'⟩
  case retrigger =>
    obtain ⟨hamp', hflt', -⟩ := hretrigger (hb ▸ decide_eq_true hl)
    exact ⟨by rw [hamp'], by rw [hflt']⟩

end Sys2Proof.Machine
end

section
/-! PROOFS about the commands that end notes: NOTE_OFF, SUSTAIN and ALL_NOTES_OFF (44_voice_manager.md R276 to R278,
R281). -/

namespace Sys2Proof.Machine

/-! ### One voice -/

/-- The voice holds the raw key. -/
def HoldsKey (key : Int) (v : Voice) : Prop := v.assigned = true ∧ v.key = key ∧ v.gate = .held

theorem noteOffVoice_of_holdsKey {key : Int} {v : Voice} (pedal : Bool) (h : HoldsKey key v) :
    noteOffVoice pedal key v = if pedal then { v with gate := .sustained } else voiceRelease v := by
  obtain ⟨hassigned, hkey, hgate⟩ := h
  simp [noteOffVoice, hassigned, hkey, hgate]

theorem noteOffVoice_of_not_holdsKey {key : Int} {v : Voice} (pedal : Bool) (h : ¬HoldsKey key v) :
    noteOffVoice pedal key v = v :=
  if_neg (by simpa [HoldsKey, and_assoc] using h)

/-- After its NOTE_OFF no voice holds the key, whatever the pedal. -/
theorem not_holdsKey_noteOffVoice (pedal : Bool) (key : Int) (v : Voice) : ¬HoldsKey key (noteOffVoice pedal key v) := by
  by_cases h : HoldsKey key v
  · rw [noteOffVoice_of_holdsKey pedal h]
    cases pedal <;> exact fun hh => nomatch hh.2.2
  · rwa [noteOffVoice_of_not_holdsKey pedal h]

theorem releaseSustained_of_sustained {v : Voice} (h : v.gate = .sustained) : releaseSustained v = voiceRelease v := if_pos h

theorem releaseSustained_of_ne {v : Voice} (h : v.gate ≠ .sustained) : releaseSustained v = v := if_neg h

/-- A voice that does not hold the key when the pedal is lifted is released if it is the key's. -/
theorem gate_releaseSustained {key : Int} {v : Voice} (h : ¬HoldsKey key v)
    (hassigned : (releaseSustained v).assigned = true) (hkey : (releaseSustained v).key = key) :
    (releaseSustained v).gate = .released := by
  by_cases hs : v.gate = .sustained
  · rw [releaseSustained_of_sustained hs]
    rfl
  · rw [releaseSustained_of_ne hs] at hassigned hkey ⊢
    cases hg : v.gate with
    | released => rfl
    | held => exact absurd ⟨hassigned, hkey, hg⟩ h
    | sustained => exact absurd hg hs

/-! ### The pool -/

theorem mapVoices_getElem? {s : State} {i : Nat} {v : Voice} (f : Voice → Voice) (h : s.voices[i]? = some v) :
    (s.mapVoices f).voices[i]? = some (f v) := by
  simp [h]

/-- Settles O38: NOTE_OFF replaces each voice by its image, which depends on whether it holds the key. -/
theorem noteOffReleasesOrSustains : Obligations.NoteOffReleasesOrSustains := by
  intro s key
  refine ⟨s.mapVoices (noteOffVoice s.pedal key), rfl, rfl, by simp, fun i v hv =>
    ⟨noteOffVoice s.pedal key v, mapVoices_getElem? _ hv, fun hholds hdown => ?_, fun hholds hup => ?_,
      noteOffVoice_of_not_holdsKey s.pedal⟩⟩
  · rw [noteOffVoice_of_holdsKey _ hholds, hdown, if_pos rfl]
  · rw [noteOffVoice_of_holdsKey _ hholds, hup]
    rfl

/-- Settles O39: lifting the pedal replaces each voice by its image, released if it was sustained. -/
theorem sustainPedal : Obligations.SustainPedal := fun s =>
  ⟨rfl, State.mapVoices { s with pedal := false } releaseSustained, rfl, rfl, by simp, fun _ _ hv =>
    ⟨_, mapVoices_getElem? _ hv, releaseSustained_of_sustained, releaseSustained_of_ne⟩⟩

/-- Settles O40: ALL_NOTES_OFF replaces each voice by its image, released if its key is down or sustained. -/
theorem allNotesOffReleasesAll : Obligations.AllNotesOffReleasesAll := fun s =>
  ⟨s.mapVoices releaseSounding, rfl, rfl, by simp, fun _ _ hv =>
    ⟨_, mapVoices_getElem? _ hv, fun hsounding => if_pos hsounding, fun hreleased => if_neg (by simp [hreleased])⟩⟩

/-- Settles O42: NOTE_OFF leaves no voice that holds the key, and lifting the pedal releases what is still sustained. -/
theorem noStuckNotes : Obligations.NoStuckNotes := by
  intro s key
  refine ⟨s.mapVoices (noteOffVoice s.pedal key), _, rfl, rfl, ?_, fun hup v hv ha hk hg => ?_, ?_⟩
  · exact List.forall_mem_map.mpr fun v _ ha hk hg => not_holdsKey_noteOffVoice s.pedal key v ⟨ha, hk, hg⟩
  · refine List.mem_map.mpr ⟨v, hv, ?_⟩
    rw [noteOffVoice_of_holdsKey _ ⟨ha, hk, hg⟩, hup]
    rfl
  · refine List.forall_mem_map.mpr fun w hw => gate_releaseSustained ?_
    obtain ⟨v, -, rfl⟩ := List.mem_map.mp hw
    exact not_holdsKey_noteOffVoice s.pedal key v

/-! ### Where a held voice comes from -/

/-- If `w` is held, so was `v` before, with the same note. -/
def HeldFrom (v w : Voice) : Prop :=
  w.gate = .held → v.gate = .held ∧ w.key = v.key ∧ w.note = v.note ∧ w.vel = v.vel ∧ w.age = v.age ∧ w.gto = v.gto ∧
    w.gfrom = v.gfrom

theorem HeldFrom.refl (v : Voice) : HeldFrom v v := fun h => ⟨h, rfl, rfl, rfl, rfl, rfl, rfl⟩

theorem HeldFrom.trans {u v w : Voice} (huv : HeldFrom u v) (hvw : HeldFrom v w) : HeldFrom u w := by
  intro hw
  obtain ⟨hv, hkey, hnote, hvel, hage, hgto, hgfrom⟩ := hvw hw
  rw [hkey, hnote, hvel, hage, hgto, hgfrom]
  exact huv hv

theorem heldFrom_of_gate_ne {v w : Voice} (h : w.gate ≠ .held) : HeldFrom v w := fun hw => absurd hw h

theorem heldFrom_voiceRelease (v : Voice) : HeldFrom v (voiceRelease v) := heldFrom_of_gate_ne (nomatch ·)

theorem heldFrom_noteOffVoice (pedal : Bool) (key : Int) (v : Voice) : HeldFrom v (noteOffVoice pedal key v) := by
  by_cases h : HoldsKey key v
  · rw [noteOffVoice_of_holdsKey pedal h]
    cases pedal
    · exact heldFrom_voiceRelease v
    · exact heldFrom_of_gate_ne (nomatch ·)
  · rw [noteOffVoice_of_not_holdsKey pedal h]
    exact .refl v

theorem heldFrom_release_if (p : Prop) [Decidable p] (v : Voice) : HeldFrom v (if p then voiceRelease v else v) := by
  split
  · exact heldFrom_voiceRelease v
  · exact .refl v

/-- A tick leaves gate, note and the glide's ends as they are (R230). -/
theorem heldFrom_tickVoice (s : State) (noise : F32) (glv : Option F32) (v : Voice) :
    HeldFrom v (tickVoice s noise glv v) := by
  unfold tickVoice
  split
  · exact .refl v
  · rw [voiceRender_frame]
    exact HeldFrom.refl v

/-- Every held voice of `t` stands where it was held in `s`, with the same note. -/
def PoolHeldFrom (s t : State) : Prop :=
  ∀ (j : Nat) (w : Voice), t.voices[j]? = some w → ∃ v : Voice, s.voices[j]? = some v ∧ HeldFrom v w

theorem poolHeldFrom_of_voices_eq {s t : State} (h : t.voices = s.voices) : PoolHeldFrom s t :=
  fun _ w hw => ⟨w, h ▸ hw, .refl w⟩

theorem poolHeldFrom_of_map {s t u : State} {f : Voice → Voice} (hst : PoolHeldFrom s t) (hu : u.voices = t.voices.map f)
    (hf : ∀ v, HeldFrom v (f v)) : PoolHeldFrom s u := by
  intro j w hw
  rw [hu, List.getElem?_map, Option.map_eq_some_iff] at hw
  obtain ⟨v, hv, rfl⟩ := hw
  obtain ⟨o, ho, hov⟩ := hst j v hv
  exact ⟨o, ho, hov.trans (hf v)⟩

/-- Settles O43: commands other than NOTE_ON, and ticks, release or sustain held voices and retarget none. -/
theorem onlyNoteOnHolds : Obligations.OnlyNoteOnHolds := by
  intro i s hi
  obtain ⟨t, ht, he⟩ := exec_effect i s
  have hself : PoolHeldFrom s s := poolHeldFrom_of_voices_eq rfl
  suffices hpool : PoolHeldFrom s t by
    refine ⟨t, ht, fun j w hw hheld => ?_⟩
    obtain ⟨v, hv, hvw⟩ := hpool j w hw
    exact ⟨v, hv, hvw hheld⟩
  cases he with
  | noteOn key x => exact absurd rfl (hi key x)
  | noteOff key => exact poolHeldFrom_of_map hself rfl (heldFrom_noteOffVoice s.pedal key)
  | allNotesOff => exact poolHeldFrom_of_map hself rfl fun v => heldFrom_release_if _ v
  | allSoundOff => exact poolHeldFrom_of_map hself rfl fun _ => heldFrom_of_gate_ne (nomatch ·)
  | pedalUp => exact poolHeldFrom_of_map hself rfl fun v => heldFrom_release_if _ v
  | render n =>
    exact runRender_keeps (I := PoolHeldFrom s) (fun _ _ _ _ h => h)
      (fun u h => poolHeldFrom_of_map h (tick_voices u) (heldFrom_tickVoice u _ _)) _ hself
  | _ => exact poolHeldFrom_of_voices_eq rfl

end Sys2Proof.Machine
end

section
/-! PROOFS of the silence after ALL_SOUND_OFF (44_voice_manager.md R279, 45_render_mixer.md R312 to R320). -/

namespace Sys2Proof

/-- The product of finite values does not depend on their order. -/
theorem F32.mul_comm_of_finite {x y : F32} (hx : x.isFinite = true) (hy : y.isFinite = true) : x.mul y = y.mul x := by
  simp [F32.mul, F32.not_nan_of_finite, F32.not_inf_of_finite, hx, hy, Nat.mul_comm, Bool.xor_comm]

/-- A value at or above zero that is not -0.0 has a positive sign. -/
theorem F32.sign_of_val_nonneg {x : F32} (h : 0 ≤ x.val) (hz : F32.notNegZero x = true) : x.sign = false := by
  rcases h.lt_or_eq with h | h
  · exact F32.sign_of_val_pos h
  · by_contra hs
    have hmag : x.mag = 0 := of_decide_eq_true (F32.isZero_iff.mpr h.symm)
    have hx : x = ⟨0x80000000#32⟩ := F32.ext_sign_mag ((Bool.not_eq_false _).mp hs) hmag
    rw [hx] at hz
    exact absurd hz (by decide)

end Sys2Proof

namespace Sys2Proof.Machine

/-! ### A tick without an active voice -/

/-- The empty sum stays +0.0 through the master volume, whose register holds no -0.0 (R315). -/
theorem masterOut_c0 {s : State} (h : registersLegal s = true) : masterOut s c0 = c0 := by
  obtain ⟨-, hlo, -, hnz, -⟩ := param_bounds h .masterVolume
  have hfinite := (param_within h .masterVolume).finite (by norm_num [paramRow]) (by norm_num [paramRow])
  have hsign : (s.param .masterVolume).sign = false := F32.sign_of_val_nonneg (by simpa [paramRow] using hlo) hnz
  rw [masterOut, F32.mul_comm_of_finite (by decide) hfinite, mul_c0 hfinite, hsign]
  decide

theorem convSample_c0 (fmt : OutFmt) : convSample fmt c0 = silence fmt := by
  cases fmt with
  | s16 => decide +kernel
  | f32 => rfl

theorem tickSample_of_idle {s : State} (h : registersLegal s = true) (hidle : ∀ v ∈ s.voices, v.amp.stage = .idle) :
    tickSample s = silence s.cfg.outFmt := by
  have hactive : s.voices.filter (fun v => decide (v.amp.stage ≠ .idle)) = [] := by simpa using hidle
  rw [tickSample, renderVoices_eq, hactive]
  exact (congrArg _ (masterOut_c0 h)).trans (convSample_c0 _)

theorem tick_voices_of_idle {s : State} (hidle : ∀ v ∈ s.voices, v.amp.stage = .idle) : (tick s).voices = s.voices := by
  rw [tick_voices]
  exact (List.map_congr_left fun v hv => if_pos (hidle v hv)).trans (List.map_id _)

/-! ### From ALL_SOUND_OFF to the next NOTE_ON -/

/-- Since `s` the registers have stayed legal, all voices are at reset, and only frames of silence have been emitted. -/
structure SilentSince (s t : State) : Prop where
  regs : registersLegal t = true
  cfg : t.cfg = s.cfg
  voices : ∀ v ∈ t.voices, v = Voice.reset
  out : ∃ n : Nat, t.out = s.out ++ List.replicate (2 * n) (silence s.cfg.outFmt)

theorem SilentSince.tick {s t : State} (h : SilentSince s t) : SilentSince s (tick t) := by
  have hidle : ∀ v ∈ t.voices, v.amp.stage = .idle := fun v hv => by rw [h.voices v hv]; rfl
  obtain ⟨n, hout⟩ := h.out
  refine ⟨registersLegal_tick h.regs, (tick_cfg t).trans h.cfg, by rw [tick_voices_of_idle hidle]; exact h.voices,
    n + 1, ?_⟩
  rw [tick_out, tickSample_of_idle h.regs hidle, h.cfg, hout, List.append_assoc, Nat.mul_succ, List.replicate_add]
  rfl

/-- Of the commands other than RENDER, only NOTE_ON takes a voice from reset (R52). -/
theorem voices_reset_of_effect {i : Instr} {s t : State} (he : Effect s i t) (hn : ∀ key x, i ≠ .noteOn key x)
    (hr : ∀ n, i ≠ .render n) (h : ∀ v ∈ s.voices, v = Voice.reset) : ∀ v ∈ t.voices, v = Voice.reset := by
  have himage : ∀ {f : Voice → Voice}, f Voice.reset = Voice.reset → ∀ v ∈ s.voices.map f, v = Voice.reset :=
    fun hf => List.forall_mem_map.mpr fun v hv => by rw [h v hv, hf]
  cases he with
  | noteOn key x => exact absurd rfl (hn key x)
  | render n => exact absurd rfl (hr n)
  | noteOff key => exact himage rfl
  | allNotesOff => exact himage rfl
  | allSoundOff => exact himage rfl
  | pedalUp => exact himage rfl
  | _ => exact h

theorem SilentSince.of_effect {i : Instr} {s t u : State} (h : SilentSince s t) (he : Effect t i u)
    (hn : ∀ key x, i ≠ .noteOn key x) : SilentSince s u := by
  by_cases hr : ∃ n, i = .render n
  · obtain ⟨n, rfl⟩ := hr
    cases he with
    | nothing => exact h
    | render n =>
      exact runRender_keeps (I := SilentSince s) (fun _ _ _ _ hu => ⟨hu.regs, hu.cfg, hu.voices, hu.out⟩)
        (fun _ hu => hu.tick) _ ⟨h.regs, h.cfg, h.voices, h.out⟩
  · obtain ⟨-, hout, -⟩ := effect_stream he (not_exists.mp hr)
    exact ⟨registersLegal_of_effect he h.regs, (effect_cfg he).trans h.cfg,
      voices_reset_of_effect he hn (not_exists.mp hr) h.voices, hout ▸ h.out⟩

theorem SilentSince.runCommands {s t : State} (h : SilentSince s t) (later : List Instr)
    (hn : ∀ i ∈ later, ∀ key x, i ≠ .noteOn key x) : SilentSince s (runCommands later t) := by
  induction later generalizing t with
  | nil => exact h
  | cons i rest ih =>
    obtain ⟨u, hu, he⟩ := exec_effect i t
    have hrun : Machine.runCommands (i :: rest) t = Machine.runCommands rest u := by simp [Machine.runCommands, hu]
    rw [hrun]
    exact ih (h.of_effect he (hn i List.mem_cons_self)) fun j hj => hn j (List.mem_cons_of_mem i hj)

/-- Settles O41: with all voices at reset a tick emits silence, and commands other than NOTE_ON keep them there. -/
theorem allSoundOffSilences : Obligations.AllSoundOffSilences := by
  intro s
  have hreset : ∀ v ∈ (s.mapVoices fun _ => Voice.reset).voices, v = Voice.reset :=
    List.forall_mem_map.mpr fun _ _ => rfl
  refine ⟨s.mapVoices fun _ => Voice.reset, rfl, rfl, by simp, hreset, fun hregs later hn => ?_⟩
  have hstart : SilentSince s (s.mapVoices fun _ => Voice.reset) :=
    ⟨registersLegal_of_effect .allSoundOff hregs, rfl, hreset, 0, by simp⟩
  exact (hstart.runCommands later hn).out

end Sys2Proof.Machine
end

section
/-! PROOFS that the event-only parameter registers do not reach the sound (44_voice_manager.md R280, 46_control.md R342). -/

namespace Sys2Proof.Machine

/-! ### The registers that only note events read -/

/-- The register is read by NOTE_ON alone: voice count, unison count, transpose or legato. -/
def eventOnly : Param → Bool
  | .voiceCount | .unisonCount | .transpose | .legato => true
  | _ => false

section
variable {p q : Param} (hp : eventOnly p = true)
include hp

theorem param_setParamReg_sounding (s : State) (x : F32) (hq : eventOnly q = false) :
    (s.setParamReg p x).param q = s.param q := by
  refine State.param_setParamReg_of_ne s x ?_
  rintro rfl
  rw [hp] at hq
  cases hq

theorem paramInt_setParamReg_sounding (s : State) (x : F32) (hq : eventOnly q = false) :
    (s.setParamReg p x).paramInt q = s.paramInt q := by
  rw [State.paramInt, State.paramInt, param_setParamReg_sounding hp s x hq]

theorem switch_setParamReg_sounding (s : State) (x : F32) (hq : eventOnly q = false) :
    (s.setParamReg p x).switch q = s.switch q := by
  rw [State.switch, State.switch, paramInt_setParamReg_sounding hp s x hq]

/-! ### What a tick computes from the registers -/

theorem lfoAdvance_setParamReg (s : State) (x : F32) (l : LfoState) (noise : F32) :
    lfoAdvance (s.setParamReg p x) l noise = lfoAdvance s l noise := by
  unfold lfoAdvance lfoHz
  simp -zeta (disch := decide) only [State.setParamReg_cfg, State.setParamReg_fs, param_setParamReg_sounding hp,
    paramInt_setParamReg_sounding hp, switch_setParamReg_sounding hp]

theorem globalLfo_setParamReg (s : State) (x : F32) (noise : F32) :
    globalLfo (s.setParamReg p x) noise = globalLfo s noise := by
  unfold globalLfo
  rw [switch_setParamReg_sounding hp s x rfl, lfoAdvance_setParamReg hp, State.setParamReg_glfo]

theorem voiceRender_setParamReg (s : State) (x : F32) (v : Voice) (noise : F32) (glv : Option F32) :
    voiceRender (s.setParamReg p x) v noise glv = voiceRender s v noise glv := by
  unfold voiceRender renderFilter renderOscillators voiceLfo glideStep advanceEnvelopes mixSources pulseWidth pitchDt
    pitch1 pitch2 unisonOffset scaledLfo cutoffHz filterG filterK portaTime
  simp -zeta (disch := decide) only [State.setParamReg_cfg, State.setParamReg_fs, State.setParamReg_bend,
    State.setParamReg_wheel, param_setParamReg_sounding hp, paramInt_setParamReg_sounding hp,
    switch_setParamReg_sounding hp, lfoAdvance_setParamReg hp]

theorem tickGlobalValue_setParamReg (s : State) (x : F32) : tickGlobalValue (s.setParamReg p x) = tickGlobalValue s :=
  congrArg Prod.snd (globalLfo_setParamReg hp s x (tickNoise s))

theorem tickVoice_setParamReg (s : State) (x : F32) (noise : F32) (glv : Option F32) :
    tickVoice (s.setParamReg p x) noise glv = tickVoice s noise glv := by
  funext v
  rw [tickVoice, tickVoice, voiceRender_setParamReg hp]

theorem tickSample_setParamReg (s : State) (x : F32) : tickSample (s.setParamReg p x) = tickSample s := by
  unfold tickSample masterOut
  simp only [renderVoices_eq, voiceRender_setParamReg hp, tickGlobalValue_setParamReg hp,
    param_setParamReg_sounding hp s x (q := .masterVolume) rfl]
  rfl

/-! ### The tick and RENDER -/

theorem tick_setParamReg (s : State) (x : F32) : tick (s.setParamReg p x) = (tick s).setParamReg p x := by
  rw [tick_eq, tick_eq s, tickSample_setParamReg hp, tickGlobalValue_setParamReg hp, tickVoice_setParamReg hp,
    globalLfo_setParamReg hp]
  rfl

theorem iterate_tick_setParamReg (n : Nat) (s : State) (x : F32) :
    tick^[n] (s.setParamReg p x) = (tick^[n] s).setParamReg p x := by
  induction n generalizing s with
  | zero => rfl
  | succ n ih => rw [Function.iterate_succ_apply, Function.iterate_succ_apply, tick_setParamReg hp, ih]

theorem runRender_setParamReg (s : State) (x : F32) : runRender (s.setParamReg p x) = (runRender s).setParamReg p x := by
  rw [runRender, runRender, renderLoop_eq, renderLoop_eq, iterate_tick_setParamReg hp]
  rfl

end

/-- Settles O44: a tick reads none of these registers, so it goes on the same with another value in one of them. -/
theorem eventParametersDoNotSound : Obligations.EventParametersDoNotSound := by
  intro s p x n h
  have hp : eventOnly p = true := by rcases h with rfl | rfl | rfl | rfl <;> rfl
  exact ⟨_, exec_render n s, congrArg Host.Outcome.next (runRender_setParamReg hp { s with remain := BitVec.ofNat 16 n } x)⟩

end Sys2Proof.Machine
end

section
/-! PROOFS about the noise generator and the conversion of a sample (45_render_mixer.md R313, R316, R317). -/

namespace Sys2Proof

/-- `rne` gives the nearest integer, and on a tie the even one, here in units of 2^-149 (00_scope.md R12). -/
theorem F32.rne_nearest_units (x : F32) :
    2 * (x.rne * 2 ^ 149 - x.units).natAbs ≤ 2 ^ 149 ∧
    (2 * (x.rne * 2 ^ 149 - x.units).natAbs = 2 ^ 149 → x.rne % 2 = 0) := by
  unfold F32.rne F32.one149
  generalize x.units = u
  dsimp only
  push_cast
  split_ifs <;> omega

/-- `rne` gives the nearest integer, and on a tie the even one (00_scope.md R12). -/
theorem F32.rne_nearest (x : F32) :
    |(x.rne : ℚ) - x.val| ≤ 1 / 2 ∧ (|(x.rne : ℚ) - x.val| = 1 / 2 → x.rne % 2 = 0) := by
  obtain ⟨hnear, htie⟩ := F32.rne_nearest_units x
  have hdiff : (x.rne : ℚ) - x.val = (x.rne * 2 ^ 149 - x.units : Int) / 2 ^ 149 := by
    rw [F32.val, eq_div_iff (by positivity), sub_mul, div_mul_cancel₀ _ (by positivity)]
    push_cast
    rfl
  have hunits : |(x.rne : ℚ) - x.val| = (x.rne * 2 ^ 149 - x.units).natAbs / 2 ^ 149 := by
    rw [hdiff, abs_div, abs_of_pos (show (0 : ℚ) < 2 ^ 149 by positivity), Nat.cast_natAbs, Int.cast_abs]
  rw [hunits, div_le_div_iff₀ (by positivity) two_pos, div_eq_div_iff (by positivity) two_ne_zero, one_mul, mul_comm]
  exact ⟨by exact_mod_cast hnear, fun h => htie (by exact_mod_cast h)⟩

end Sys2Proof

namespace Sys2Proof.Machine

/-! ### The noise generator -/

theorem rngNext_toNat (r : Word) : (rngNext r).toNat = (r.toNat * 1664525 + 1013904223) % 2 ^ 32 := by
  rw [rngNext, BitVec.toNat_add, BitVec.toNat_mul, Nat.mod_add_mod]
  rfl

/-- The upper 24 bits of the generator, scaled by 2^-23 and shifted down by 1.0, with no rounding (R313). -/
theorem noiseSample_val (r : Word) : (noiseSample r).val = ((r.toNat / 256 : Nat) : ℚ) / 2 ^ 23 - 1 := by
  have hupper : (r >>> 8).toNat = r.toNat / 256 := by rw [BitVec.toNat_ushiftRight, Nat.shiftRight_eq_div_pow]
  have hk : r.toNat / 256 < 2 ^ 24 := by have := r.isLt; omega
  unfold noiseSample
  rw [hupper]
  generalize r.toNat / 256 = k at hk
  have hkq : (k : ℚ) ≤ 2 ^ 24 := by exact_mod_cast hk.le
  have hk0 : (0 : ℚ) ≤ k := k.cast_nonneg
  have hint : (F32.ofInt (k : Int)).val = k := F32.ofInt_val (by omega)
  have hfinite : (F32.ofInt (k : Int)).isFinite = true :=
    F32.finite_of_bounds (hint ▸ hk0) (hint ▸ hkq) (by norm_num) (by norm_num)
  have hscaled : ((F32.ofInt (k : Int)).mul cTwoPowNeg23).val = k / 2 ^ 23 := by
    rw [(F32.mul_rounds hfinite (by decide)).eq_of_rep k 126 (by omega) (by norm_num)
      (by rw [hint, cTwoPowNeg23_val]; push_cast; ring), hint, cTwoPowNeg23_val]
    ring
  have hfinite' : ((F32.ofInt (k : Int)).mul cTwoPowNeg23).isFinite = true :=
    F32.finite_of_bounds (a := 0) (b := 2) (by rw [hscaled]; positivity) (by rw [hscaled]; linarith) (by norm_num)
      (by norm_num)
  rw [(F32.sub_rounds hfinite' (by decide)).eq_of_rep ((k : Int) - 2 ^ 23) 126 (by omega) (by norm_num)
    (by rw [hscaled, c1_val]; push_cast; ring), hscaled, c1_val]

theorem noiseSample_le (r : Word) : (noiseSample r).val ≤ 1 - 1 / 2 ^ 23 := by
  have hk : r.toNat / 256 + 1 ≤ 2 ^ 24 := by have := r.isLt; omega
  have hkq : ((r.toNat / 256 : Nat) : ℚ) + 1 ≤ 2 ^ 24 := by exact_mod_cast hk
  rw [noiseSample_val]
  linarith

/-- Settles O17: the generator's word arithmetic is modulo 2^32, and each step of the sample is exact. -/
theorem noiseGenerator : Obligations.NoiseGenerator := by
  refine ⟨fun s => ?_, fun r => ?_, by decide, by decide +kernel⟩
  · rw [tick_rng, rngNext_toNat]
  · obtain ⟨hnum, hlo, -⟩ := noiseSample_holdable r
    exact ⟨hnum, noiseSample_val r, hlo, noiseSample_le r⟩

/-! ### The conversion of a sample -/

/-- The product with 32767.0 stays within full scale (R316). -/
theorem mul_cS16Scale_within {x : F32} (hx : Within (-1) 1 x) : Within (-32767) 32767 (x.mul cS16Scale) := by
  have hscale : Within (-((32767 : Nat) : ℚ)) ((32767 : Nat) : ℚ) cS16Scale :=
    ⟨cS16Scale_notNaN, by norm_num, by norm_num⟩
  exact (Within.mul (m := 1) (hx.mono (by norm_num) (by norm_num)) hscale).mono (by norm_num) (by norm_num)

/-- A value in [-1.0, 1.0] becomes the 16-bit integer nearest to its product with 32767.0, which full scale holds
(R316). -/
theorem convSample_s16 {x : F32} (hx : Within (-1) 1 x) :
    ∃ v : BitVec 16, convSample .s16 x = .s16 v ∧ v.toInt = (x.mul cS16Scale).rne ∧
      -32767 ≤ v.toInt ∧ v.toInt ≤ 32767 := by
  obtain ⟨-, hlo, hhi⟩ := mul_cS16Scale_within hx
  obtain ⟨hrlo, hrhi⟩ := rne_bounds (a := -32767) (b := 32767) (by push_cast; exact hlo) (by push_cast; exact hhi)
  have hint : (BitVec.ofInt 16 (x.mul cS16Scale).rne).toInt = (x.mul cS16Scale).rne :=
    BitVec.toInt_ofInt_eq_self (by norm_num) (by omega) (by omega)
  exact ⟨_, rfl, hint, hrlo.trans_eq hint.symm, hint.trans_le hrhi⟩

/-- Settles O20: `rne` is nearest with ties to even, and full scale keeps the integer within 16 bits. -/
theorem sampleConversion : Obligations.SampleConversion := by
  refine ⟨fun x hx => ?_, fun x => rfl, fun a ha => ?_, by decide +kernel⟩
  · obtain ⟨v, hconv, hint, hlo, hhi⟩ := convSample_s16 (bipolar_iff.mp hx)
    obtain ⟨hnear, htie⟩ := F32.rne_nearest (x.mul cS16Scale)
    rw [← hint] at hnear htie
    exact ⟨v, hconv, hnear, htie, hlo, hhi⟩
  · exact ⟨_, rfl, bipolar_iff.mpr (clamp_unit_within ha)⟩

end Sys2Proof.Machine
end

section
/-! PROOFS about one tick: its frame, the voices it renders, the sample it emits (45_render_mixer.md R311 to R320). -/

namespace Sys2Proof.Machine

/-! ### One voice of the pool -/

theorem tickVoice_of_idle {s : State} {noise : F32} {glv : Option F32} {v : Voice} (h : v.amp.stage = .idle) :
    tickVoice s noise glv v = v := if_pos h

theorem tickVoice_of_active {s : State} {noise : F32} {glv : Option F32} {v : Voice} (h : v.amp.stage ≠ .idle) :
    tickVoice s noise glv v = (voiceRender s v noise glv).1 := if_neg h

/-- The fields of a voice that a tick may change. -/
theorem tickVoice_frame (s : State) (noise : F32) (glv : Option F32) (v : Voice) :
    ∃ w, tickVoice s noise glv v = w ∧
      w = { v with gp := w.gp, gn := w.gn, amp := w.amp, flt := w.flt, osc1 := w.osc1, osc2 := w.osc2, lfo := w.lfo,
                   filt := w.filt } := by
  by_cases h : v.amp.stage = .idle
  · exact ⟨v, tickVoice_of_idle h, rfl⟩
  · exact ⟨_, (tickVoice_of_active h).trans (voiceRender_frame s v noise glv), rfl⟩

/-- With the global LFO's value, no voice's own LFO advances (R234). -/
theorem tickVoice_lfo_of_global (s : State) (noise x : F32) (v : Voice) :
    (tickVoice s noise (some x) v).lfo = v.lfo := by
  by_cases h : v.amp.stage = .idle
  · rw [tickVoice_of_idle h]
  · rw [tickVoice_of_active h, voiceRender_frame]
    rfl

/-- Voice by voice, the pool after a tick. -/
theorem tick_voices_getElem? (s : State) (i : Nat) :
    (tick s).voices[i]? = s.voices[i]?.map (tickVoice s (tickNoise s) (tickGlobalValue s)) := by
  rw [tick_voices, List.getElem?_map]

theorem tick_voice {s : State} {i : Nat} {v : Voice} (h : s.voices[i]? = some v) :
    (tick s).voices[i]? = some (tickVoice s (tickNoise s) (tickGlobalValue s) v) := by
  rw [tick_voices_getElem?, h, Option.map_some]

/-- Settles O14: a tick writes what its equation lists, and a render what its frame lists. -/
theorem tickFrame : Obligations.TickFrame := by
  refine fun s => ⟨by rw [tick_eq], tick_voices_length s, fun i v h => ?_⟩
  obtain ⟨w, hw, hframe⟩ := tickVoice_frame s (tickNoise s) (tickGlobalValue s) v
  exact ⟨w, hw ▸ tick_voice h, hframe⟩

/-- Settles O15: the pool after a tick holds each voice's image, which is its render unless it is idle. -/
theorem tickRendersActiveVoices : Obligations.TickRendersActiveVoices := by
  intro s i v h
  rw [tick_voice h]
  exact ⟨fun hidle => congrArg some (tickVoice_of_idle hidle), fun hactive => congrArg some (tickVoice_of_active hactive)⟩

/-- Settles O16: the loop over the pool is the ordered sum over the active voices, and the tick emits its conversion
twice. -/
theorem tickEmitsSummedFrame : Obligations.TickEmitsSummedFrame := by
  refine fun s => ⟨tickSample s, tick_out s, ?_⟩
  rw [tickSample, renderVoices_eq]
  rfl

/-! ### The shared values of a tick -/

theorem globalLfo_of_sync {s : State} (h : s.paramInt .lfoSync = 1) (noise : F32) :
    globalLfo s noise = ((lfoAdvance s s.glfo noise).1, some (lfoAdvance s s.glfo noise).2) :=
  if_pos (decide_eq_true h)

theorem globalLfo_of_not_sync {s : State} (h : s.paramInt .lfoSync ≠ 1) (noise : F32) :
    globalLfo s noise = (s.glfo, none) :=
  if_neg (ne_true_of_eq_false (decide_eq_false h))

/-- Settles O18: `LFO_SYNC` decides whether the tick has a global value, with which no voice's own LFO advances. -/
theorem globalLfoRuns : Obligations.GlobalLfoRuns := by
  intro s
  constructor
  · intro hsync
    have hvalue : tickGlobalValue s = some (lfoAdvance s s.glfo (tickNoise s)).2 := by
      rw [tickGlobalValue, globalLfo_of_sync hsync]
    refine ⟨by rw [tick_glfo, globalLfo_of_sync hsync], hvalue, fun v x => rfl, fun i v h => ⟨_, tick_voice h, ?_⟩⟩
    rw [hvalue, tickVoice_lfo_of_global]
  · intro hsync
    rw [tick_glfo, tickGlobalValue, globalLfo_of_not_sync hsync]
    exact ⟨rfl, rfl⟩

/-- The pool is not among what renders and the global LFO read. -/
theorem sameShared_setVoice (s : State) (j : Nat) (v : Voice) : SameShared (s.setVoice j v) s :=
  ⟨rfl, rfl, rfl, rfl, rfl⟩

/-- Settles O45: each voice's image under a tick is a function of that voice and of values no voice holds. -/
theorem voicesAreIndependent : Obligations.VoicesAreIndependent := by
  intro s i j v hij
  have hshared := sameShared_setVoice s j v
  have hnoise : tickNoise (s.setVoice j v) = tickNoise s := rfl
  have hglfo : globalLfo (s.setVoice j v) (tickNoise s) = globalLfo s (tickNoise s) := hshared.globalLfo rfl _
  refine ⟨?_, by rw [tick_rng, tick_rng, State.setVoice_rng], by rw [tick_glfo, tick_glfo, hnoise, hglfo]⟩
  rw [tick_voices_getElem?, tick_voices_getElem?, tickGlobalValue, tickGlobalValue, hnoise, hglfo,
    tickVoice_congr hshared, State.setVoice_voices, List.getElem?_set_ne hij.symm]

end Sys2Proof.Machine
end

section
/-! PROOFS about runs of ticks: RENDER's length and its splitting, silence (45_render_mixer.md R310, R320). -/

namespace Sys2Proof.Machine

/-! ### RENDER -/

theorem iterate_tick_remain_update (n : Nat) (s : State) (r : BitVec 16) :
    tick^[n] { s with remain := r } = { tick^[n] s with remain := r } := by
  induction n generalizing s with
  | zero => rfl
  | succ n ih => rw [Function.iterate_succ_apply, Function.iterate_succ_apply, tick_remain_update, ih]

theorem iterate_tick_out_length (n : Nat) (s : State) : (tick^[n] s).out.length = s.out.length + 2 * n := by
  induction n generalizing s with
  | zero => rfl
  | succ n ih => rw [Function.iterate_succ_apply, ih, tick_out_length]; omega

theorem iterate_tick_out_extends (n : Nat) (s : State) : s.out <+: (tick^[n] s).out := by
  obtain ⟨rng, glfo, vs, frames, hticks, -⟩ := iterate_tick_frame n s
  rw [hticks]
  exact ⟨_, rfl⟩

/-- A RENDER whose host consumes every sample is its ticks, with `REMAIN` counted down to 0 (R310). -/
theorem exec_render_of_unlimited {s : State} {n : Nat} (hn : n ≤ 65535) (h : s.hostTakes = none) :
    exec (.render n) s = .next { tick^[n] s with remain := 0#16 } := by
  have hcount : (BitVec.ofNat 16 n).toNat = n := by rw [BitVec.toNat_ofNat]; omega
  have hturns : turnsRun n s.hostTakes = n := by rw [h]; rfl
  have hleft : takesLeft n s.hostTakes = (tick^[n] s).hostTakes := by rw [iterate_tick_hostTakes, h]; rfl
  rw [exec_render, runRender, renderLoop_eq]
  simp only [hcount, hturns, hleft, iterate_tick_remain_update, BitVec.sub_self]

/-- Settles O13: such a RENDER is its ticks, ticks neither read nor write `REMAIN`, and their counts add. -/
theorem renderRunsItsTicks : Obligations.RenderRunsItsTicks := by
  intro s n hn h
  refine ⟨exec_render_of_unlimited hn h, iterate_tick_out_length n s, iterate_tick_out_extends n s, ?_, ?_⟩
  · rintro rfl hremain
    rw [exec_render_of_unlimited hn h, ← hremain]
    rfl
  · intro a b hab
    refine ⟨_, exec_render_of_unlimited (by omega) h, ?_⟩
    have hu : ({ tick^[a] s with remain := 0#16 } : State).hostTakes = none := (iterate_tick_hostTakes a s).trans h
    rw [exec_render_of_unlimited (by omega) hu, exec_render_of_unlimited hn h, iterate_tick_remain_update, ← hab,
      Nat.add_comm, Function.iterate_add_apply]

/-! ### Silence -/

theorem iterate_tick_rng (n : Nat) (s : State) : (tick^[n] s).rng = rngNext^[n] s.rng :=
  (Function.Semiconj.iterate_right (f := State.rng) tick_rng n) s

/-- A tick makes no voice active (R312). -/
theorem idle_tick {s : State} (hidle : ∀ v ∈ s.voices, v.amp.stage = .idle) :
    ∀ v ∈ (tick s).voices, v.amp.stage = .idle := by
  rw [tick_voices_of_idle hidle]
  exact hidle

theorem iterate_tick_voices_of_idle (n : Nat) {s : State} (hidle : ∀ v ∈ s.voices, v.amp.stage = .idle) :
    (tick^[n] s).voices = s.voices := by
  induction n generalizing s with
  | zero => rfl
  | succ n ih => rw [Function.iterate_succ_apply, ih (idle_tick hidle), tick_voices_of_idle hidle]

/-- Ticks without an active voice emit frames of silence only (R320). -/
theorem iterate_tick_out_of_idle (n : Nat) {s : State} (h : registersLegal s = true)
    (hidle : ∀ v ∈ s.voices, v.amp.stage = .idle) :
    (tick^[n] s).out = s.out ++ List.replicate (2 * n) (silence s.cfg.outFmt) := by
  induction n generalizing s with
  | zero => simp
  | succ n ih =>
    rw [Function.iterate_succ_apply, ih (registersLegal_tick h) (idle_tick hidle), tick_out, tick_cfg,
      tickSample_of_idle h hidle, List.append_assoc, Nat.mul_succ, Nat.add_comm, List.replicate_add]
    rfl

/-- Settles O19: a tick without an active voice emits silence and leaves no voice active, and advances the generator as
every tick does. -/
theorem silentWithoutActiveVoices : Obligations.SilentWithoutActiveVoices := fun s n h hidle =>
  ⟨iterate_tick_out_of_idle n h hidle, iterate_tick_voices_of_idle n hidle, iterate_tick_rng n s⟩

end Sys2Proof.Machine
end

section
/-! PROOFS about the control commands: what each stores or reads, and when it has no effect (46_control.md R340 to R350). -/

namespace Sys2Proof.Machine

/-! ### Commands without an effect -/

/-- The binary32 operand of a command, where it has one (30_encoding.md R103). -/
def f32Operand : Instr → Option F32
  | .noteOn _ x | .pitchBend x | .modWheel x | .setParam _ x | .setSampleRate x => some x
  | _ => none

/-- A command whose only possible effect is nothing leaves the state. -/
theorem exec_eq_self {i : Instr} {s : State} (h : ∀ t, Effect s i t → t = s) : exec i s = .next s := by
  obtain ⟨t, ht, he⟩ := exec_effect i s
  rw [ht, h t he]

/-- Every effect of a command with a binary32 operand is of an operand that is no NaN (R341). -/
theorem exec_of_nan {i : Instr} {x : F32} (hi : f32Operand i = some x) (hx : x.isNaN = true) (s : State) :
    exec i s = .next s := by
  refine exec_eq_self fun t he => ?_
  cases he with
  | nothing => rfl
  | noteOn _ y hy | pitchBend y hy | modWheel y hy | setParam _ y _ _ hy | setSampleRate y hy =>
    obtain rfl : y = x := Option.some.inj hi
    exact absurd hx (ne_true_of_eq_false hy)
  | _ => cases hi

/-- SET_PARAM writes only a register that its id names (10_state.md R41). -/
theorem exec_setParam_of_undefined {id : Nat} (h : paramOfId id = none) (x : F32) (s : State) :
    exec (.setParam id x) s = .next s := by
  refine exec_eq_self fun t he => ?_
  cases he with
  | nothing => rfl
  | setParam _ _ p hp => rw [h] at hp; cases hp

/-- Every opcode from 0x0C on executes as NOP (R348). -/
theorem exec_decode_of_reserved {w0 : Word} (w1 : Word) (h : 0x0C ≤ fieldOp w0) (s : State) :
    exec (decode w0 w1) s = .next s := by
  rw [decode_of_reserved w1 h]
  split_ifs <;> rfl

theorem decode_of_nop {w0 : Word} (w1 : Word) (h : fieldOp w0 = 0x00) : decode w0 w1 = .nop := if_pos h

/-- Settles O46: the words decode to NOP or to a reserved row, and each of these answers the state itself. -/
theorem nopAndReservedChangeNothing : Obligations.NopAndReservedChangeNothing := by
  refine ⟨fun w0 w1 s h => ?_, fun s op => ⟨rfl, rfl, rfl, rfl, rfl, rfl⟩⟩
  rw [← fieldOp_eq] at h
  obtain hnop | hreserved := h
  · rw [decode_of_nop w1 hnop]; rfl
  · exact exec_decode_of_reserved w1 hreserved s

/-- Settles O47: a NaN admits no effect of the five commands, an undefined id none of SET_PARAM. -/
theorem nanOperandHasNoEffect : Obligations.NaNOperandHasNoEffect :=
  ⟨fun s _ _ _ hx => ⟨exec_of_nan rfl hx s, exec_of_nan rfl hx s, exec_of_nan rfl hx s, exec_of_nan rfl hx s,
    exec_of_nan rfl hx s⟩, fun s x _ h => exec_setParam_of_undefined h x s⟩

/-! ### What a command with an effect writes -/

/-- SET_PARAM writes the register its id names (R342). -/
theorem exec_setParam {id : Nat} {p : Param} {x v : F32} {s : State} (hx : x.isNaN = false) (hp : paramOfId id = some p)
    (hv : paramValue (s.row p) x = v) : exec (.setParam id x) s = .next (s.setParamReg p v) := by
  simp [exec, execSetParam, hx, hp, hv]

theorem exec_getParam {id : Nat} {p : Param} {b : Word} {s : State} (hp : paramOfId id = some p)
    (hb : (s.param p).bits = b) : exec (.getParam id) s = .next { s with rdata := b } := by
  simp [exec, execGetParam, State.paramById, hp, hb]

theorem exec_getParam_of_undefined {id : Nat} (h : paramOfId id = none) (s : State) :
    exec (.getParam id) s = .next { s with rdata := 0#32 } := by
  simp [exec, execGetParam, State.paramById, h]

theorem exec_pitchBend {x b : F32} {s : State} (hx : x.isNaN = false) (hb : clampCanon x cNeg1 c1 = b) :
    exec (.pitchBend x) s = .next { s with bend := b } := by
  simp [exec, execPitchBend, hx, hb]

theorem exec_modWheel {x b : F32} {s : State} (hx : x.isNaN = false) (hb : clampCanon x c0 c1 = b) :
    exec (.modWheel x) s = .next { s with wheel := b } := by
  simp [exec, execModWheel, hx, hb]

theorem exec_setSampleRate {x r : F32} {s : State} (hx : x.isNaN = false) (hr : F32.clamp x c8000 c192000 = r) :
    exec (.setSampleRate x) s = .next { s with fs := r } := by
  simp [exec, execSetSampleRate, hx, hr]

/-! ### The stored values -/

/-- A continuous register takes the clamped operand (R342). -/
theorem paramValue_val_of_continuous {r : ParamRow} {x : F32} (hk : r.kind = .continuous) (hx : x.isNaN = false)
    (hlo : r.lo.isNaN = false) (hhi : r.hi.isNaN = false) (hle : r.lo.val ≤ r.hi.val) :
    (paramValue r x).val = max r.lo.val (min x.val r.hi.val) := by
  rw [paramValue, hk, canon0_val, clamp_val hx hlo hhi hle]

/-- A discrete register takes the clamped operand quantized (R343). -/
theorem paramValue_of_discrete {r : ParamRow} (x : F32) (hk : r.kind = .discrete) :
    paramValue r x = canon0 (quant (F32.clamp x r.lo r.hi) r.hi) := by
  rw [paramValue, hk]

/-- Settles O49: the value stored is legal for its row, and is the clamped operand or its quantization by the row's kind. -/
theorem setParamStoresClamped : Obligations.SetParamStoresClamped := by
  intro s id p x hcfg hp hx
  simp only [constructionLegal, Bool.and_eq_true, decide_eq_true_eq] at hcfg
  obtain ⟨⟨h1, h32⟩, -⟩ := hcfg
  obtain ⟨hlo, hhi, hle, hmin, hmax, -, hint⟩ := paramRow_facts s.cfg.poolSize h1 h32 p
  have hlegal := paramValue_legal s.cfg.poolSize h1 h32 p hx
  simp only [paramLegal, Bool.and_eq_true, F32.within_iff] at hlegal
  obtain ⟨⟨⟨hnan, -⟩, hnz⟩, -⟩ := hlegal
  refine ⟨_, exec_setParam hx hp rfl, rfl, fun q hq => State.param_setParamReg_of_ne s _ hq, ?_⟩
  rw [State.param_setParamReg_self]
  refine ⟨hnan, hnz, fun hk => paramValue_val_of_continuous hk hx hlo hhi hle, ?_⟩
  rintro hk v rfl
  obtain ⟨hloInt, -⟩ := hint hk
  obtain ⟨hquant, -⟩ := quant_val (F32.clamp_within hx hlo hhi hle) hloInt hmin hmax
  rw [paramValue_of_discrete x hk, canon0_val]
  exact hquant

/-- Settles O52: both controllers store their operand clamped and canonical, unless it is a NaN. -/
theorem controllersStoreClamped : Obligations.ControllersStoreClamped := by
  refine fun s x => ⟨fun hx => ⟨?_, ?_⟩, fun hx => ⟨exec_of_nan rfl hx s, exec_of_nan rfl hx s⟩⟩
  · obtain ⟨hval, hnan, hnz, -⟩ := clampCanon_spec hx cNeg1_notNaN c1_notNaN (by norm_num)
    exact ⟨_, exec_pitchBend hx rfl, by rw [hval, cNeg1_val, c1_val], hnan, hnz⟩
  · obtain ⟨hval, hnan, hnz, -⟩ := clampCanon_spec hx c0_notNaN c1_notNaN (by norm_num)
    exact ⟨_, exec_modWheel hx rfl, by rw [hval, c0_val, c1_val], hnan, hnz⟩

/-- Settles O53: the rate stored is the operand clamped, unless it is a NaN. -/
theorem sampleRateStoresClamped : Obligations.SampleRateStoresClamped := by
  refine fun s x => ⟨fun hx => ⟨_, exec_setSampleRate hx rfl, ?_, ?_⟩, fun hx => exec_of_nan rfl hx s⟩
  · rw [clamp_val hx c8000_notNaN c192000_notNaN (by norm_num), c8000_val, c192000_val]
  · exact clamp_notNaN hx c8000_notNaN c192000_notNaN

/-- Settles O50: GET_PARAM finds the register SET_PARAM of the same id has written. -/
theorem getParamReadsRegister : Obligations.GetParamReadsRegister :=
  ⟨fun _ _ _ hp => exec_getParam hp rfl, fun s _ h => exec_getParam_of_undefined h s, fun s _ p _ hp hx =>
    ⟨_, exec_setParam hx hp rfl, exec_getParam hp (by rw [State.param_setParamReg_self])⟩⟩

/-! ### The worked examples -/

/-- Settles O51: each command's rule, with the stored value computed from the example's operand. -/
theorem controlExamples : Obligations.ControlExamples := by
  refine ⟨exec_setParam ?_ rfl ?_, exec_setParam ?_ rfl ?_, exec_setParam ?_ rfl ?_, exec_setParam ?_ rfl ?_,
    exec_setParam ?_ rfl ?_, exec_setParam ?_ rfl ?_, exec_setParam ?_ rfl ?_, exec_setParam ?_ rfl ?_,
    exec_setParam ?_ rfl ?_, exec_setParam ?_ rfl ?_, exec_setParam ?_ rfl ?_, exec_of_nan rfl ?_ _,
    exec_setParam_of_undefined rfl _ _, exec_getParam rfl ?_, exec_pitchBend ?_ ?_, exec_pitchBend ?_ ?_,
    exec_modWheel ?_ ?_, exec_setSampleRate ?_ ?_, exec_setSampleRate ?_ ?_, exec_setSampleRate ?_ ?_⟩
  all_goals decide +kernel

end Sys2Proof.Machine
end

section
/-! PROOFS about commands and RESET at the port, back-pressure, and the invariants at reset (60_exceptions.md R370,
70_reset_and_hazards.md R390 to R400). -/

namespace Sys2Proof.Machine

/-! ### No command fails -/

/-- Settles O8: every command has an effect, and whatever the port does answers a next state. -/
theorem noCommandFails : Obligations.NoCommandFails :=
  ⟨fun i s => (exec_effect i s).imp fun _ h => h.1, exists_step_next⟩

/-! ### The port: between commands, waiting, and going on -/

/-- A RENDER that waits does what the waiting port does (R400). -/
theorem step_of_waiting {s : State} (hremain : s.remain ≠ 0#16) (htakes : s.hostTakes = some 0) :
    step s = .next (waitingPort s) := by
  rw [step, portAction, if_neg hremain, if_pos htakes]

/-- A RENDER in progress goes on when the host consumes (R400). -/
theorem step_of_running {s : State} (hremain : s.remain ≠ 0#16) (htakes : s.hostTakes ≠ some 0) :
    step s = .next (runRender s) := by
  rw [step, portAction, if_neg hremain, if_neg htakes]

/-- Between commands, the block does what a waiting RENDER does unless a command is offered. -/
theorem step_of_idle {s : State} (hremain : s.remain = 0#16) (hcmd : ∀ w0 w1 rest, s.host ≠ .command w0 w1 :: rest) :
    step s = .next (waitingPort s) := by
  rw [step, portAction, if_pos hremain, idlePort, waitingPort]
  cases hhost : s.host with
  | nil => rfl
  | cons e rest =>
    cases e with
    | command w0 w1 => exact absurd hhost (hcmd w0 w1 rest)
    | reset => rfl
    | takes k => rfl

theorem waitingPort_of_nil {s : State} (h : s.host = []) : waitingPort s = s := by
  rw [waitingPort, h]

theorem waitingPort_of_command {s : State} {w0 w1 : Word} {rest : List HostEvent} (h : s.host = .command w0 w1 :: rest) :
    waitingPort s = s := by
  rw [waitingPort, h]

theorem waitingPort_of_reset {s : State} {rest : List HostEvent} (h : s.host = .reset :: rest) :
    waitingPort s = State.applyReset { s with host := rest } := by
  rw [waitingPort, h]
  rfl

theorem waitingPort_of_takes {s : State} {k : Option Nat} {rest : List HostEvent} (h : s.host = .takes k :: rest) :
    waitingPort s = { s with host := rest, hostTakes := k } := by
  rw [waitingPort, h]

/-- `RESET` at a command boundary (R390, R391). -/
theorem step_of_reset {s : State} {rest : List HostEvent} (hremain : s.remain = 0#16) (hhost : s.host = .reset :: rest) :
    step s = .next (State.applyReset { s with host := rest }) := by
  rw [step_of_idle hremain (by simp [hhost]), waitingPort_of_reset hhost]

/-! ### RESET -/

/-- Settles O9: the step is `applyReset`, which leaves the reset value of each register and resets every voice. -/
theorem resetValues : Obligations.ResetValues := by
  intro s rest hremain hhost
  refine ⟨_, step_of_reset hremain hhost, rfl, rfl, rfl, rfl, rfl, rfl, rfl, rfl, rfl, rfl, ?_, ?_, ?_⟩
  · exact State.applyReset_param { s with host := rest }
  · rw [State.applyReset_voices, List.length_replicate]
  · exact fun v hv => List.eq_of_mem_replicate hv

/-- No step changes the construction parameters (R390). -/
theorem step_cfg {s t : State} (h : step s = .next t) : t.cfg = s.cfg :=
  step_keeps (I := fun u => u.cfg = s.cfg) (fun _ _ _ _ hu => hu) (fun _ hu => hu) (fun u hu => (tick_cfg u).trans hu)
    (fun _ _ _ _ _ hu he => (effect_cfg (effect_of_exec he)).trans hu) s t rfl h

/-- Settles O10: each way in which a step changes the state keeps `cfg`, and `applyReset` moves `out` behind `outKept`. -/
theorem constructionAndSamplesSurvive : Obligations.ConstructionAndSamplesSurvive :=
  ⟨fun s => (exists_step_next s).imp fun _ ht => ⟨ht, step_cfg ht⟩,
    fun _ _ hremain hhost => ⟨_, step_of_reset hremain hhost, rfl, rfl, rfl⟩⟩

/-- Settles O11: by cases on what the host does next, at the waiting port and between commands. -/
theorem waitingRenderTakesOnlyReset : Obligations.WaitingRenderTakesOnlyReset := by
  refine ⟨fun s rest hremain htakes => ?_, fun s rest hremain => ⟨fun hhost => ?_, fun k hhost => ?_⟩⟩
  · rw [step_of_waiting hremain htakes]
    refine ⟨fun w0 w1 hhost => ?_, fun hhost => ?_, fun hhost => ?_, fun k hhost => ?_⟩
    · rw [waitingPort_of_command hhost]
    · rw [waitingPort_of_nil hhost]
    · rw [waitingPort_of_reset hhost]
      exact ⟨_, rfl, step_of_reset (s := { s with remain := 0#16 }) rfl hhost, rfl⟩
    · rw [waitingPort_of_takes hhost]
  · rw [step_of_idle hremain (by simp [hhost]), waitingPort_of_nil hhost]
  · rw [step_of_idle hremain (by simp [hhost]), waitingPort_of_takes hhost]

/-! ### Back-pressure -/

theorem turnsRun_le (n : Nat) (k : Option Nat) : turnsRun n k ≤ n := by
  cases k with
  | none => exact le_rfl
  | some k => exact Nat.min_le_left n k

/-- A RENDER with `n` frames left and a host that consumes `k` more runs ticks that do not depend on either number, and
leaves the frames not run in `REMAIN` (R310, R400). -/
theorem runRender_port {n : Nat} (hn : n ≤ 65535) (s : State) (k : Option Nat) :
    runRender { s with remain := BitVec.ofNat 16 n, hostTakes := k } =
      { tick^[turnsRun n k] s with
        remain := BitVec.ofNat 16 (n - turnsRun n k), hostTakes := takesLeft (turnsRun n k) k } := by
  have hcount : (BitVec.ofNat 16 n).toNat = n := by rw [BitVec.toNat_ofNat]; omega
  have hleft : BitVec.ofNat 16 n - BitVec.ofNat 16 (turnsRun n k) = BitVec.ofNat 16 (n - turnsRun n k) :=
    BitVec.ofNat_sub_ofNat_of_le n _ (by have := turnsRun_le n k; omega) (turnsRun_le n k)
  have hticks := iterate_tick_port (turnsRun n k) s (BitVec.ofNat 16 n) s.host k
  rw [runRender, renderLoop_eq]
  simp only [hcount, hleft, hticks, iterate_tick_host]

/-- RENDER of `n` frames with a host that consumes `k` more (R310, R400). -/
theorem exec_render_port {n : Nat} (hn : n ≤ 65535) (s : State) (k : Option Nat) :
    exec (.render n) { s with hostTakes := k } =
      .next { tick^[turnsRun n k] s with
        remain := BitVec.ofNat 16 (n - turnsRun n k), hostTakes := takesLeft (turnsRun n k) k } :=
  congrArg Host.Outcome.next (runRender_port hn s k)

/-- A RENDER that stopped after `k` of its `n` frames, resumed by a host that consumes every sample, ends as one that never
stopped (R400). -/
theorem step_of_resumed {n k : Nat} (hn : n ≤ 65535) (hk : k < n) (s : State) :
    step { tick^[k] s with remain := BitVec.ofNat 16 (n - k), hostTakes := none } =
      .next { tick^[n] s with remain := 0#16, hostTakes := none } := by
  have hremain : BitVec.ofNat 16 (n - k) ≠ 0#16 := by simp [← BitVec.toNat_inj]; omega
  rw [step_of_running hremain (by simp), runRender_port (by omega)]
  simp only [turnsRun, takesLeft, Option.map_none, Nat.sub_self, ← Function.iterate_add_apply, Nat.sub_add_cancel hk.le]

/-- Settles O12: both RENDERs run ticks of one state, `n` of them or the `k` the host consumes first. -/
theorem backPressureIsTransparent : Obligations.BackPressureIsTransparent := by
  intro s n k hn
  refine ⟨{ tick^[n] s with remain := 0#16, hostTakes := none }, _, ?_, exec_render_port hn s (some k), fun hk => ?_,
    fun hk => ?_⟩
  · rw [exec_render_port hn s none]
    simp only [turnsRun, takesLeft, Option.map_none, Nat.sub_self]
  · have hturns : turnsRun n (some k) = k := Nat.min_eq_right hk.le
    rw [hturns]
    refine ⟨?_, iterate_tick_out_length k s, step_of_resumed hn hk s⟩
    rw [BitVec.toNat_ofNat]
    omega
  · have hturns : turnsRun n (some k) = n := Nat.min_eq_left hk
    simp only [hturns, takesLeft, Option.map_some, Nat.sub_self]

/-! ### The invariants at reset -/

/-- A newly constructed block is its own reset. -/
theorem construct_applyReset (c : Construction) (host : List HostEvent) (takes : Option Nat) :
    (State.construct c host takes).applyReset = State.construct c host takes := rfl

/-- A block of a legal construction satisfies the three invariants when new (R391, R392). -/
theorem stateLegal_construct {c : Construction} (h : constructionLegal c = true) (host : List HostEvent)
    (takes : Option Nat) : stateLegal (State.construct c host takes) = true := by
  obtain ⟨hregs, hvoices⟩ : LifecycleOk (State.construct c host takes) :=
    construct_applyReset c host takes ▸ lifecycleOk_applyReset h
  have hbounded : (State.construct c host takes).voices.all voiceBounded = true :=
    List.all_eq_true.mpr fun _ hv => List.eq_of_mem_replicate hv ▸ voiceBounded_reset
  have hglfo : lfoLegal ⟨c0, c0⟩ = true := by decide +kernel
  have hdatapath : datapathBounded (State.construct c host takes) = true := by
    simp only [datapathBounded, Bool.and_eq_true]
    exact ⟨⟨⟨hbounded, hglfo⟩, rfl⟩, rfl⟩
  simp only [stateLegal, Bool.and_eq_true]
  exact ⟨⟨hregs, (voicesLegal_iff _).mpr hvoices⟩, hdatapath⟩

/-- Settles O59: the reference construction is a legal one. -/
theorem invariantsHoldAtReset : Obligations.InvariantsHoldAtReset :=
  ⟨stateLegal_construct (by decide +kernel) [] none, fun _ host takes h => stateLegal_construct h host takes⟩

end Sys2Proof.Machine
end
